-- ==== Sys2Proof/Word.lean ====
section
/-! DEFINITION. The bit vectors the spec treats as bits (00_scope.md R6): bytes, words, bus addresses. -/

namespace Sys2Proof

/-- A byte is 8 bits (R6). -/
abbrev Byte := BitVec 8

/-- A word is 16 bits (R6): a command word or a data word. -/
abbrev Word := BitVec 16

/-- The 7-bit address of a device on the bus (R11, R31). -/
abbrev DevAddr := BitVec 7

end Sys2Proof
end

