-- ==== Sys2Proof/Config.lean ====
section
/-! DEFINITION. The parameters of 00_scope.md R5, the values the spec leaves open (constants with no body), and the waits. -/

namespace Sys2Proof

/-- The sensor's states (10_state.md R20). The block keeps no copy; only `Config.deviceFirstState` names one. -/
inductive DeviceState where
  | asleep
  | awake
  | continuousMeasuring
  | idle
  deriving DecidableEq, Repr, Inhabited

/-- The waits the block keeps itself (R201, R202, R207). -/
inductive Wait where
  /-- `T_SETTLE_CONT`, after start and after stop of continuous measurement. -/
  | settleCont
  /-- `T_FRC`, between the write and the read of forced recalibration. -/
  | frc
  /-- `T_IDENT_BACKOFF`, between two attempts of identify. -/
  | identBackoff
  deriving DecidableEq, Repr

namespace Config

/-- `CRC_POLY` (R5). -/
def crcPoly : Byte := 0x31

/-- `CRC_INIT` (R5, R72). -/
def crcInitValue : Byte := 0xFF

/-- `DEV_ADDR_DEFAULT` (R5, R11). -/
def devAddrDefault : DevAddr := 0x64

/-- `DEV_ADDR_ALT` (R5, R11). -/
def devAddrAlt : DevAddr := 0x65

/-- `IDENT_ATTEMPTS` (R5, R111). -/
def identAttempts : Nat := 5

/-- `NX`, the count of word registers (R5, R12). -/
def numWordRegs : Nat := 6

/-- `TX_CAP` (R5, R16). -/
def txCap : Nat := 8

/-- `RX_CAP` (R5, R16). -/
def rxCap : Nat := 18

/-- `MAX_WORDS`, the payload words one frame in `tx` can carry (R5, D23). -/
def maxWords : Nat := 2

/-- `FRC_TARGET_MAX` (R5, R147). -/
def frcTargetMax : Nat := 32000

/-- The longest operation has 22 phases (identify, five attempts); one step of the model passes through at most this
many, and the next step goes on where it stopped. DESIGN CHOICE (log entry 28). -/
def phasesPerStep : Nat := 32

/-- `EXPECTED_ID` is OPEN (R5, D11): a free constant, log entry 12. -/
opaque expectedId : BitVec 32

/-- `ROUND_RAW` is OPEN between floor and nearest (R151, D17): the free choice for one real raw code, log entry 11. -/
opaque roundsToNearest : Rat → Bool

/-- The `n`-th unspecified value of the CRC register between computations (R14, D4): a free value, log entry 8. -/
opaque freeCrc : Nat → Byte

/-- `T_SINGLE_SHOT`, in milliseconds, is OPEN (R5, D16) and is the host's duty (R203); no rule reads it, log entry 31. -/
opaque tSingleShotMs : Nat

/-- The device's first state is a free parameter (R195); no rule of the block reads it, log entry 26. -/
opaque deviceFirstState : DeviceState

end Config

/-- The source's figure for each wait, in milliseconds: a lower bound (R5, R206, R207). No rule reads it. -/
def Wait.atLeastMs : Wait → Nat
  | .settleCont => 1000
  | .frc => 200
  | .identBackoff => 200

end Sys2Proof
end

