-- ==== Sys2Proof/Machine/Bytes.lean ====
section
/-! DEFINITION. Byte order (20_memory.md R34): a word is sent and received high byte first. -/

namespace Sys2Proof

/-- `w[15:8]` (R6). -/
def highByte (w : Word) : Byte := w.extractLsb' 8 8

/-- `w[7:0]` (R6). -/
def lowByte (w : Word) : Byte := w.extractLsb' 0 8

/-- `hi ++ lo`, `hi` in the more significant place (R6, R34). -/
def joinBytes (hi lo : Byte) : Word := hi ++ lo

end Sys2Proof
end

