-- ==== Sys2Proof/Machine/Crc.lean ====
section
/-! DEFINITION. The CRC-8 unit as functions of its register (40_crc8.md R70 to R76). -/

namespace Sys2Proof

/-- R70 on the register: shift left, and XOR with 0x31 when the bit shifted out was 1. -/
def crcBitStep (r : Byte) : Byte := if r.msb then (r <<< 1) ^^^ Config.crcPoly else r <<< 1

/-- `n` bit steps. -/
def crcBitSteps : Nat → Byte → Byte
  | 0, r => r
  | n + 1, r => crcBitSteps n (crcBitStep r)

/-- R71 on the register: the whole byte is absorbed first, then eight bit steps follow. -/
def crcByteStep (r b : Byte) : Byte := crcBitSteps 8 (r ^^^ b)

/-- R73: from 0xFF, one byte step for each byte in list order, no final XOR. -/
def crc8 (bytes : List Byte) : Byte := bytes.foldl crcByteStep Config.crcInitValue

/-- R74: over the high byte and then the low byte of one word. -/
def crcWord (w : Word) : Byte := crc8 [highByte w, lowByte w]

/-- R76: one data bit into the unit in its serial form. -/
def crcSerialBit (r : Byte) (d : Bool) : Byte :=
  if r.msb ^^ d then (r <<< 1) ^^^ Config.crcPoly else r <<< 1

/-- The bits of a byte from bit 7 down to bit 0 (R35). -/
def bitsMsbFirst (b : Byte) : List Bool := (List.range 8).map fun i => b.getLsbD (7 - i)

/-- R76: the serial unit over a byte list, most significant bit of each byte first. -/
def crcSerial (bytes : List Byte) : Byte :=
  (bytes.flatMap bitsMsbFirst).foldl crcSerialBit Config.crcInitValue

end Sys2Proof
end

