-- ==== Sys2Proof/Machine/Operands.lean ====
section
/-! DEFINITION. Operands: conversions between raw codes and physical values, `ROUND_RAW`, the range checks and the identity
(45_host_conversions.md R140 to R151). Exact rational arithmetic (D28). -/

namespace Sys2Proof

/-- `ROUND_RAW` (R151): the integer just below or equal, or the nearest one; which of the two is free for each argument
(log entry 11). A whole number is itself under both. -/
def roundRaw (q : Rat) : Int :=
  if q.den = 1 then q.num
  else if Config.roundsToNearest q then (q + 1 / 2).floor else q.floor

/-- A rounded raw code as a 16-bit word; in range of the checks it always fits (R142 to R144). -/
def rawWord (q : Rat) : Word := BitVec.ofInt 16 (roundRaw q)

/-- R140. -/
def tempFromRaw (raw : Word) : Rat := -45 + 175 * (raw.toNat : Rat) / 65535

/-- R141. -/
def rhFromRaw (raw : Word) : Rat := -6 + 125 * (raw.toNat : Rat) / 65535

/-- R142. -/
def tempToRaw (t : Rat) : Word := rawWord ((t + 45) * 65535 / 175)

/-- R143. -/
def rhToRaw (h : Rat) : Word := rawWord ((h + 6) * 65535 / 125)

/-- R144: times 50; a fraction goes through `ROUND_RAW` (D18). -/
def pressureToRaw (p : Rat) : Word := rawWord (p * 50)

/-- The hectopascal value whose raw code is `raw`: R144 inverted, used by the decoder of requests only (log entry 3). -/
def pressureFromRaw (raw : Word) : Rat := (raw.toNat : Rat) / 50

/-- R145, the temperature part. -/
def temperatureInRange (t : Rat) : Bool := 10 ≤ t && t ≤ 40

/-- R145, the humidity part. -/
def humidityInRange (h : Rat) : Bool := 20 ≤ h && h ≤ 80

/-- R146. -/
def pressureInRange (p : Rat) : Bool := 400 ≤ p && p ≤ 1100

/-- R147. -/
def targetInRange (ppm : Word) : Bool := ppm.toNat ≤ Config.frcTargetMax

/-- R11: exactly two addresses are legal. -/
def devAddrLegal (a : DevAddr) : Bool := a == Config.devAddrDefault || a == Config.devAddrAlt

/-- R149: `id = x[0] ++ x[1]`. -/
def identityOf (w0 w1 : Word) : BitVec 32 := w0 ++ w1

end Sys2Proof
end

