-- ==== Sys2Proof/Syntax.lean ====
section
/-! DEFINITION. The operations of spec/opcode_table.json, one constructor a row, with their operands (30_encoding.md R62). -/

namespace Sys2Proof

/-- The one-bit register `cfg.crc_policy` (10_state.md R17): `AcceptAlways` is 0 and `Strict` is 1. -/
inductive CrcPolicy where
  | acceptAlways
  | strict
  deriving DecidableEq, Repr

/-- The descriptor tag of a request (20_memory.md R32): it decides the format, no bit of the frame does. -/
inductive Tag where
  | narrow
  | wide
  deriving DecidableEq, Repr

/-- The source's tagged command descriptor, `Narrow(u8)` or `Wide(u16)` (R32, R58). -/
inductive CommandCode where
  | narrow (code : Byte)
  | wide (code : Word)
  deriving DecidableEq, Repr

/-- The operation set (R1, R62). Physical values are exact rational numbers (R151, D28; log entry 13). -/
inductive Instr where
  /-- `identify() -> DeviceIdentity` (R111) -/
  | identify
  /-- `start_continuous_measurement() -> ()` (R112) -/
  | startContinuousMeasurement
  /-- `stop_continuous_measurement() -> ()` (R113) -/
  | stopContinuousMeasurement
  /-- `read_measurement() -> MeasurementSample` (R114) -/
  | readMeasurement
  /-- `set_rht_compensation(temperature, humidity) -> ()` (R115): degrees Celsius, percent relative humidity -/
  | setRhtCompensation (temperature humidity : Rat)
  /-- `set_pressure_compensation(pressure) -> ()` (R116): hectopascal -/
  | setPressureCompensation (pressure : Rat)
  /-- `single_shot_trigger() -> ()` (R117) -/
  | singleShotTrigger
  /-- `sleep() -> ()` (R118) -/
  | sleep
  /-- `wake() -> ()` (R119) -/
  | wake
  /-- `soft_reset() -> ()` (R120) -/
  | softReset
  /-- `factory_reset() -> ()` (R121) -/
  | factoryReset
  /-- `enable_test_mode() -> ()` (R122) -/
  | enableTestMode
  /-- `disable_test_mode() -> ()` (R123) -/
  | disableTestMode
  /-- `forced_recalibration(target_ppm: u16) -> CorrectionValue` (R124) -/
  | forcedRecalibration (targetPpm : Word)
  /-- `crc_bit_step` (R70), on the register `crc` -/
  | crcBitStep
  /-- `crc_byte_step(b)` (R71), on the register `crc` -/
  | crcByteStep (b : Byte)
  /-- `crc_init` (R72) -/
  | crcInit
  /-- `crc8(bytes)` (R73) -/
  | crc8 (bytes : List Byte)
  /-- `crc_word(w)` (R74) -/
  | crcWord (w : Word)
  /-- `crc_check(hi, lo, c)` (R75) -/
  | crcCheck (hi lo c : Byte)
  /-- `encode_command(cmd)` (R90) -/
  | encodeCommand (cmd : Word)
  /-- `encode_narrow(cmd8)` (R91) -/
  | encodeNarrow (cmd8 : Byte)
  /-- `encode_frame(cmd, words)` (R92), into the transmit buffer -/
  | encodeFrame (cmd : Word) (words : List Word)
  /-- `decode_words(m, policy)` (R93), on the receive buffer -/
  | decodeWords (m : Nat) (policy : CrcPolicy)
  /-- `decode_raw_word()` (R94), on the receive buffer -/
  | decodeRawWord
  /-- `configure(dev_addr, crc_policy) -> ()` (R125) -/
  | configure (devAddr : DevAddr) (policy : CrcPolicy)
  deriving DecidableEq, Repr

end Sys2Proof
end

