-- ==== Sys2Proof/Decode.lean ====
section
/-! DEFINITION. The wire form of the fourteen commands: frame formats and command map (30_encoding.md R50 to R58, 41_frame_codec.md
R90 to R92), the decoder of tagged frames, and the encoder. The twelve internal operations have no wire form (spec/opcode_table.json). -/

namespace Sys2Proof

/-! ### Frames -/

/-- R90: big-endian split, no CRC byte. -/
def encodeCommand (cmd : Word) : List Byte := [highByte cmd, lowByte cmd]

/-- R91: a single raw byte. -/
def encodeNarrow (cmd8 : Byte) : List Byte := [cmd8]

/-- One triple of a frame (R53): high byte, low byte, CRC of exactly those two bytes. -/
def encodeTriple (w : Word) : List Byte := [highByte w, lowByte w, crc8 [highByte w, lowByte w]]

/-- R92: the command bytes, then a triple for each word in list order. -/
def encodeFrame (cmd : Word) (words : List Word) : List Byte := encodeCommand cmd ++ words.flatMap encodeTriple

/-! ### The decoder -/

/-- Why a frame is no command. -/
inductive DecodeReject where
  /-- A narrow request without a byte. -/
  | emptyFrame
  /-- A wide request with fewer than two bytes. -/
  | shortCommand
  /-- A narrow code that is not in the command map (R58). -/
  | unknownNarrow (code : Byte)
  /-- A wide code that is not in the command map (R58). -/
  | unknownWide (code : Word)
  /-- A payload that ends before its last triple (R53). -/
  | shortPayload
  deriving DecidableEq, Repr

/-- The word of one payload triple (R53). The CRC byte is "computed by the block, not an operand" (spec/opcode_table.json), so
it is passed over: DESIGN CHOICE, log entry 3. -/
def takeWord : List Byte → Except DecodeReject (Word × List Byte)
  | hi :: lo :: _crc :: rest => .ok (joinBytes hi lo, rest)
  | _ => .error .shortPayload

/-- The narrow half of the command map (R58). -/
def decodeNarrowCode (code : Byte) (rest : List Byte) : Except DecodeReject (Instr × List Byte) :=
  if code = 0x00 then .ok (.wake, rest)
  else if code = 0x06 then .ok (.softReset, rest)
  else .error (.unknownNarrow code)

/-- The wide half of the command map (R58), with the payload words of R54. A physical operand is the value whose raw code the
frame carries (R140, R141, R144). -/
def decodeWideCode (code : Word) (rest : List Byte) : Except DecodeReject (Instr × List Byte) :=
  if code = 0x365B then .ok (.identify, rest)
  else if code = 0x218B then .ok (.startContinuousMeasurement, rest)
  else if code = 0x3F86 then .ok (.stopContinuousMeasurement, rest)
  else if code = 0xEC05 then .ok (.readMeasurement, rest)
  else if code = 0xE000 then
    match takeWord rest with
    | .error e => .error e
    | .ok (t, rest) =>
      match takeWord rest with
      | .error e => .error e
      | .ok (h, rest) => .ok (.setRhtCompensation (tempFromRaw t) (rhFromRaw h), rest)
  else if code = 0xE016 then
    match takeWord rest with
    | .error e => .error e
    | .ok (p, rest) => .ok (.setPressureCompensation (pressureFromRaw p), rest)
  else if code = 0x219D then .ok (.singleShotTrigger, rest)
  else if code = 0x3650 then .ok (.sleep, rest)
  else if code = 0x3632 then .ok (.factoryReset, rest)
  else if code = 0x3FBC then .ok (.enableTestMode, rest)
  else if code = 0x3F3D then .ok (.disableTestMode, rest)
  else if code = 0x362F then
    match takeWord rest with
    | .error e => .error e
    | .ok (g, rest) => .ok (.forcedRecalibration g, rest)
  else .error (.unknownWide code)

/-- The command of a tagged frame and the bytes after it. The tag alone tells the formats apart (R32, R59). -/
def decode : Tag → List Byte → Except DecodeReject (Instr × List Byte)
  | .narrow, code :: rest => decodeNarrowCode code rest
  | .narrow, [] => .error .emptyFrame
  | .wide, hi :: lo :: rest => decodeWideCode (joinBytes hi lo) rest
  | .wide, _ => .error .shortCommand

/-- Word `k` of a table row's bits: bit 0 of the row is the least significant bit of word 0 (spec/98_reader.md). -/
def tableWord (w k : Nat) : Word := BitVec.ofNat 16 (w / 2 ^ (16 * k))

/-- The longest frame, in 16-bit words: eight bytes (R50). -/
def longestFrameWords : Nat := 4

/-- The frame of a table row's bits, each word high byte first (R34), every bit above `nbits` zero. A row of up to 8 bits is
narrow, a longer one wide. A row without bits has no wire form. -/
def tableFrame (nbits w : Nat) : Option (Tag × List Byte) :=
  let v := w % 2 ^ nbits
  if nbits = 0 then none
  else if nbits ≤ 8 then some (.narrow, BitVec.ofNat 8 v :: List.replicate (2 * longestFrameWords - 1) 0)
  else some (.wide, (List.range longestFrameWords).flatMap fun k => encodeCommand (tableWord v k))

/-- The instruction the decoder reads from the bits of a row of spec/opcode_table.json. -/
def decodeTableWord (nbits w : Nat) : Option Instr :=
  match tableFrame nbits w with
  | none => none
  | some (tag, bytes) =>
    match decode tag bytes with
    | .ok (i, _) => some i
    | .error _ => none

/-! ### The encoder -/

/-- The command map (R58). -/
def Instr.code : Instr → Option CommandCode
  | .identify => some (.wide 0x365B)
  | .startContinuousMeasurement => some (.wide 0x218B)
  | .stopContinuousMeasurement => some (.wide 0x3F86)
  | .readMeasurement => some (.wide 0xEC05)
  | .setRhtCompensation _ _ => some (.wide 0xE000)
  | .setPressureCompensation _ => some (.wide 0xE016)
  | .singleShotTrigger => some (.wide 0x219D)
  | .sleep => some (.wide 0x3650)
  | .wake => some (.narrow 0x00)
  | .softReset => some (.narrow 0x06)
  | .factoryReset => some (.wide 0x3632)
  | .enableTestMode => some (.wide 0x3FBC)
  | .disableTestMode => some (.wide 0x3F3D)
  | .forcedRecalibration _ => some (.wide 0x362F)
  | .crcBitStep | .crcByteStep _ | .crcInit | .crc8 _ | .crcWord _ | .crcCheck _ _ _
  | .encodeCommand _ | .encodeNarrow _ | .encodeFrame _ _ | .decodeWords _ _ | .decodeRawWord
  | .configure _ _ => none

/-- The payload words of a command, in frame order (R54, R61). -/
def Instr.payload : Instr → List Word
  | .setRhtCompensation t h => [tempToRaw t, rhToRaw h]
  | .setPressureCompensation p => [pressureToRaw p]
  | .forcedRecalibration g => [g]
  | .identify | .startContinuousMeasurement | .stopContinuousMeasurement | .readMeasurement
  | .singleShotTrigger | .sleep | .wake | .softReset | .factoryReset | .enableTestMode | .disableTestMode
  | .crcBitStep | .crcByteStep _ | .crcInit | .crc8 _ | .crcWord _ | .crcCheck _ _ _
  | .encodeCommand _ | .encodeNarrow _ | .encodeFrame _ _ | .decodeWords _ _ | .decodeRawWord
  | .configure _ _ => []

/-- The tagged frame of a command; none for an operation without a wire form. -/
def encode (i : Instr) : Option (Tag × List Byte) :=
  match i.code with
  | none => none
  | some (.narrow c) => some (.narrow, encodeNarrow c)
  | some (.wide c) => some (.wide, encodeFrame c i.payload)

/-- Every physical operand is exactly the value of some raw code: the operands a frame can carry (R61). A request by name may
carry any other value too; its frame then depends on `ROUND_RAW`. -/
def Instr.WireExact : Instr → Prop
  | .setRhtCompensation t h => (∃ r, t = tempFromRaw r) ∧ ∃ r, h = rhFromRaw r
  | .setPressureCompensation p => ∃ r, p = pressureFromRaw r
  | .identify | .startContinuousMeasurement | .stopContinuousMeasurement | .readMeasurement
  | .singleShotTrigger | .sleep | .wake | .softReset | .factoryReset | .enableTestMode | .disableTestMode
  | .forcedRecalibration _ => True
  | .crcBitStep | .crcByteStep _ | .crcInit | .crc8 _ | .crcWord _ | .crcCheck _ _ _
  | .encodeCommand _ | .encodeNarrow _ | .encodeFrame _ _ | .decodeWords _ _ | .decodeRawWord
  | .configure _ _ => True

end Sys2Proof
end

