-- ==== Sys2Proof/Machine/State.lean ====
section
/-! DEFINITION. The state of the block (10_state.md R10 to R23) with the agents around it as plain data (00_scope.md R8, R9),
the reasons a step can stop, and the state after reset. -/

namespace Sys2Proof.Machine

/-- The sequencer's phase (R13). -/
inductive Phase where
  | idle
  | check
  | encode
  | write
  | delay
  | read
  | decode
  | done
  deriving DecidableEq, Repr

/-- The two byte spaces inside the block (R30). -/
inductive Space where
  | tx
  | rx
  deriving DecidableEq, Repr

/-- Which of the two bus calls failed (R161). -/
inductive BusCall where
  | write
  | read
  deriving DecidableEq, Repr

/-- The offending argument of `InvalidArgument`, with its value (R162). -/
inductive Argument where
  | temperature (value : Rat)
  | humidity (value : Rat)
  | pressure (value : Rat)
  | targetPpm (value : Word)
  | devAddr (value : DevAddr)
  deriving DecidableEq, Repr

/-- The two causes of `DecodeError` (R163). -/
inductive DecodeCause where
  | shortResponse (got need : Nat)
  | crcMismatch (index : Nat)
  deriving DecidableEq, Repr

/-- The three causes of `OperationFailed` (R164). -/
inductive FailCause where
  | nonZeroAck (value : Word)
  | shortResponse (got : Nat)
  | calibrationInvalid (value : Word)
  deriving DecidableEq, Repr

/-- The four error kinds and no other (R160). -/
inductive OpError where
  | busError (call : BusCall)
  | invalidArgument (arg : Argument)
  | decodeError (cause : DecodeCause)
  | operationFailed (cause : FailCause)
  deriving DecidableEq, Repr

/-- MeasurementSample (R114, R148). -/
structure MeasurementSample where
  co2Ppm : Word
  temperatureCelsius : Rat
  humidityPercent : Rat
  status : Word
  deriving DecidableEq, Repr

/-- The value of an `Ok` result (R18; the type for each operation is in 42_commands.md). -/
inductive Value where
  | unit
  | identity (id : BitVec 32)
  | sample (m : MeasurementSample)
  | correction (w : Word)
  | byte (b : Byte)
  | bit (b : Bool)
  | bytes (bs : List Byte)
  | word (w : Word)
  | words (ws : List Word)
  deriving DecidableEq, Repr

/-- `Ok(value)` or `Err(kind, info)` (R18). -/
inductive OpResult where
  | ok (v : Value)
  | err (e : OpError)
  deriving DecidableEq, Repr

/-- The transport's answer to `BusWrite` (R33). -/
inductive WriteAnswer where
  | ok
  | busError
  deriving DecidableEq, Repr

/-- The transport's answer to `BusRead` (R33). -/
inductive ReadAnswer where
  | ok (bytes : List Byte)
  | busError
  deriving DecidableEq, Repr

/-- What can be observed between a request and its result (R9): the bus transactions, and the waits kept between them. -/
inductive Event where
  | write (addr : DevAddr) (bytes : List Byte) (answer : WriteAnswer)
  | read (addr : DevAddr) (asked : Nat) (answer : ReadAnswer)
  | wait (w : Wait)
  deriving DecidableEq, Repr

/-- What the host asks for: a command in its tagged wire form (R32, R91), or an operation by name with its arguments (R60).
DESIGN CHOICE, log entries 2 and 3. -/
inductive Request where
  | frame (tag : Tag) (bytes : List Byte)
  | call (i : Instr)
  deriving DecidableEq, Repr

/-- A byte space: the bytes that hold a value, addresses rising (R16, R30). An address that is not listed holds no value
(R22, log entry 23). -/
abbrev Memory := List Host.Cell

/-- A piece of state that may hold no value (R22). -/
inductive Place where
  | op
  | attempt
  | x (i : Nat)
  | byte (sp : Space) (i : Nat)
  | result
  | crcOk (k : Nat)
  deriving DecidableEq, Repr

/-- Why a step stops. Every one is a fault of the model where the spec says that no rule gets there or gives a precondition;
the errors of 60_exceptions.md are results, not faults. -/
inductive Fault where
  /-- A read of something that holds no value (R22: "A model should make such a read a fault"). Raised by the accessors of
  Machine/Ops.lean. Safe. -/
  | noValue (what : Place)
  /-- A buffer read that reaches past the buffer's current length (R30: "a model faults it"). Raised by `memRead`. Safe. -/
  | pastLength (sp : Space)
  /-- A buffer write that reaches past the buffer's capacity (R16, R30). Raised by `txWrite`. Safe. -/
  | pastCapacity (sp : Space)
  /-- A word register number above 5 (R12). Raised by `setX`. Safe. -/
  | noSuchRegister (i : Nat)
  /-- `crc_bit_step` with `bitcnt = 0` (R70: "Precondition: `bitcnt > 0`"). Raised by `execCrcBitStep`. Safe. -/
  | crcStepNotOwed
  /-- `crc_byte_step` with `bitcnt` not 0 (R71: "Precondition: `bitcnt = 0`"). Raised by `execCrcByteStep`. Safe. -/
  | crcByteNotTaken
  /-- A running phase whose `op` is no command, or DECODE of a command without a response: no rule leads there (R13). Raised
  by `resume` and `noDecode`. Safe. -/
  | strayOperation
  deriving DecidableEq, Repr

/-- Why a step has no meaning for what it was asked. -/
inductive Refusal where
  /-- The instruction has no meaning in this model yet. Raised by `exec`. Safe. -/
  | notModelled (mnemonic : String)
  /-- The frame of a request is no command of the map (R60, U14: "refuse"). Raised by `step`. Safe. -/
  | undecodable (why : DecodeReject)
  deriving DecidableEq, Repr

/-- The state of the block, and of the agents around it as far as the block meets them. -/
structure State where
  /-- `cfg.dev_addr` (R11) -/
  devAddr : DevAddr
  /-- `cfg.crc_policy` (R17) -/
  crcPolicy : CrcPolicy
  /-- `phase` (R13) -/
  phase : Phase
  /-- `op`, the latched request (R13) -/
  op : Option Instr
  /-- `attempt`, 1 to 5 (R13) -/
  attempt : Option Nat
  /-- `x[0..5]` (R12) -/
  x : Vector (Option Word) 6
  /-- `crc` (R14) -/
  crc : Byte
  /-- `bitcnt`, 0 to 8 (R15) -/
  bitcnt : Nat
  /-- `tx` (R16) -/
  tx : Memory
  /-- `tx_len`, 0 to 8 (R16) -/
  txLen : Nat
  /-- `rx` (R16) -/
  rx : Memory
  /-- `rx_len`, 0 to 18 (R16) -/
  rxLen : Nat
  /-- `result` (R18) -/
  result : Option OpResult
  /-- `crc_ok[0..5]` (R18) -/
  crcOk : Vector (Option Bool) 6
  /-- `id_match` (R18) -/
  idMatch : Option Bool
  /-- What the host will ask for, in order (R8); the model's own field, log entry 2. -/
  requests : List Request
  /-- The results the host has been handed, oldest first (R9); the model's own field, log entry 15. -/
  results : List OpResult
  /-- The bus transactions made and the waits kept, oldest first (R9); the model's own field, log entry 25. -/
  trace : List Event
  /-- The transport's answers to coming writes (R33); empty: not answered yet (U7); the model's own field, log entry 4. -/
  writeAnswers : List WriteAnswer
  /-- The transport's answers to coming reads (R33); empty: not answered yet (U7); the model's own field, log entry 4. -/
  readAnswers : List ReadAnswer
  /-- How many more waits the environment lets end (U7); the model's own field, log entry 5. -/
  waitsOver : Nat
  /-- The reset event of the block is about to happen (R190); the model's own field, log entry 21. -/
  resetRequested : Bool
  /-- How many free values have been used; the model's own field, log entry 8. -/
  freeCount : Nat
  deriving DecidableEq, Repr

/-- The state after reset (R23): the two configuration defaults, IDLE, bitcnt 0, both lengths 0, no value elsewhere. `crc` is
"unspecified" there; 0x00 is a DESIGN CHOICE (log entry 7). The agents' lists are empty (log entry 10). -/
def State.reset : State where
  devAddr := Config.devAddrDefault
  crcPolicy := .acceptAlways
  phase := .idle
  op := none
  attempt := none
  x := Vector.replicate 6 none
  crc := 0x00
  bitcnt := 0
  tx := []
  txLen := 0
  rx := []
  rxLen := 0
  result := none
  crcOk := Vector.replicate 6 none
  idMatch := none
  requests := []
  results := []
  trace := []
  writeAnswers := []
  readAnswers := []
  waitsOver := 0
  resetRequested := false
  freeCount := 0

end Sys2Proof.Machine
end

