-- ==== Sys2Proof/Machine/Flags.lean ====
section
/-! DEFINITION. The flags: `crc_ok[k]` and `id_match` (10_state.md R18, 40_crc8.md R75, 41_frame_codec.md R93). No arithmetic
condition code exists (R18). -/

namespace Sys2Proof

/-- R75: recompute over the two data bytes and compare (D35). -/
def crcCheck (hi lo c : Byte) : Bool := crc8 [hi, lo] == c

namespace Machine

/-- `crc_ok[k] <- b` (R93). -/
def setCrcOk (k : Nat) (b : Bool) (s : State) : State := { s with crcOk := s.crcOk.setIfInBounds k (some b) }

/-- `crc_ok[k]`; a flag nothing wrote holds no value (R22). -/
def readCrcOk (k : Nat) (s : State) : Except Fault Bool :=
  match s.crcOk[k]? with
  | some (some b) => .ok b
  | _ => .error (.noValue (.crcOk k))

/-- The least `k'` from `k` on, among `n` triples, whose `crc_ok` is 0 (R93: "the least such k"). -/
def firstBadTriple : Nat → Nat → State → Except Fault (Option Nat)
  | 0, _, _ => .ok none
  | n + 1, k, s =>
    match readCrcOk k s with
    | .error f => .error f
    | .ok false => .ok (some k)
    | .ok true => firstBadTriple n (k + 1) s

/-- `id_match <- (id = EXPECTED_ID)` (R111). -/
def setIdMatch (id : BitVec 32) (s : State) : State := { s with idMatch := some (id == Config.expectedId) }

end Machine

end Sys2Proof
end

