-- ==== Sys2Proof/Machine/Ops.lean ====
section
/-! DEFINITION. The named operations every meaning is built from: byte spaces (20_memory.md R30), word registers (10_state.md R12),
the CRC unit (40_crc8.md), the codec (41_frame_codec.md), the bus (20_memory.md R33), the wait (70_reset_and_hazards.md R206),
taking an error and returning to IDLE (60_exceptions.md R168, R169), reset of the block (70_reset_and_hazards.md R190). -/

namespace Sys2Proof.Machine

/-! ### Byte spaces -/

/-- The canonical form: addresses strictly rising. Nothing listed equals what an unlisted address reads as, since an unlisted
address holds no value. -/
abbrev Memory.wf (m : Memory) : Prop := m.Pairwise fun c d => c.1 < d.1

/-- The byte at an address; none where nothing was written (R22). -/
def Memory.read : Memory → Nat → Option Byte
  | [], _ => none
  | (a', b') :: m, a => if a = a' then some b' else Memory.read m a

/-- One byte written, keeping the canonical form. -/
def Memory.write : Memory → Nat → Byte → Memory
  | [], a, b => [(a, b)]
  | (a', b') :: m, a, b =>
    if a < a' then (a, b) :: (a', b') :: m
    else if a = a' then (a, b) :: m
    else (a', b') :: Memory.write m a b

/-- Bytes written one after the other from an address on. -/
def Memory.writeBytes : Memory → Nat → List Byte → Memory
  | m, _, [] => m
  | m, a, b :: bs => Memory.writeBytes (Memory.write m a b) (a + 1) bs

/-- A space that holds exactly these bytes, from index 0 on. -/
def Memory.ofBytes (bs : List Byte) : Memory := Memory.writeBytes [] 0 bs

/-- The contents of a space. -/
def State.buffer (s : State) : Space → Memory
  | .tx => s.tx
  | .rx => s.rx

/-- The current length of a space, `tx_len` or `rx_len` (R16). -/
def State.bufferLen (s : State) : Space → Nat
  | .tx => s.txLen
  | .rx => s.rxLen

/-- The capacity of a space, `TX_CAP` or `RX_CAP` (R16). -/
def Space.cap : Space → Nat
  | .tx => Config.txCap
  | .rx => Config.rxCap

/-- `n` bytes from index `i` on, in index order; a byte without a value faults (R22). -/
def readCells (sp : Space) (m : Memory) : Nat → Nat → Except Fault (List Byte)
  | _, 0 => .ok []
  | i, n + 1 =>
    match m.read i with
    | none => .error (.noValue (.byte sp i))
    | some b =>
      match readCells sp m (i + 1) n with
      | .error f => .error f
      | .ok bs => .ok (b :: bs)

/-- `MemRead(sp+i, n)` (R7, R30). -/
def memRead (sp : Space) (i n : Nat) (s : State) : Except Fault (List Byte) :=
  if i + n ≤ s.bufferLen sp then readCells sp (s.buffer sp) i n else .error (.pastLength sp)

/-- `MemRead(RX+i, 1)` as the one byte it gives. -/
def rxByte (i : Nat) (s : State) : Except Fault Byte :=
  if i < s.rxLen then
    match s.rx.read i with
    | none => .error (.noValue (.byte .rx i))
    | some b => .ok b
  else .error (.pastLength .rx)

/-- `MemWrite(TX+i, n, bs)` (R7, R30). -/
def txWrite (i : Nat) (bs : List Byte) (s : State) : Except Fault State :=
  if i + bs.length ≤ Space.tx.cap then .ok { s with tx := s.tx.writeBytes i bs } else .error (.pastCapacity .tx)

/-- `rx <- bytes; rx_len <- their count` (R110). -/
def rxLoad (bs : List Byte) (s : State) : State := { s with rx := Memory.ofBytes bs, rxLen := bs.length }

/-! ### Word registers -/

/-- `x[i] <- w` (R7, R12). -/
def setX (i : Nat) (w : Word) (s : State) : Except Fault State :=
  if i < Config.numWordRegs then .ok { s with x := s.x.setIfInBounds i (some w) } else .error (.noSuchRegister i)

/-- `x[i]` (R7); a register nothing wrote faults (R22). -/
def readX (i : Nat) (s : State) : Except Fault Word :=
  match s.x[i]? with
  | some (some w) => .ok w
  | _ => .error (.noValue (.x i))

/-- `x[k..] <- ws`, in order (R12). -/
def loadWords : List Word → Nat → State → Except Fault State
  | [], _, s => .ok s
  | w :: ws, k, s =>
    match setX k w s with
    | .error f => .error f
    | .ok s' => loadWords ws (k + 1) s'

/-- `x[k..k+n-1]`, in order. -/
def readWords : Nat → Nat → State → Except Fault (List Word)
  | 0, _, _ => .ok []
  | n + 1, k, s =>
    match readX k s with
    | .error f => .error f
    | .ok w =>
      match readWords n (k + 1) s with
      | .error f => .error f
      | .ok ws => .ok (w :: ws)

/-! ### The CRC unit -/

/-- R72. -/
def crcInitOp (s : State) : State := { s with crc := Config.crcInitValue, bitcnt := 0 }

/-- R70, where its precondition holds. -/
def crcBitOp (s : State) : State := { s with crc := crcBitStep s.crc, bitcnt := s.bitcnt - 1 }

/-- The first half of R71: the byte is absorbed and eight steps are owed. -/
def crcAbsorb (b : Byte) (s : State) : State := { s with crc := s.crc ^^^ b, bitcnt := 8 }

/-- `n` bit steps. -/
def crcBitOps : Nat → State → State
  | 0, s => s
  | n + 1, s => crcBitOps n (crcBitOp s)

/-- R71, where its precondition holds. -/
def crcByteOp (b : Byte) (s : State) : State := crcBitOps 8 (crcAbsorb b s)

/-- R73 on the unit's registers; the CRC is then in `crc`. -/
def crc8Op (bytes : List Byte) (s : State) : State := bytes.foldl (fun t b => crcByteOp b t) (crcInitOp s)

/-! ### The codec -/

/-- The loop of R92 for `n` words from `x[k]` on. -/
def encodeTriples : Nat → Nat → State → Except Fault State
  | 0, _, s => .ok s
  | n + 1, k, s =>
    match readX k s with
    | .error f => .error f
    | .ok w =>
      let s' := crc8Op [highByte w, lowByte w] s
      match txWrite (2 + 3 * k) [highByte w, lowByte w, s'.crc] s' with
      | .error f => .error f
      | .ok s'' => encodeTriples n (k + 1) s''

/-- R92: the frame of `cmd` and of the words in `x[0..n-1]`, into `tx`. -/
def encodeFrameOp (cmd : Word) (n : Nat) (s : State) : Except Fault State :=
  match txWrite 0 (Sys2Proof.encodeCommand cmd) s with
  | .error f => .error f
  | .ok s' =>
    match encodeTriples n 0 s' with
    | .error f => .error f
    | .ok s'' => .ok { s'' with txLen := 2 + 3 * n }

/-- R91 into `tx`: a narrow command's one byte. -/
def encodeNarrowOp (cmd8 : Byte) (s : State) : Except Fault State :=
  match txWrite 0 (Sys2Proof.encodeNarrow cmd8) s with
  | .error f => .error f
  | .ok s' => .ok { s' with txLen := 1 }

/-- The loop of R93 for `n` triples from triple `k` on. -/
def decodeTriples : Nat → Nat → State → Except Fault State
  | 0, _, s => .ok s
  | n + 1, k, s =>
    match rxByte (3 * k) s with
    | .error f => .error f
    | .ok hi =>
      match rxByte (3 * k + 1) s with
      | .error f => .error f
      | .ok lo =>
        match rxByte (3 * k + 2) s with
        | .error f => .error f
        | .ok c =>
          match setX k (joinBytes hi lo) (crc8Op [hi, lo] s) with
          | .error f => .error f
          | .ok s' => decodeTriples n (k + 1) (setCrcOk k (crcCheck hi lo c) s')

/-- The last lines of R93: the first bad triple ends the operation under `Strict` only. -/
def judge (policy : CrcPolicy) (bad : Option Nat) (ws : List Word) : Except OpError (List Word) :=
  match policy with
  | .acceptAlways => .ok ws
  | .strict =>
    match bad with
    | some k => .error (.decodeError (.crcMismatch k))
    | none => .ok ws

/-- R93: the state after the decoder, with the words or the error it raises on behalf of its caller. -/
def decodeWordsOp (m : Nat) (policy : CrcPolicy) (s : State) : Except Fault (State × Except OpError (List Word)) :=
  if s.rxLen < 3 * m then .ok (s, .error (.decodeError (.shortResponse s.rxLen (3 * m))))
  else
    match decodeTriples m 0 s with
    | .error f => .error f
    | .ok s' =>
      match firstBadTriple m 0 s' with
      | .error f => .error f
      | .ok bad =>
        match readWords m 0 s' with
        | .error f => .error f
        | .ok ws => .ok (s', judge policy bad ws)

/-- R94: the two bytes as one word, or the count of bytes that came when they are fewer than two; the caller names the
error kind. -/
def decodeRawWordOp (s : State) : Except Fault (State × Except Nat Word) :=
  if s.rxLen < 2 then .ok (s, .error s.rxLen)
  else
    match rxByte 0 s with
    | .error f => .error f
    | .ok hi =>
      match rxByte 1 s with
      | .error f => .error f
      | .ok lo =>
        match setX 0 (joinBytes hi lo) s with
        | .error f => .error f
        | .ok s' => .ok (s', .ok (joinBytes hi lo))

/-! ### The bus and the wait -/

/-- `BusWrite(cfg.dev_addr, bytes)` (R33): its answer; none while the transport has not answered (U7). -/
def busWrite (bytes : List Byte) (s : State) : Option (WriteAnswer × State) :=
  match s.writeAnswers with
  | [] => none
  | a :: rest => some (a, { s with writeAnswers := rest, trace := s.trace ++ [.write s.devAddr bytes a] })

/-- At most `n` bytes come back (R33, D19; log entry 4). -/
def ReadAnswer.atMost (n : Nat) : ReadAnswer → ReadAnswer
  | .ok bytes => .ok (bytes.take n)
  | .busError => .busError

/-- `BusRead(cfg.dev_addr, n)` (R33): its answer; none while the transport has not answered (U7). -/
def busRead (n : Nat) (s : State) : Option (ReadAnswer × State) :=
  match s.readAnswers with
  | [] => none
  | a :: rest =>
    some (a.atMost n, { s with readAnswers := rest, trace := s.trace ++ [.read s.devAddr n (a.atMost n)] })

/-- `Delay(T)` (R206): no effect on the block; none while the wait has not ended (U7, log entry 5). -/
def delay (w : Wait) (s : State) : Option State :=
  match s.waitsOver with
  | 0 => none
  | n + 1 => some { s with waitsOver := n, trace := s.trace ++ [.wait w] }

/-! ### Results: taking an error, returning a value, back to IDLE -/

/-- `raise Kind(info)` (R168): the result is the error and the phase is DONE; nothing is saved. -/
def raise (e : OpError) (s : State) : State := { s with result := some (.err e), phase := .done }

/-- `return v` (R7): the result is the value and the phase is DONE. -/
def answer (v : Value) (s : State) : State := { s with result := some (.ok v), phase := .done }

/-- A result is handed to the host. -/
def deliver (r : OpResult) (s : State) : State := { s with results := s.results ++ [r] }

/-- All transient state without a value, the lengths and `bitcnt` 0 (R10, R21). `crc` keeps its bits. -/
def State.blank (s : State) : State :=
  { s with
    op := none, attempt := none, x := Vector.replicate 6 none, bitcnt := 0,
    tx := [], txLen := 0, rx := [], rxLen := 0,
    result := none, crcOk := Vector.replicate 6 none, idMatch := none }

/-- The host takes the result and the block is in IDLE again (R13, R168, R169): nothing transient is left, and `crc` is
unspecified from now on (R14; a free value, log entry 8). -/
def finish (r : OpResult) (s : State) : State :=
  deliver r { s.blank with phase := .idle, crc := Config.freeCrc s.freeCount, freeCount := s.freeCount + 1 }

/-- A request is accepted in IDLE (R13, R21): the operation is latched, `attempt` is 1, nothing else transient has a value. -/
def accept (i : Instr) (s : State) : State :=
  { s.blank with op := some i, attempt := some 1, phase := .check }

/-- A request is accepted only in IDLE; in another phase it has no effect (R208). -/
def whenIdle (s : State) (m : State → Host.Outcome State Fault Refusal) : Host.Outcome State Fault Refusal :=
  match s.phase with
  | .idle => m s
  | _ => .next s

/-- The outcome of an internal operation. -/
def outcome : Except Fault State → Host.Outcome State Fault Refusal
  | .ok s => .next s
  | .error f => .fault f

/-- The numbers R165 gives the kinds of outcome, "where numbers are wanted". -/
def OpResult.number : OpResult → Nat
  | .ok _ => 0
  | .err (.busError _) => 1
  | .err (.invalidArgument _) => 2
  | .err (.decodeError _) => 3
  | .err (.operationFailed _) => 4

/-! ### Reset of the block -/

/-- The reset event (R190, R23): the block's state as after reset, a running operation ended without a result, no bus
transaction. `crc` is unspecified (log entry 21). What belongs to the other agents is not touched. -/
def resetBlock (s : State) : State :=
  { State.reset with
    crc := Config.freeCrc s.freeCount, freeCount := s.freeCount + 1,
    requests := s.requests, results := s.results, trace := s.trace,
    writeAnswers := s.writeAnswers, readAnswers := s.readAnswers, waitsOver := s.waitsOver,
    resetRequested := false }

end Sys2Proof.Machine
end

