-- ==== Sys2Proof/WellFormed.lean ====
section
/-! DEFINITION. Which instructions fit the block's buffers and registers. -/

namespace Sys2Proof

/-- A frame fits the transmit buffer (R16, `MAX_WORDS` of R5). -/
def frameFits (words : List Word) : Bool := words.length ≤ Config.maxWords

/-- The decoded words fit the word registers (R12). -/
def wordsFit (m : Nat) : Bool := m ≤ Config.numWordRegs

/-- An instruction is well formed when its words fit the block. Every other operand is legal at every value: a physical value
or an address out of range is an ordinary operand that leads to `InvalidArgument` (R162). `exec` has a meaning for the others too (log entry 19). -/
def Instr.wf : Instr → Bool
  | .encodeFrame _ words => frameFits words
  | .decodeWords m _ => wordsFit m
  | .identify | .startContinuousMeasurement | .stopContinuousMeasurement | .readMeasurement
  | .setRhtCompensation _ _ | .setPressureCompensation _ | .singleShotTrigger | .sleep | .wake | .softReset
  | .factoryReset | .enableTestMode | .disableTestMode | .forcedRecalibration _
  | .crcBitStep | .crcByteStep _ | .crcInit | .crc8 _ | .crcWord _ | .crcCheck _ _ _
  | .encodeCommand _ | .encodeNarrow _ | .decodeRawWord | .configure _ _ => true

/-- The fourteen commands that have a wire form (R58). -/
def Instr.isCommand : Instr → Bool
  | .identify | .startContinuousMeasurement | .stopContinuousMeasurement | .readMeasurement
  | .setRhtCompensation _ _ | .setPressureCompensation _ | .singleShotTrigger | .sleep | .wake | .softReset
  | .factoryReset | .enableTestMode | .disableTestMode | .forcedRecalibration _ => true
  | .crcBitStep | .crcByteStep _ | .crcInit | .crc8 _ | .crcWord _ | .crcCheck _ _ _
  | .encodeCommand _ | .encodeNarrow _ | .encodeFrame _ _ | .decodeWords _ _ | .decodeRawWord
  | .configure _ _ => false

/-- One of the host's fifteen operations: a command or `configure` (R60, R125). -/
def Instr.IsHostOperation (i : Instr) : Prop := i.isCommand = true ∨ ∃ a p, i = .configure a p

end Sys2Proof
end

