-- ==== Sys2Proof/Machine/Codec.lean ====
section
/-! DEFINITION. The codec's operations on the block's registers and buffers (41_frame_codec.md R90 to R94), run one by one in IDLE. They
work on the buffers as they find them and write nothing but `x`, `tx`, `rx`, `crc`, `bitcnt` and `crc_ok` (R97); what they
return or raise is handed to the host (log entry 22). -/

namespace Sys2Proof.Machine

/-- `encode_command(cmd)` (R90). -/
def execEncodeCommand (cmd : Word) (s : State) : Host.Outcome State Fault Refusal :=
  whenIdle s fun t => .next (deliver (.ok (.bytes (Sys2Proof.encodeCommand cmd))) t)

/-- `encode_narrow(cmd8)` (R91). -/
def execEncodeNarrow (cmd8 : Byte) (s : State) : Host.Outcome State Fault Refusal :=
  whenIdle s fun t => .next (deliver (.ok (.bytes (Sys2Proof.encodeNarrow cmd8))) t)

/-- The words to `x[0..]`, then R92; the frame is in `tx` and is returned. -/
def encodeFrameRun (cmd : Word) (words : List Word) (s : State) : Except Fault State :=
  match loadWords words 0 s with
  | .error f => .error f
  | .ok s' =>
    match encodeFrameOp cmd words.length s' with
    | .error f => .error f
    | .ok s'' =>
      match memRead .tx 0 s''.txLen s'' with
      | .error f => .error f
      | .ok bytes => .ok (deliver (.ok (.bytes bytes)) s'')

/-- R92 for more words than `tx` can hold (R16): the same bytes are returned and the CRC unit has gone over every word, but
neither the words nor the bytes have a place in the block (D3: words may be passed in requests and results). DESIGN CHOICE
(log entry 19). -/
def encodeLongFrame (cmd : Word) (words : List Word) (s : State) : State :=
  deliver (.ok (.bytes (Sys2Proof.encodeFrame cmd words)))
    (words.foldl (fun t w => crc8Op [highByte w, lowByte w] t) s)

/-- `encode_frame(cmd, words)` (R92), for any count of words (R5, D23). -/
def execEncodeFrame (cmd : Word) (words : List Word) (s : State) : Host.Outcome State Fault Refusal :=
  whenIdle s fun t =>
    if frameFits words then outcome (encodeFrameRun cmd words t) else .next (encodeLongFrame cmd words t)

/-- R93 with its outcome handed to the host. -/
def decodeWordsRun (m : Nat) (policy : CrcPolicy) (s : State) : Except Fault State :=
  match decodeWordsOp m policy s with
  | .error f => .error f
  | .ok (s', .error e) => .ok (deliver (.err e) s')
  | .ok (s', .ok ws) => .ok (deliver (.ok (.words ws)) s')

/-- `decode_words(m, policy)` (R93). -/
def execDecodeWords (m : Nat) (policy : CrcPolicy) (s : State) : Host.Outcome State Fault Refusal :=
  whenIdle s fun t => outcome (decodeWordsRun m policy t)

/-- R94 with its outcome handed to the host; a short response is named as its one caller names it (R121, log entry 20). -/
def decodeRawWordRun (s : State) : Except Fault State :=
  match decodeRawWordOp s with
  | .error f => .error f
  | .ok (s', .error got) => .ok (deliver (.err (.operationFailed (.shortResponse got))) s')
  | .ok (s', .ok w) => .ok (deliver (.ok (.word w)) s')

/-- `decode_raw_word()` (R94). -/
def execDecodeRawWord (s : State) : Host.Outcome State Fault Refusal :=
  whenIdle s fun t => outcome (decodeRawWordRun t)

end Sys2Proof.Machine
end

