-- ==== Sys2Proof/Machine/Sequencer.lean ====
section
/-! DEFINITION. The sequencer: the phases of one command (10_state.md R13, 42_commands.md R110), one phase at a time, and the run
of an operation to its end or to a call of the environment that is not answered yet. -/

namespace Sys2Proof.Machine

/-- What one phase leads to. -/
inductive Progress where
  /-- The phase is over; the next one is in the state. -/
  | moved (s : State)
  /-- The phase goes on: the block waits for the host, for an answer of the transport, or for a wait to end. -/
  | waiting (s : State)
  /-- The phase read something that holds no value, or the like. -/
  | faulted (f : Fault)
  deriving Repr

/-- What 42_commands.md gives one command. -/
structure Command where
  /-- The command code (R58). -/
  code : CommandCode
  /-- How many payload words its frame carries (R54). -/
  payload : Nat
  /-- The argument checks (R162): the payload words, or the error of the first check that fails. -/
  check : Except OpError (List Word)
  /-- The wait after the write (R207). -/
  wait : Option Wait
  /-- The wait before another attempt (R111); `identify` alone has one. -/
  backoff : Option Wait
  /-- How many bytes its read asks (R57); 0 for a command without a response. -/
  asked : Nat
  /-- DECODE: from the received bytes to the result, or to another attempt. -/
  decode : State → Progress

/-- CHECK (R13, R162): the payload words go to `x[0..]` (R12), or the operation ends with `InvalidArgument`. -/
def checkPhase (c : Command) (s : State) : Progress :=
  match c.check with
  | .error e => .moved (raise e s)
  | .ok ws =>
    match loadWords ws 0 s with
    | .error f => .faulted f
    | .ok s' => .moved { s' with phase := .encode }

/-- ENCODE (R13): the frame goes to `tx` (R90 to R92). `crc` then keeps the CRC of the frame's last word until the next
computation, where R14 calls it unspecified: DESIGN CHOICE (log entry 33). -/
def encodePhase (c : Command) (s : State) : Progress :=
  match (match c.code with | .narrow b => encodeNarrowOp b s | .wide w => encodeFrameOp w c.payload s) with
  | .error f => .faulted f
  | .ok s' => .moved { s' with phase := .write }

/-- Where a command without a further wait goes: READ when it has a response, else DONE with `Ok(())` (R13). -/
def afterDelay (c : Command) (s : State) : State :=
  if c.asked = 0 then answer .unit s else { s with phase := .read }

/-- Where a command goes after its write: DELAY when it has a wait (R13); a command without one skips DELAY (R110, log
entry 14). -/
def afterWrite (c : Command) (s : State) : State :=
  match c.wait with
  | some _ => { s with phase := .delay }
  | none => afterDelay c s

/-- WRITE (R13): one `BusWrite` of exactly `tx[0..tx_len-1]`. -/
def writePhase (c : Command) (s : State) : Progress :=
  match memRead .tx 0 s.txLen s with
  | .error f => .faulted f
  | .ok bytes =>
    match busWrite bytes s with
    | none => .waiting s
    | some (.busError, s') => .moved (raise (.busError .write) s')
    | some (.ok, s') => .moved (afterWrite c s')

/-- DELAY (R13): the wait after the write, or the backoff of `identify`, which leads back to WRITE. -/
def delayPhase (c : Command) (s : State) : Progress :=
  match c.backoff, c.wait with
  | some w, _ =>
    match delay w s with
    | none => .waiting s
    | some s' => .moved { s' with phase := .write }
  | none, some w =>
    match delay w s with
    | none => .waiting s
    | some s' => .moved (afterDelay c s')
  | none, none => .moved (afterDelay c s)

/-- READ (R13): one `BusRead` of the bytes the command asks for, into `rx`. -/
def readPhase (c : Command) (s : State) : Progress :=
  match busRead c.asked s with
  | none => .waiting s
  | some (.busError, s') => .moved (raise (.busError .read) s')
  | some (.ok bytes, s') => .moved { rxLoad bytes s' with phase := .decode }

/-- DONE (R13): the result is presented to the host, and the block goes back to IDLE. -/
def donePhase (s : State) : Progress :=
  match s.result with
  | none => .faulted (.noValue .result)
  | some r => .moved (finish r s)

/-- One phase of a command (R13). -/
def phaseStep (c : Command) (s : State) : Progress :=
  match s.phase with
  | .idle => .waiting s
  | .check => checkPhase c s
  | .encode => encodePhase c s
  | .write => writePhase c s
  | .delay => delayPhase c s
  | .read => readPhase c s
  | .decode => c.decode s
  | .done => donePhase s

/-- Phase after phase, at most `fuel` of them, until the block is in IDLE or has to wait. -/
def runPhases (c : Command) : Nat → State → Host.Outcome State Fault Refusal
  | 0, s => .next s
  | n + 1, s =>
    match phaseStep c s with
    | .moved s' => runPhases c n s'
    | .waiting s' => .next s'
    | .faulted f => .fault f

/-- A command is requested (R9, R13, R208): accepted in IDLE and run to its end, or to a bus call without an answer or a
wait that has not ended (U7, log entry 1). -/
def request (i : Instr) (c : Command) (s : State) : Host.Outcome State Fault Refusal :=
  whenIdle s fun t => runPhases c Config.phasesPerStep (accept i t)

/-- DECODE of a command without a response: no phase leads to it (R13). -/
def noDecode (_ : State) : Progress := .faulted .strayOperation

/-- DECODE of a triple-format response (R93): the words go on to the command's own test, an error ends the operation. `crc` keeps
the CRC of the last triple until the next computation or the end of the operation: DESIGN CHOICE (log entry 33). -/
def decodeThen (m : Nat) (s : State) (k : List Word → State → Progress) : Progress :=
  match decodeWordsOp m s.crcPolicy s with
  | .error f => .faulted f
  | .ok (s', .error e) => .moved (raise e s')
  | .ok (s', .ok ws) => k ws s'

/-- A write-only command without an argument: its code and its wait, if it has one (R112, R113, R117 to R120, R122, R123). -/
def writeOnly (code : CommandCode) (wait : Option Wait) : Command where
  code := code
  payload := 0
  check := .ok []
  wait := wait
  backoff := none
  asked := 0
  decode := noDecode

end Sys2Proof.Machine
end

