-- ==== Sys2Proof/Machine/Compensation.lean ====
section
/-! DEFINITION. The commands with a payload: the two compensation commands and forced recalibration (42_commands.md R115, R116,
R124). -/

namespace Sys2Proof.Machine

/-- The checks and the payload of `set_rht_compensation` (R115, R145): temperature first (R167, D14). -/
def rhtCheck (temperature humidity : Rat) : Except OpError (List Word) :=
  if !temperatureInRange temperature then .error (.invalidArgument (.temperature temperature))
  else if !humidityInRange humidity then .error (.invalidArgument (.humidity humidity))
  else .ok [tempToRaw temperature, rhToRaw humidity]

/-- `set_rht_compensation` (R115). -/
def rhtCommand (temperature humidity : Rat) : Command where
  code := .wide 0xE000
  payload := 2
  check := rhtCheck temperature humidity
  wait := none
  backoff := none
  asked := 0
  decode := noDecode

/-- `set_rht_compensation(temperature, humidity) -> ()` (R115). -/
def execSetRhtCompensation (temperature humidity : Rat) (s : State) : Host.Outcome State Fault Refusal :=
  request (.setRhtCompensation temperature humidity) (rhtCommand temperature humidity) s

/-- The check and the payload of `set_pressure_compensation` (R116, R146). -/
def pressureCheck (pressure : Rat) : Except OpError (List Word) :=
  if !pressureInRange pressure then .error (.invalidArgument (.pressure pressure))
  else .ok [pressureToRaw pressure]

/-- `set_pressure_compensation` (R116). -/
def pressureCommand (pressure : Rat) : Command where
  code := .wide 0xE016
  payload := 1
  check := pressureCheck pressure
  wait := none
  backoff := none
  asked := 0
  decode := noDecode

/-- `set_pressure_compensation(pressure) -> ()` (R116). -/
def execSetPressureCompensation (pressure : Rat) (s : State) : Host.Outcome State Fault Refusal :=
  request (.setPressureCompensation pressure) (pressureCommand pressure) s

/-- The check and the payload of `forced_recalibration` (R124, R147): no scaling. -/
def recalibrationCheck (targetPpm : Word) : Except OpError (List Word) :=
  if !targetInRange targetPpm then .error (.invalidArgument (.targetPpm targetPpm))
  else .ok [targetPpm]

/-- DECODE of `forced_recalibration` once the word is there (R124): 0x0000 and 0xFFFF are a failed calibration. -/
def correctionWords (ws : List Word) (s : State) : Progress :=
  match ws with
  | [v] =>
    if v = 0x0000 ∨ v = 0xFFFF then .moved (raise (.operationFailed (.calibrationInvalid v)) s)
    else .moved (answer (.correction v) s)
  | _ => .faulted (.noValue (.x 0))

/-- `forced_recalibration` (R124). -/
def recalibrationCommand (targetPpm : Word) : Command where
  code := .wide 0x362F
  payload := 1
  check := recalibrationCheck targetPpm
  wait := some .frc
  backoff := none
  asked := 3
  decode := fun s => decodeThen 1 s correctionWords

/-- `forced_recalibration(target_ppm) -> CorrectionValue` (R124). -/
def execForcedRecalibration (targetPpm : Word) (s : State) : Host.Outcome State Fault Refusal :=
  request (.forcedRecalibration targetPpm) (recalibrationCommand targetPpm) s

end Sys2Proof.Machine
end

