-- ==== Sys2Proof/Machine/DeviceControl.lean ====
section
/-! DEFINITION. The commands that put the sensor into another state: sleep, wake, the two resets, test mode (42_commands.md R118 to
R123). None changes the block beyond the course of an operation (R193, R178). -/

namespace Sys2Proof.Machine

/-- `sleep` (R118). -/
def sleepCommand : Command := writeOnly (.wide 0x3650) none

/-- `sleep() -> ()` (R118). -/
def execSleep (s : State) : Host.Outcome State Fault Refusal := request .sleep sleepCommand s

/-- `wake` (R119): one byte, to `cfg.dev_addr` like every command (R31). -/
def wakeCommand : Command := writeOnly (.narrow 0x00) none

/-- `wake() -> ()` (R119). -/
def execWake (s : State) : Host.Outcome State Fault Refusal := request .wake wakeCommand s

/-- `soft_reset` (R120): one byte; it resets the sensor, not the block (R193). -/
def softResetCommand : Command := writeOnly (.narrow 0x06) none

/-- `soft_reset() -> ()` (R120). -/
def execSoftReset (s : State) : Host.Outcome State Fault Refusal := request .softReset softResetCommand s

/-- DECODE of `factory_reset` (R121, R94): short or not zero is `OperationFailed`, and the policy plays no part. -/
def factoryResetDecode (s : State) : Progress :=
  match decodeRawWordOp s with
  | .error f => .faulted f
  | .ok (s', .error got) => .moved (raise (.operationFailed (.shortResponse got)) s')
  | .ok (s', .ok w) =>
    if w = 0x0000 then .moved (answer .unit s') else .moved (raise (.operationFailed (.nonZeroAck w)) s')

/-- `factory_reset` (R121). -/
def factoryResetCommand : Command where
  code := .wide 0x3632
  payload := 0
  check := .ok []
  wait := none
  backoff := none
  asked := 2
  decode := factoryResetDecode

/-- `factory_reset() -> ()` (R121). -/
def execFactoryReset (s : State) : Host.Outcome State Fault Refusal := request .factoryReset factoryResetCommand s

/-- `enable_test_mode` (R122). -/
def enableTestModeCommand : Command := writeOnly (.wide 0x3FBC) none

/-- `enable_test_mode() -> ()` (R122). -/
def execEnableTestMode (s : State) : Host.Outcome State Fault Refusal :=
  request .enableTestMode enableTestModeCommand s

/-- `disable_test_mode` (R123). -/
def disableTestModeCommand : Command := writeOnly (.wide 0x3F3D) none

/-- `disable_test_mode() -> ()` (R123). -/
def execDisableTestMode (s : State) : Host.Outcome State Fault Refusal :=
  request .disableTestMode disableTestModeCommand s

end Sys2Proof.Machine
end

