-- ==== Sys2Proof/Machine/Measurement.lean ====
section
/-! DEFINITION. The measurement commands: identify, start, stop, read, single shot (42_commands.md R111 to R114, R117). -/

namespace Sys2Proof.Machine

/-- DECODE of `identify` once the six words are there (R111): a match or the fifth attempt returns the identity, anything
else goes to the backoff wait of another attempt. -/
def identifyWords (ws : List Word) (s : State) : Progress :=
  match ws with
  | w0 :: w1 :: _ =>
    let s' := setIdMatch (identityOf w0 w1) s
    match s'.attempt with
    | none => .faulted (.noValue .attempt)
    | some n =>
      if s'.idMatch = some true then .moved (answer (.identity (identityOf w0 w1)) s')
      else if n = Config.identAttempts then .moved (answer (.identity (identityOf w0 w1)) s')
      else .moved { s' with attempt := some (n + 1), phase := .delay }
  | _ => .faulted (.noValue (.x 0))

/-- `identify` (R111). -/
def identifyCommand : Command where
  code := .wide 0x365B
  payload := 0
  check := .ok []
  wait := none
  backoff := some .identBackoff
  asked := 18
  decode := fun s => decodeThen 6 s identifyWords

/-- `identify() -> DeviceIdentity` (R111). -/
def execIdentify (s : State) : Host.Outcome State Fault Refusal := request .identify identifyCommand s

/-- `start_continuous_measurement` (R112). -/
def startCommand : Command := writeOnly (.wide 0x218B) (some .settleCont)

/-- `start_continuous_measurement() -> ()` (R112). -/
def execStartContinuousMeasurement (s : State) : Host.Outcome State Fault Refusal :=
  request .startContinuousMeasurement startCommand s

/-- `stop_continuous_measurement` (R113). -/
def stopCommand : Command := writeOnly (.wide 0x3F86) (some .settleCont)

/-- `stop_continuous_measurement() -> ()` (R113). -/
def execStopContinuousMeasurement (s : State) : Host.Outcome State Fault Refusal :=
  request .stopContinuousMeasurement stopCommand s

/-- The sample made of the four words (R114, R148). -/
def sampleOf (co2 temp hum status : Word) : MeasurementSample where
  co2Ppm := co2
  temperatureCelsius := tempFromRaw temp
  humidityPercent := rhFromRaw hum
  status := status

/-- DECODE of `read_measurement` once the four words are there (R114). -/
def measurementWords (ws : List Word) (s : State) : Progress :=
  match ws with
  | [co2, temp, hum, status] => .moved (answer (.sample (sampleOf co2 temp hum status)) s)
  | _ => .faulted (.noValue (.x 0))

/-- `read_measurement` (R114). -/
def readMeasurementCommand : Command where
  code := .wide 0xEC05
  payload := 0
  check := .ok []
  wait := none
  backoff := none
  asked := 12
  decode := fun s => decodeThen 4 s measurementWords

/-- `read_measurement() -> MeasurementSample` (R114). -/
def execReadMeasurement (s : State) : Host.Outcome State Fault Refusal :=
  request .readMeasurement readMeasurementCommand s

/-- `single_shot_trigger` (R117): no wait in the block. -/
def singleShotCommand : Command := writeOnly (.wide 0x219D) none

/-- `single_shot_trigger() -> ()` (R117). -/
def execSingleShotTrigger (s : State) : Host.Outcome State Fault Refusal :=
  request .singleShotTrigger singleShotCommand s

end Sys2Proof.Machine
end

