-- ==== Sys2Proof/Machine/Commands.lean ====
section
/-! DEFINITION. Which command a latched operation is (10_state.md R13: `op`), and how a running operation goes on once the environment
has answered; what a request names (30_encoding.md R60). -/

namespace Sys2Proof.Machine

/-- The command of an operation; none for an operation that is no command. -/
def commandOf : Instr → Option Command
  | .identify => some identifyCommand
  | .startContinuousMeasurement => some startCommand
  | .stopContinuousMeasurement => some stopCommand
  | .readMeasurement => some readMeasurementCommand
  | .setRhtCompensation t h => some (rhtCommand t h)
  | .setPressureCompensation p => some (pressureCommand p)
  | .singleShotTrigger => some singleShotCommand
  | .sleep => some sleepCommand
  | .wake => some wakeCommand
  | .softReset => some softResetCommand
  | .factoryReset => some factoryResetCommand
  | .enableTestMode => some enableTestModeCommand
  | .disableTestMode => some disableTestModeCommand
  | .forcedRecalibration g => some (recalibrationCommand g)
  | .crcBitStep | .crcByteStep _ | .crcInit | .crc8 _ | .crcWord _ | .crcCheck _ _ _
  | .encodeCommand _ | .encodeNarrow _ | .encodeFrame _ _ | .decodeWords _ _ | .decodeRawWord
  | .configure _ _ => none

/-- A running operation goes on from the phase it is in (R13, R40). -/
def resume (s : State) : Host.Outcome State Fault Refusal :=
  match s.op with
  | none => .fault (.noValue .op)
  | some i =>
    match commandOf i with
    | none => .fault .strayOperation
    | some c => runPhases c Config.phasesPerStep s

/-- The operation a request names. -/
def Request.instr : Request → Except DecodeReject Instr
  | .call i => .ok i
  | .frame tag bytes =>
    match decode tag bytes with
    | .error e => .error e
    | .ok (i, _) => .ok i

end Sys2Proof.Machine
end

