-- ==== Sys2Proof/Machine/Configure.lean ====
section
/-! DEFINITION. Configuration (42_commands.md R125). It runs wholly in IDLE, the one phase in which the configuration registers may be
written (R11, R17; log entry 16), and makes no bus transaction. -/

namespace Sys2Proof.Machine

/-- `configure(dev_addr, crc_policy) -> ()` (R125): an address other than 0x64 and 0x65 is `InvalidArgument` and both registers
keep their values. -/
def execConfigure (a : DevAddr) (policy : CrcPolicy) (s : State) : Host.Outcome State Fault Refusal :=
  whenIdle s fun t =>
    if devAddrLegal a then .next (finish (.ok .unit) { t with devAddr := a, crcPolicy := policy })
    else .next (finish (.err (.invalidArgument (.devAddr a))) t)

end Sys2Proof.Machine
end

