-- ==== Sys2Proof/Machine/CrcUnit.lean ====
section
/-! DEFINITION. The CRC unit's operations on the block's registers (40_crc8.md R70 to R75), run one by one in IDLE as in Program 4 of
95_test_vectors.md. An operation whose pseudocode returns a value hands it to the host (log entry 22). -/

namespace Sys2Proof.Machine

/-- `crc_bit_step` (R70). Its precondition is `bitcnt > 0` (log entry 18). -/
def execCrcBitStep (s : State) : Host.Outcome State Fault Refusal :=
  whenIdle s fun t => if t.bitcnt = 0 then .fault .crcStepNotOwed else .next (crcBitOp t)

/-- `crc_byte_step(b)` (R71). Its precondition is `bitcnt = 0` (log entry 18). -/
def execCrcByteStep (b : Byte) (s : State) : Host.Outcome State Fault Refusal :=
  whenIdle s fun t => if t.bitcnt = 0 then .next (crcByteOp b t) else .fault .crcByteNotTaken

/-- `crc_init` (R72). -/
def execCrcInit (s : State) : Host.Outcome State Fault Refusal := whenIdle s fun t => .next (crcInitOp t)

/-- `crc8(bytes)` (R73). -/
def execCrc8 (bytes : List Byte) (s : State) : Host.Outcome State Fault Refusal :=
  whenIdle s fun t =>
    let t' := crc8Op bytes t
    .next (deliver (.ok (.byte t'.crc)) t')

/-- `crc_word(w)` (R74). -/
def execCrcWord (w : Word) (s : State) : Host.Outcome State Fault Refusal :=
  whenIdle s fun t =>
    let t' := crc8Op [highByte w, lowByte w] t
    .next (deliver (.ok (.byte t'.crc)) t')

/-- `crc_check(hi, lo, c)` (R75). -/
def execCrcCheck (hi lo c : Byte) (s : State) : Host.Outcome State Fault Refusal :=
  whenIdle s fun t =>
    let t' := crc8Op [hi, lo] t
    .next (deliver (.ok (.bit (t'.crc == c))) t')

end Sys2Proof.Machine
end

