-- ==== Sys2Proof/Machine/Dispatch.lean ====
section
/-! DEFINITION. One arm for each operation. -/

namespace Sys2Proof.Machine

def exec (i : Instr) (s : State) : Host.Outcome State Fault Refusal :=
  match i with
  | .identify => Sys2Proof.Machine.execIdentify s
  | .startContinuousMeasurement => Sys2Proof.Machine.execStartContinuousMeasurement s
  | .stopContinuousMeasurement => Sys2Proof.Machine.execStopContinuousMeasurement s
  | .readMeasurement => Sys2Proof.Machine.execReadMeasurement s
  | .setRhtCompensation t h => Sys2Proof.Machine.execSetRhtCompensation t h s
  | .setPressureCompensation p => Sys2Proof.Machine.execSetPressureCompensation p s
  | .singleShotTrigger => Sys2Proof.Machine.execSingleShotTrigger s
  | .sleep => Sys2Proof.Machine.execSleep s
  | .wake => Sys2Proof.Machine.execWake s
  | .softReset => Sys2Proof.Machine.execSoftReset s
  | .factoryReset => Sys2Proof.Machine.execFactoryReset s
  | .enableTestMode => Sys2Proof.Machine.execEnableTestMode s
  | .disableTestMode => Sys2Proof.Machine.execDisableTestMode s
  | .forcedRecalibration g => Sys2Proof.Machine.execForcedRecalibration g s
  | .crcBitStep => Sys2Proof.Machine.execCrcBitStep s
  | .crcByteStep b => Sys2Proof.Machine.execCrcByteStep b s
  | .crcInit => Sys2Proof.Machine.execCrcInit s
  | .crc8 bytes => Sys2Proof.Machine.execCrc8 bytes s
  | .crcWord w => Sys2Proof.Machine.execCrcWord w s
  | .crcCheck hi lo c => Sys2Proof.Machine.execCrcCheck hi lo c s
  | .encodeCommand cmd => Sys2Proof.Machine.execEncodeCommand cmd s
  | .encodeNarrow cmd8 => Sys2Proof.Machine.execEncodeNarrow cmd8 s
  | .encodeFrame cmd words => Sys2Proof.Machine.execEncodeFrame cmd words s
  | .decodeWords m policy => Sys2Proof.Machine.execDecodeWords m policy s
  | .decodeRawWord => Sys2Proof.Machine.execDecodeRawWord s
  | .configure a policy => Sys2Proof.Machine.execConfigure a policy s

end Sys2Proof.Machine
end

