-- ==== Sys2Proof/Machine/Step.lean ====
section
/-! DEFINITION. One step of the machine: the reset event, a running operation that goes on, or the next request (10_state.md R13,
20_memory.md R40, 70_reset_and_hazards.md R190, R208). -/

namespace Sys2Proof.Machine

/-- One step. A reset that is due happens first (R190). A running operation goes on (R40: one operation at a time). In IDLE the
next request is taken and run; without one the block waits (R13). -/
def step (s : State) : Host.Outcome State Fault Refusal :=
  if s.resetRequested then .next (resetBlock s)
  else
    match s.phase with
    | .idle =>
      match s.requests with
      | [] => .next s
      | r :: rest =>
        match Request.instr r with
        | .error e => .refused (.undecodable e)
        | .ok i => exec i { s with requests := rest }
    | _ => resume s

/-- The state with the instruction of a table row as the next request (log entry 27): the block is in IDLE, no reset is due,
and the frame stands before every other request. A row without bits is no request. -/
def State.withFetchWord (s : State) (nbits w : Nat) : State :=
  match tableFrame nbits w with
  | none => s
  | some (tag, bytes) => { s with phase := .idle, resetRequested := false, requests := .frame tag bytes :: s.requests }

end Sys2Proof.Machine
end

