-- ==== Sys2Proof/Safety.lean ====
section
/-! DEFINITION. The terms claims are stated in: what a response says as a function of its bytes (41_frame_codec.md R93), the phase order
(10_state.md R13), the errors of each operation (60_exceptions.md R160), and the invariant of the machine. -/

namespace Sys2Proof.Machine

/-! ### What a response says -/

/-- Word `k` of a triple-format response (R56): bytes `3k` and `3k+1`, high byte first. -/
def wordAt (bs : List Byte) (k : Nat) : Word := joinBytes (bs.getD (3 * k) 0) (bs.getD (3 * k + 1) 0)

/-- Whether triple `k` of a response passes the check (R75). -/
def tripleOkAt (bs : List Byte) (k : Nat) : Bool :=
  crcCheck (bs.getD (3 * k) 0) (bs.getD (3 * k + 1) 0) (bs.getD (3 * k + 2) 0)

/-- The least of the first `m` triples that fails the check. -/
def firstBadAt (bs : List Byte) (m : Nat) : Option Nat := (List.range m).find? fun k => !tripleOkAt bs k

/-- R93 as a function of the bytes received: the words, or the error. -/
def decodeOutcome (m : Nat) (policy : CrcPolicy) (bs : List Byte) : Except OpError (List Word) :=
  if bs.length < 3 * m then .error (.decodeError (.shortResponse bs.length (3 * m)))
  else
    match policy with
    | .acceptAlways => .ok ((List.range m).map (wordAt bs))
    | .strict =>
      match firstBadAt bs m with
      | some k => .error (.decodeError (.crcMismatch k))
      | none => .ok ((List.range m).map (wordAt bs))

/-- The receive buffer holds exactly these bytes. -/
def State.Received (s : State) (bs : List Byte) : Prop := s.rxLen = bs.length ∧ ∀ k, s.rx.read k = bs[k]?

/-! ### What the environment has done -/

/-- The state with one write to the configured address made and answered, the coming answers being `rest`. -/
def State.wrote (s : State) (bytes : List Byte) (a : WriteAnswer) (rest : List WriteAnswer) : State :=
  { s with writeAnswers := rest, trace := s.trace ++ [.write s.devAddr bytes a] }

/-- The state with one read of `n` bytes from the configured address made and answered, the coming answers being `rest`. -/
def State.heard (s : State) (n : Nat) (a : ReadAnswer) (rest : List ReadAnswer) : State :=
  { s with readAnswers := rest, trace := s.trace ++ [.read s.devAddr n a] }

/-- The state with one wait over, `k` more waits being allowed to end. -/
def State.waited (s : State) (w : Wait) (k : Nat) : State :=
  { s with waitsOver := k, trace := s.trace ++ [.wait w] }

/-- The state with more to come from the environment: these answers after those that are due, and `k` more waits allowed to
end. -/
def State.later (s : State) (ws : List WriteAnswer) (rs : List ReadAnswer) (k : Nat) : State :=
  { s with writeAnswers := s.writeAnswers ++ ws, readAnswers := s.readAnswers ++ rs, waitsOver := s.waitsOver + k }

/-! ### The phase order -/

/-- Where a command goes once it has nothing to wait for: READ when it has a response, else DONE (R13, DELAY's row). -/
def Command.afterWait (c : Command) : Phase := if c.asked = 0 then .done else .read

/-- The "next phase" column of R13's table for one command. WRITE leads to DELAY only where the command has a wait, and DELAY
to READ only where it has a response (R110's skips). That `identify` keeps its backoff in DELAY is log entry 14. -/
def Phase.leadsTo (c : Command) : Phase → Phase → Bool
  | .idle, q => q == .check
  | .check, q => q == .encode || q == .done
  | .encode, q => q == .write
  | .write, q => q == .done || q == (if c.wait.isSome then .delay else c.afterWait)
  | .delay, q => q == (if c.backoff.isSome then .write else c.afterWait)
  | .read, q => q == .decode || q == .done
  | .decode, q => q == .done || c.backoff.isSome && q == .delay
  | .done, q => q == .idle

/-! ### Errors -/

/-- The errors of the decoder of `m` triples (R93, R163): a short response, and under `Strict` alone a failing triple. -/
def OpError.fromDecoder (m : Nat) (policy : CrcPolicy) : OpError → Bool
  | .decodeError (.shortResponse got need) => need == 3 * m && decide (got < need)
  | .decodeError (.crcMismatch k) => policy == .strict && decide (k < m)
  | .busError _ | .invalidArgument _ | .operationFailed _ => false

/-- The table of R160: the errors one of the host's operations can end with, with their causes and, where the cause is a value
the device sent, with its value (R164). What an argument has to be for `InvalidArgument` is R162's. No other operation
stands in the table. -/
def OpError.tabledFor (policy : CrcPolicy) (e : OpError) : Instr → Bool
  | .identify =>
    match e with
    | .busError _ => true
    | _ => e.fromDecoder 6 policy
  | .readMeasurement =>
    match e with
    | .busError _ => true
    | _ => e.fromDecoder 4 policy
  | .startContinuousMeasurement | .stopContinuousMeasurement | .singleShotTrigger | .sleep | .wake | .softReset
  | .enableTestMode | .disableTestMode =>
    match e with
    | .busError .write => true
    | _ => false
  | .setRhtCompensation _ _ =>
    match e with
    | .busError .write | .invalidArgument (.temperature _) | .invalidArgument (.humidity _) => true
    | _ => false
  | .setPressureCompensation _ =>
    match e with
    | .busError .write | .invalidArgument (.pressure _) => true
    | _ => false
  | .factoryReset =>
    match e with
    | .busError _ => true
    | .operationFailed (.shortResponse got) => decide (got < 2)
    | .operationFailed (.nonZeroAck w) => w != 0x0000
    | _ => false
  | .forcedRecalibration _ =>
    match e with
    | .busError _ | .invalidArgument (.targetPpm _) => true
    | .operationFailed (.calibrationInvalid w) => w == 0x0000 || w == 0xFFFF
    | _ => e.fromDecoder 1 policy
  | .configure _ _ =>
    match e with
    | .invalidArgument (.devAddr _) => true
    | _ => false
  | .crcBitStep | .crcByteStep _ | .crcInit | .crc8 _ | .crcWord _ | .crcCheck _ _ _
  | .encodeCommand _ | .encodeNarrow _ | .encodeFrame _ _ | .decodeWords _ _ | .decodeRawWord => false

/-- What an operation of the codec raises on behalf of its caller when it is run by itself: `decode_words` the errors of R93
under the policy it is given, `decode_raw_word` the short response under the name its one caller gives it (R121, log entry 20). -/
def OpError.raisedBy (e : OpError) : Instr → Bool
  | .decodeWords m policy => e.fromDecoder m policy
  | .decodeRawWord =>
    match e with
    | .operationFailed (.shortResponse got) => decide (got < 2)
    | _ => false
  | .identify | .startContinuousMeasurement | .stopContinuousMeasurement | .readMeasurement
  | .setRhtCompensation _ _ | .setPressureCompensation _ | .singleShotTrigger | .sleep | .wake | .softReset
  | .factoryReset | .enableTestMode | .disableTestMode | .forcedRecalibration _
  | .crcBitStep | .crcByteStep _ | .crcInit | .crc8 _ | .crcWord _ | .crcCheck _ _ _
  | .encodeCommand _ | .encodeNarrow _ | .encodeFrame _ _ | .configure _ _ => false

/-! ### The bus -/

/-- A transaction goes to this address; a wait is no transaction. -/
def Event.to (a : DevAddr) : Event → Bool
  | .write b _ _ => b == a
  | .read b _ _ => b == a
  | .wait _ => true

/-- The transport answered the transaction with `Ok`; a wait is no transaction. -/
def Event.answeredOk : Event → Bool
  | .write _ _ .ok => true
  | .write _ _ .busError => false
  | .read _ _ (.ok _) => true
  | .read _ _ .busError => false
  | .wait _ => true

/-! ### The invariant -/

/-- What holds while a command runs, besides what holds always: the frame in `tx` is the command's own from WRITE on, and
every value the coming phase reads is there (R13, R22); in DONE the result is there, and an error is one the operation can
end with (R160). -/
structure Running (i : Instr) (c : Command) (s : State) : Prop where
  attempt : ∃ n, s.attempt = some n ∧ 1 ≤ n ∧ n ≤ Config.identAttempts
  payload : s.phase = .encode → readWords c.payload 0 s = .ok i.payload
  frame : s.phase = .write ∨ s.phase = .delay ∨ s.phase = .read ∨ s.phase = .decode →
    ∃ tag bytes, encode i = some (tag, bytes) ∧ memRead .tx 0 s.txLen s = .ok bytes
  response : s.phase = .read ∨ s.phase = .decode → c.asked ≠ 0
  result : s.phase = .done → ∃ r, s.result = some r ∧ ∀ e, r = .err e → e.tabledFor s.crcPolicy i = true

/-- The invariant of the machine: a legal address (R11), both byte spaces in canonical form and inside their capacity, with a
value in every byte below the current length and, in `rx`, in no other (R16, R30), `bitcnt` in range (R15), and a running
phase only with a running command (R13). -/
structure Inv (s : State) : Prop where
  legalAddr : devAddrLegal s.devAddr = true
  txWf : s.tx.wf
  rxWf : s.rx.wf
  bitcnt : s.bitcnt ≤ 8
  txLen : s.txLen ≤ Config.txCap
  rxLen : s.rxLen ≤ Config.rxCap
  txFilled : ∀ k, k < s.txLen → (s.tx.read k).isSome
  txInside : ∀ k, Config.txCap ≤ k → s.tx.read k = none
  rxFilled : ∀ k, (s.rx.read k).isSome ↔ k < s.rxLen
  running : s.phase ≠ .idle → ∃ i c, s.op = some i ∧ commandOf i = some c ∧ Running i c s

/-- The next request is one of the host's operations (R60, R125). -/
def State.NextIsHostOperation (s : State) : Prop :=
  ∀ r rest, s.requests = r :: rest → ∃ i, Request.instr r = .ok i ∧ i.IsHostOperation

end Sys2Proof.Machine
end

