-- ==== Sys2Proof/Certificates/Slice0/Obligations.lean ====
section
/-! DEFINITION. What is claimed of the block, rule by rule of spec/. -/

namespace Sys2Proof.Claims

open Sys2Proof.Machine

/-- The write-only commands without an argument and without a wait, each with the bytes it sends (R117 to R120, R122, R123). -/
def plainWrites : List (Instr × List Byte) :=
  [(.singleShotTrigger, [0x21, 0x9D]), (.sleep, [0x36, 0x50]), (.wake, [0x00]), (.softReset, [0x06]),
    (.enableTestMode, [0x3F, 0xBC]), (.disableTestMode, [0x3F, 0x3D])]

/-- The two write-only commands with a settle wait, each with the bytes it sends (R112, R113). -/
def settledWrites : List (Instr × List Byte) :=
  [(.startContinuousMeasurement, [0x21, 0x8B]), (.stopContinuousMeasurement, [0x3F, 0x86])]

/-- The twelve wide codes of R58. -/
def wideCodes : List Word :=
  [0x365B, 0x218B, 0x3F86, 0xEC05, 0xE000, 0xE016, 0x219D, 0x3650, 0x3632, 0x3FBC, 0x3F3D, 0x362F]

/-- The bytes of `identify`'s write (R111). -/
def identifyBytes : List Byte := [0x36, 0x5B]

/-- `rx[0] ++ rx[1] ++ rx[3] ++ rx[4]`, `rx[0]` in bits 31 to 24 (R149). -/
def identityIn (bs : List Byte) : BitVec 32 :=
  (bs.getD 0 0 ++ bs.getD 1 0 ++ bs.getD 3 0 ++ bs.getD 4 0 : BitVec 32)

/-- Every one of the first `m` triples passes its check, or the policy does not ask for it (R93). -/
def Accepted (policy : CrcPolicy) (bs : List Byte) (m : Nat) : Prop :=
  policy = .acceptAlways ∨ ∀ k, k < m → tripleOkAt bs k = true

/-- Triple `k` is the least of the first `m` that fails its check, and the policy is `Strict` (R93). -/
def RejectedAt (policy : CrcPolicy) (bs : List Byte) (m k : Nat) : Prop :=
  policy = .strict ∧ k < m ∧ tripleOkAt bs k = false ∧ ∀ j, j < k → tripleOkAt bs j = true

/-- A complete identify response that is accepted and does not match (R111). -/
def Mismatch (policy : CrcPolicy) (bs : List Byte) : Prop :=
  bs.length = 18 ∧ Accepted policy bs 6 ∧ identityIn bs ≠ Config.expectedId

/-- The events of the attempts that got these mismatching responses, each with the wait after it (R111). -/
def failedAttempts (a : DevAddr) (ms : List (List Byte)) : List Event :=
  ms.flatMap fun bs => [.write a identifyBytes .ok, .read a 18 (.ok bs), .wait .identBackoff]

/-- The state after those attempts: the transactions made, `ws`, `rs` and `k` left of the coming answers and waits. -/
def afterAttempts (s : State) (ms : List (List Byte)) (ws : List WriteAnswer) (rs : List ReadAnswer) (k : Nat) : State :=
  { s with trace := s.trace ++ failedAttempts s.devAddr ms, writeAnswers := ws, readAnswers := rs, waitsOver := k }

/-- The environment answers the attempts that got `ms`, and then has `ws`, `rs` and `k` for what comes. -/
def Answers (s : State) (ms : List (List Byte)) (ws : List WriteAnswer) (rs : List ReadAnswer) (k : Nat) : Prop :=
  s.writeAnswers = List.replicate ms.length .ok ++ ws ∧ s.readAnswers = ms.map ReadAnswer.ok ++ rs ∧
    s.waitsOver = ms.length + k

/-- The argument is one of the instruction's, with its value, and it fails the check of R145, R146, R147 or R125. -/
def Refused : Instr → Argument → Prop
  | .setRhtCompensation t _, .temperature v => v = t ∧ ¬ (10 ≤ t ∧ t ≤ 40)
  | .setRhtCompensation _ h, .humidity v => v = h ∧ ¬ (20 ≤ h ∧ h ≤ 80)
  | .setPressureCompensation p, .pressure v => v = p ∧ ¬ (400 ≤ p ∧ p ≤ 1100)
  | .forcedRecalibration g, .targetPpm v => v = g ∧ 32000 < g.toNat
  | .configure a _, .devAddr v => v = a ∧ a ≠ 0x64 ∧ a ≠ 0x65
  | _, _ => False

/-- From `s` to `t` the running operation has not failed: where it has ended, or stands in DONE, it is with `Ok`. -/
def NotFailed (s t : State) : Prop :=
  (t.phase = .idle → ∃ v, t.results = s.results ++ [.ok v]) ∧ (t.phase = .done → ∃ v, t.result = some (.ok v))

end Sys2Proof.Claims

open Sys2Proof Sys2Proof.Machine Sys2Proof.Claims

/-! ### The CRC unit -/

/-- R70: the top bit is tested before the shift, the register is shifted left and XORed with 0x31 when that bit was 1, one step
fewer is owed, and nothing else changes. -/
def Obligations.CrcBitStepShiftsThenFeedsBack : Prop :=
  ∀ s : State, s.phase = .idle → 0 < s.bitcnt →
    exec .crcBitStep s =
      .next { s with crc := if s.crc.getLsbD 7 then (s.crc <<< 1) ^^^ 0x31 else s.crc <<< 1, bitcnt := s.bitcnt - 1 }

/-- The preconditions of R70 and R71: a bit step that is not owed and a byte while steps are owed stop by name. That they stop
is the model's choice (log entry 18). -/
def Obligations.CrcStepsStopOutsideTheirPreconditions : Prop :=
  ∀ (s : State) (b : Byte), s.phase = .idle →
    (s.bitcnt = 0 → exec .crcBitStep s = .fault .crcStepNotOwed) ∧
    (s.bitcnt ≠ 0 → exec (.crcByteStep b) s = .fault .crcByteNotTaken)

/-- R71: the whole byte is XORed in first, then exactly eight bit steps follow, and nothing else changes. -/
def Obligations.CrcByteStepAbsorbsThenStepsEightTimes : Prop :=
  ∀ (s : State) (b : Byte), s.phase = .idle → s.bitcnt = 0 →
    exec (.crcByteStep b) s = .next { s with crc := crcBitStep^[8] (s.crc ^^^ b), bitcnt := 0 }

/-- R72: the register is 0xFF and no step is owed, whatever was there, and nothing else changes. -/
def Obligations.CrcInitLoadsOnes : Prop :=
  ∀ s : State, s.phase = .idle → exec .crcInit s = .next { s with crc := 0xFF, bitcnt := 0 }

/-- R73: from 0xFF, each byte in list order is absorbed and stepped eight times; the register as it stands is the value, and
it is handed over. Nothing else changes. -/
def Obligations.Crc8FoldsByteStepsFromOnes : Prop :=
  ∀ (s : State) (bytes : List Byte), s.phase = .idle →
    exec (.crc8 bytes) s =
      .next { s with
        crc := bytes.foldl (fun r b => crcBitStep^[8] (r ^^^ b)) 0xFF, bitcnt := 0,
        results := s.results ++ [.ok (.byte (bytes.foldl (fun r b => crcBitStep^[8] (r ^^^ b)) 0xFF))] }

/-- R74 and R75: the CRC of a word is that of its high byte and then its low byte; the check compares it with the received
byte. Besides the unit's registers and the value handed over nothing changes. -/
def Obligations.CrcWordAndCheckUseHighByteFirst : Prop :=
  (∀ (s : State) (w : Word), s.phase = .idle →
    exec (.crcWord w) s =
      .next { s with
        crc := crc8 [w.extractLsb' 8 8, w.extractLsb' 0 8], bitcnt := 0,
        results := s.results ++ [.ok (.byte (crc8 [w.extractLsb' 8 8, w.extractLsb' 0 8]))] }) ∧
  ∀ (s : State) (hi lo c : Byte), s.phase = .idle →
    exec (.crcCheck hi lo c) s =
      .next { s with
        crc := crc8 [hi, lo], bitcnt := 0,
        results := s.results ++ [.ok (.bit (decide (crc8 [hi, lo] = c)))] }

/-- From every register value the byte step is a one-to-one map of the byte absorbed, and it depends on the XOR of the two
alone (the derived parts of R71 and R77). -/
def Obligations.CrcByteStepIsOneToOne : Prop :=
  ∀ r : Byte, Function.Bijective (crcByteStep r) ∧ ∀ b, crcByteStep r b = crcByteStep 0 (r ^^^ b)

/-- The serial unit agrees with the byte unit on every byte list (R76, derived there). -/
def Obligations.SerialUnitEqualsByteUnit : Prop := ∀ bytes : List Byte, crcSerial bytes = crc8 bytes

/-- The residue of three bytes is zero exactly when the third is the CRC of the first two (R77, derived there). -/
def Obligations.ZeroResidueExactlyWhenCheckPasses : Prop :=
  ∀ hi lo c : Byte, crc8 [hi, lo, c] = 0x00 ↔ crcCheck hi lo c = true

/-- Each of the 256 CRC values belongs to exactly 256 of the 65536 words (R79, derived there). -/
def Obligations.EveryCrcValueHas256Words : Prop :=
  ∀ c : Byte, ((Finset.range 65536).filter fun n => crcWord (BitVec.ofNat 16 n) = c).card = 256

/-- The CRC is affine over XOR (R79, derived there). -/
def Obligations.CrcIsAffineOverXor : Prop :=
  ∀ a b : List Byte, a.length = b.length →
    crc8 (List.zipWith (fun x y => x ^^^ y) a b) = crc8 a ^^^ crc8 b ^^^ crc8 (List.replicate a.length 0)

/-! ### The codec -/

/-- R90 and R91: the big-endian split of a command word, and the single byte of a narrow code, are handed over; nothing else
changes. -/
def Obligations.CommandBytesHighByteFirst : Prop :=
  (∀ (s : State) (cmd : Word), s.phase = .idle →
    exec (.encodeCommand cmd) s =
      .next { s with results := s.results ++ [.ok (.bytes [cmd.extractLsb' 8 8, cmd.extractLsb' 0 8])] }) ∧
  ∀ (s : State) (c : Byte), s.phase = .idle →
    exec (.encodeNarrow c) s = .next { s with results := s.results ++ [.ok (.bytes [c])] }

/-- R92: the command bytes stand at `tx` 0 and 1, the triple of word `k` at `2+3k` to `4+3k`, `tx_len` is `2+3n`, and exactly
those bytes are returned. Every byte of `tx` outside them reads as before, `x[0..n-1]` hold the words and the other registers
are as before, and besides the CRC unit nothing else changes. Two words is what `tx` can hold (R16). -/
def Obligations.EncodeFrameWritesTriples : Prop :=
  ∀ (s : State) (cmd : Word) (ws : List Word), s.phase = .idle → ws.length ≤ 2 →
    ∃ t, exec (.encodeFrame cmd ws) s = .next t ∧
      t = { s with x := t.x, crc := t.crc, bitcnt := t.bitcnt, tx := t.tx, txLen := 2 + 3 * ws.length,
                   results := s.results ++ [.ok (.bytes (encodeFrame cmd ws))] } ∧
      t.tx.read 0 = some (cmd.extractLsb' 8 8) ∧ t.tx.read 1 = some (cmd.extractLsb' 0 8) ∧
      (∀ k w, ws[k]? = some w →
        t.tx.read (2 + 3 * k) = some (w.extractLsb' 8 8) ∧ t.tx.read (3 + 3 * k) = some (w.extractLsb' 0 8) ∧
        t.tx.read (4 + 3 * k) = some (crc8 [w.extractLsb' 8 8, w.extractLsb' 0 8])) ∧
      (∀ a, 2 + 3 * ws.length ≤ a → t.tx.read a = s.tx.read a) ∧
      memRead .tx 0 t.txLen t = .ok (encodeFrame cmd ws) ∧
      ∀ k, t.x[k]? = if k < ws.length then some (ws[k]?) else s.x[k]?

/-- More than two words do not fit `tx` (R16): the frame of R92 is returned all the same, of any length, the CRC unit ends with
the CRC of the last word, and nothing else changes, no byte of `tx` among it. That `x` and `tx` then stay as they are is the
model's choice (log entry 19). -/
def Obligations.LongFrameIsReturnedUnstored : Prop :=
  ∀ (s : State) (cmd : Word) (ws : List Word) (w : Word), s.phase = .idle → 2 ≤ ws.length →
    exec (.encodeFrame cmd (ws ++ [w])) s =
      .next { s with crc := crc8 [w.extractLsb' 8 8, w.extractLsb' 0 8], bitcnt := 0,
                     results := s.results ++ [.ok (.bytes (encodeFrame cmd (ws ++ [w])))] }

/-- The length of a frame, and its CRC bytes (R95, derived there). -/
def Obligations.FrameLengthAndCrcBytes : Prop :=
  ∀ (cmd : Word) (ws : List Word),
    (encodeFrame cmd ws).length = 2 + 3 * ws.length ∧
    ∀ k hi lo, k < ws.length → (encodeFrame cmd ws)[2 + 3 * k]? = some hi → (encodeFrame cmd ws)[3 + 3 * k]? = some lo →
      (encodeFrame cmd ws)[4 + 3 * k]? = some (crc8 [hi, lo])

/-- R93: a response shorter than `3m` is `DecodeError(ShortResponse)` under both policies. Otherwise `x[k]` and `crc_ok[k]` get
the word and the check of triple `k` for every `k < m`; the words are returned under `AcceptAlways` whatever the CRC bytes
are, and under `Strict` when every check passes; under `Strict` the least failing triple is `DecodeError(CrcMismatch)`.
Besides the CRC unit nothing else changes, no byte of `tx` or `rx` among it. That a short response writes no `crc_ok`, not even
for a triple that came whole, is the model's reading (log entry 29, DEDUCED: R18 speaks of every complete triple). More than
six triples, which `rx` cannot hold, are left out (log entry 24). -/
def Obligations.DecodeWordsFollowsPolicy : Prop :=
  ∀ (s : State) (m : Nat) (policy : CrcPolicy) (bs : List Byte), s.phase = .idle → s.Received bs → m ≤ 6 →
    (bs.length < 3 * m →
      exec (.decodeWords m policy) s =
        .next { s with results := s.results ++ [.err (.decodeError (.shortResponse bs.length (3 * m)))] }) ∧
    (3 * m ≤ bs.length →
      ∃ t, exec (.decodeWords m policy) s = .next t ∧
        t = { s with x := t.x, crcOk := t.crcOk, crc := t.crc, bitcnt := t.bitcnt, results := t.results } ∧
        (∀ k, t.x[k]? = if k < m then some (some (wordAt bs k)) else s.x[k]?) ∧
        (∀ k, t.crcOk[k]? = if k < m then some (some (tripleOkAt bs k)) else s.crcOk[k]?) ∧
        (Accepted policy bs m → t.results = s.results ++ [.ok (.words ((List.range m).map (wordAt bs)))]) ∧
        ∀ k, RejectedAt policy bs m k → t.results = s.results ++ [.err (.decodeError (.crcMismatch k))])

/-- Decoding the triples of an encoded frame gives the words back under both policies, with every check passed (R96, derived
there). -/
def Obligations.DecodingAnEncodedFrameGivesTheWords : Prop :=
  ∀ (s : State) (cmd : Word) (ws : List Word) (policy : CrcPolicy), s.phase = .idle → ws.length ≤ 6 →
    s.Received ((encodeFrame cmd ws).drop 2) →
    ∃ t, exec (.decodeWords ws.length policy) s = .next t ∧
      t.results = s.results ++ [.ok (.words ws)] ∧
      ∀ k, k < ws.length → t.x[k]? = some (ws[k]?) ∧ t.crcOk[k]? = some (some true)

/-- Two bytes of `rx` are one word, high byte first, into `x[0]` and returned (R94); a shorter response is handed over as
`OperationFailed(ShortResponse)`, the name its one caller gives it, which is the model's choice (log entry 20). Nothing
else changes. -/
def Obligations.DecodeRawWordTakesTwoBytes : Prop :=
  ∀ (s : State) (bs : List Byte), s.phase = .idle → s.Received bs →
    (bs.length < 2 →
      exec .decodeRawWord s =
        .next { s with results := s.results ++ [.err (.operationFailed (.shortResponse bs.length))] }) ∧
    ∀ hi lo rest, bs = hi :: lo :: rest →
      exec .decodeRawWord s =
        .next { s with
          x := s.x.setIfInBounds 0 (some (hi ++ lo : Word)), results := s.results ++ [.ok (.word (hi ++ lo))] }

/-! ### Encoding -/

/-- Decoding the encoded frame of a command gives the command back, with what follows the frame left over, for every command
and every operand a frame can carry. The block of the spec has no decoder of command frames (R59): that a request can be given
as a frame, that a physical operand is the exact value of its raw code, and that bytes are left over is the model's choice
(log entry 3, DESIGN CHOICE). -/
def Obligations.DecodeOfEncodeGivesTheCommand : Prop :=
  ∀ i : Instr, i.isCommand = true → i.WireExact → ∀ rest : List Byte,
    ∃ tag bytes, encode i = some (tag, bytes) ∧ decode tag (bytes ++ rest) = .ok (i, rest)

/-- Encoding what was decoded gives the frame back, but for the CRC bytes, which the decoder passes over (log entry 3) and the
encoder computes. -/
def Obligations.EncodeOfDecodeGivesTheFrame : Prop :=
  ∀ (tag : Tag) (bytes : List Byte) (i : Instr) (rest : List Byte), decode tag bytes = .ok (i, rest) →
    ∃ frame, encode i = some (tag, frame) ∧ bytes.length = frame.length + rest.length ∧
      bytes.drop frame.length = rest ∧
      ∀ k, k < frame.length → k ≠ 4 → k ≠ 7 → bytes[k]? = frame[k]?

/-- Exactly the codes of R58 decode, given enough payload bytes: the tag decides which of the two code spaces is meant. That a
wide frame decodes whatever its CRC bytes and the bytes after it are is the model's choice (log entry 3, DESIGN CHOICE), and
so is that any other code is refused (log entry 30, DEDUCED from R60 and U14). -/
def Obligations.OnlyTheFourteenCodesDecode : Prop :=
  (∀ (c : Byte) (rest : List Byte), (∃ r, decode .narrow (c :: rest) = .ok r) ↔ c = 0x00 ∨ c = 0x06) ∧
  ∀ (hi lo : Byte) (rest : List Byte), 6 ≤ rest.length →
    ((∃ r, decode .wide (hi :: lo :: rest) = .ok r) ↔ (hi ++ lo : Word) ∈ wideCodes)

/-- The words of the command map, as R58 writes them, decode to the commands they stand for; so do three frames with a payload
from 95_test_vectors.md section 2.6. How a table row becomes a frame (log entry 27, DESIGN CHOICE) and the physical operand of
a payload frame (log entry 3, DESIGN CHOICE) are the model's choice. -/
def Obligations.CommandMapWordsDecode : Prop :=
  decodeTableWord 16 0x365B = some .identify ∧
  decodeTableWord 16 0x218B = some .startContinuousMeasurement ∧
  decodeTableWord 16 0x3F86 = some .stopContinuousMeasurement ∧
  decodeTableWord 16 0xEC05 = some .readMeasurement ∧
  decodeTableWord 16 0x219D = some .singleShotTrigger ∧
  decodeTableWord 16 0x3650 = some .sleep ∧
  decodeTableWord 8 0x00 = some .wake ∧
  decodeTableWord 8 0x06 = some .softReset ∧
  decodeTableWord 16 0x3632 = some .factoryReset ∧
  decodeTableWord 16 0x3FBC = some .enableTestMode ∧
  decodeTableWord 16 0x3F3D = some .disableTestMode ∧
  decode .wide [0x36, 0x2F, 0x7D, 0x00, 0xFA] = .ok (.forcedRecalibration 32000, []) ∧
  decode .wide [0xE0, 0x16, 0xB9, 0x8C, 0xD4] = .ok (.setPressureCompensation 950, []) ∧
  decode .wide [0xE0, 0x00, 0x66, 0x66, 0x93, 0x99, 0x99, 0xBE] = .ok (.setRhtCompensation 25 69, [])

/-! ### Commands -/

/-- R117 to R120, R122, R123: one write of the command's bytes to the configured address; `Ok(())` at once when it is answered
`Ok`, `BusError(Write)` when it is answered `BusError`. `finish` is spelled out in `OperationEndLeavesNothingTransient`. -/
def Obligations.PlainCommandsWriteOnce : Prop :=
  ∀ i bytes, (i, bytes) ∈ plainWrites → ∀ (s : State) (rest : List WriteAnswer), s.phase = .idle →
    (s.writeAnswers = .ok :: rest → exec i s = .next (finish (.ok .unit) (s.wrote bytes .ok rest))) ∧
    (s.writeAnswers = .busError :: rest →
      exec i s = .next (finish (.err (.busError .write)) (s.wrote bytes .busError rest)))

/-- R112 and R113: one write, then the settle wait, and the result only when the wait is over; while it is not, the block
stays in DELAY with no result. After a failed write there is no wait. -/
def Obligations.StartAndStopSettle : Prop :=
  ∀ i bytes, (i, bytes) ∈ settledWrites → ∀ (s : State) (rest : List WriteAnswer), s.phase = .idle →
    (s.writeAnswers = .busError :: rest →
      exec i s = .next (finish (.err (.busError .write)) (s.wrote bytes .busError rest))) ∧
    (s.writeAnswers = .ok :: rest →
      (∀ k, s.waitsOver = k + 1 →
        exec i s = .next (finish (.ok .unit) ((s.wrote bytes .ok rest).waited .settleCont k))) ∧
      (s.waitsOver = 0 → ∃ t, exec i s = .next t ∧ t.phase = .delay ∧ t.op = some i ∧ t.results = s.results ∧
        t.trace = (s.wrote bytes .ok rest).trace))

/-- R114: the write, the read of 12 bytes, no wait between them; fewer than 12 bytes are `DecodeError(ShortResponse)`; the
sample is made of the four words, two of them converted (R140, R141, R148); under `Strict` the least failing triple is
`DecodeError(CrcMismatch)`. -/
def Obligations.ReadMeasurementDecodesTwelveBytes : Prop :=
  ∀ (s : State) (ws : List WriteAnswer) (rs : List ReadAnswer), s.phase = .idle →
    (s.writeAnswers = .busError :: ws →
      exec .readMeasurement s =
        .next (finish (.err (.busError .write)) (s.wrote [0xEC, 0x05] .busError ws))) ∧
    (s.writeAnswers = .ok :: ws → s.readAnswers = .busError :: rs →
      exec .readMeasurement s =
        .next (finish (.err (.busError .read)) ((s.wrote [0xEC, 0x05] .ok ws).heard 12 .busError rs))) ∧
    (s.writeAnswers = .ok :: ws → ∀ bs, s.readAnswers = .ok bs :: rs →
      (bs.length < 12 →
        exec .readMeasurement s =
          .next (finish (.err (.decodeError (.shortResponse bs.length 12)))
            ((s.wrote [0xEC, 0x05] .ok ws).heard 12 (.ok bs) rs))) ∧
      (bs.length = 12 → Accepted s.crcPolicy bs 4 →
        exec .readMeasurement s =
          .next (finish
            (.ok (.sample {
              co2Ppm := bs.getD 0 0 ++ bs.getD 1 0
              temperatureCelsius := -45 + 175 * ((bs.getD 3 0 ++ bs.getD 4 0 : Word).toNat : Rat) / 65535
              humidityPercent := -6 + 125 * ((bs.getD 6 0 ++ bs.getD 7 0 : Word).toNat : Rat) / 65535
              status := bs.getD 9 0 ++ bs.getD 10 0 }))
            ((s.wrote [0xEC, 0x05] .ok ws).heard 12 (.ok bs) rs))) ∧
      ∀ k, bs.length = 12 → RejectedAt s.crcPolicy bs 4 k →
        exec .readMeasurement s =
          .next (finish (.err (.decodeError (.crcMismatch k)))
            ((s.wrote [0xEC, 0x05] .ok ws).heard 12 (.ok bs) rs)))

/-- R115 with R145: out of [10, 40] the temperature is refused, else out of [20, 80] the humidity, with no transaction; in
range one write of the frame of both raw codes, temperature first. -/
def Obligations.RhtCompensationChecksThenWrites : Prop :=
  ∀ (s : State) (t h : Rat) (rest : List WriteAnswer), s.phase = .idle →
    (¬ (10 ≤ t ∧ t ≤ 40) →
      exec (.setRhtCompensation t h) s = .next (finish (.err (.invalidArgument (.temperature t))) s)) ∧
    (10 ≤ t ∧ t ≤ 40 → ¬ (20 ≤ h ∧ h ≤ 80) →
      exec (.setRhtCompensation t h) s = .next (finish (.err (.invalidArgument (.humidity h))) s)) ∧
    (10 ≤ t ∧ t ≤ 40 → 20 ≤ h ∧ h ≤ 80 → s.writeAnswers = .ok :: rest →
      exec (.setRhtCompensation t h) s =
        .next (finish (.ok .unit) (s.wrote (encodeFrame 0xE000 [tempToRaw t, rhToRaw h]) .ok rest))) ∧
    (10 ≤ t ∧ t ≤ 40 → 20 ≤ h ∧ h ≤ 80 → s.writeAnswers = .busError :: rest →
      exec (.setRhtCompensation t h) s =
        .next (finish (.err (.busError .write))
          (s.wrote (encodeFrame 0xE000 [tempToRaw t, rhToRaw h]) .busError rest)))

/-- R116 with R146: out of [400, 1100] the pressure is refused with no transaction; in range one write of the frame of its raw
code. -/
def Obligations.PressureCompensationChecksThenWrites : Prop :=
  ∀ (s : State) (p : Rat) (rest : List WriteAnswer), s.phase = .idle →
    (¬ (400 ≤ p ∧ p ≤ 1100) →
      exec (.setPressureCompensation p) s = .next (finish (.err (.invalidArgument (.pressure p))) s)) ∧
    (400 ≤ p ∧ p ≤ 1100 → s.writeAnswers = .ok :: rest →
      exec (.setPressureCompensation p) s =
        .next (finish (.ok .unit) (s.wrote (encodeFrame 0xE016 [pressureToRaw p]) .ok rest))) ∧
    (400 ≤ p ∧ p ≤ 1100 → s.writeAnswers = .busError :: rest →
      exec (.setPressureCompensation p) s =
        .next (finish (.err (.busError .write)) (s.wrote (encodeFrame 0xE016 [pressureToRaw p]) .busError rest)))

/-- R121: the write, the read of 2 bytes; fewer than two bytes and a word that is not zero are `OperationFailed`, zero is
`Ok(())`, under both policies alike. -/
def Obligations.FactoryResetTestsForZero : Prop :=
  ∀ (s : State) (ws : List WriteAnswer) (rs : List ReadAnswer), s.phase = .idle →
    (s.writeAnswers = .busError :: ws →
      exec .factoryReset s = .next (finish (.err (.busError .write)) (s.wrote [0x36, 0x32] .busError ws))) ∧
    (s.writeAnswers = .ok :: ws → s.readAnswers = .busError :: rs →
      exec .factoryReset s =
        .next (finish (.err (.busError .read)) ((s.wrote [0x36, 0x32] .ok ws).heard 2 .busError rs))) ∧
    (s.writeAnswers = .ok :: ws → ∀ bs, s.readAnswers = .ok bs :: rs →
      (bs.length < 2 →
        exec .factoryReset s =
          .next (finish (.err (.operationFailed (.shortResponse bs.length)))
            ((s.wrote [0x36, 0x32] .ok ws).heard 2 (.ok bs) rs))) ∧
      ∀ hi lo, bs = [hi, lo] →
        ((hi ++ lo : Word) = 0x0000 →
          exec .factoryReset s =
            .next (finish (.ok .unit) ((s.wrote [0x36, 0x32] .ok ws).heard 2 (.ok bs) rs))) ∧
        ((hi ++ lo : Word) ≠ 0x0000 →
          exec .factoryReset s =
            .next (finish (.err (.operationFailed (.nonZeroAck (hi ++ lo))))
              ((s.wrote [0x36, 0x32] .ok ws).heard 2 (.ok bs) rs))))

/-- R124 with R147: a target above 32000 is refused with no transaction. Else the write of its one-word frame, the wait, the
read of 3 bytes; a short response and, under `Strict`, a failing triple are `DecodeError`; then 0x0000 and 0xFFFF are
`OperationFailed` with the value, and any other word is the correction value. While the wait is not over the block stays in
DELAY. -/
def Obligations.ForcedRecalibrationReturnsCorrection : Prop :=
  ∀ (s : State) (g : Word) (ws : List WriteAnswer) (rs : List ReadAnswer), s.phase = .idle →
    (32000 < g.toNat →
      exec (.forcedRecalibration g) s = .next (finish (.err (.invalidArgument (.targetPpm g))) s)) ∧
    (g.toNat ≤ 32000 → s.writeAnswers = .busError :: ws →
      exec (.forcedRecalibration g) s =
        .next (finish (.err (.busError .write)) (s.wrote (encodeFrame 0x362F [g]) .busError ws))) ∧
    (g.toNat ≤ 32000 → s.writeAnswers = .ok :: ws →
      (s.waitsOver = 0 → ∃ t, exec (.forcedRecalibration g) s = .next t ∧ t.phase = .delay ∧
        t.op = some (.forcedRecalibration g) ∧ t.results = s.results ∧
        t.trace = (s.wrote (encodeFrame 0x362F [g]) .ok ws).trace) ∧
      ∀ k, s.waitsOver = k + 1 →
        (s.readAnswers = .busError :: rs →
          exec (.forcedRecalibration g) s =
            .next (finish (.err (.busError .read))
              (((s.wrote (encodeFrame 0x362F [g]) .ok ws).waited .frc k).heard 3 .busError rs))) ∧
        ∀ bs, s.readAnswers = .ok bs :: rs →
          (bs.length < 3 →
            exec (.forcedRecalibration g) s =
              .next (finish (.err (.decodeError (.shortResponse bs.length 3)))
                (((s.wrote (encodeFrame 0x362F [g]) .ok ws).waited .frc k).heard 3 (.ok bs) rs))) ∧
          ∀ hi lo c, bs = [hi, lo, c] →
            (s.crcPolicy = .strict → crc8 [hi, lo] ≠ c →
              exec (.forcedRecalibration g) s =
                .next (finish (.err (.decodeError (.crcMismatch 0)))
                  (((s.wrote (encodeFrame 0x362F [g]) .ok ws).waited .frc k).heard 3 (.ok bs) rs))) ∧
            (s.crcPolicy = .acceptAlways ∨ crc8 [hi, lo] = c →
              ((hi ++ lo : Word) = 0x0000 ∨ (hi ++ lo : Word) = 0xFFFF →
                exec (.forcedRecalibration g) s =
                  .next (finish (.err (.operationFailed (.calibrationInvalid (hi ++ lo))))
                    (((s.wrote (encodeFrame 0x362F [g]) .ok ws).waited .frc k).heard 3 (.ok bs) rs))) ∧
              ((hi ++ lo : Word) ≠ 0x0000 → (hi ++ lo : Word) ≠ 0xFFFF →
                exec (.forcedRecalibration g) s =
                  .next (finish (.ok (.correction (hi ++ lo)))
                    (((s.wrote (encodeFrame 0x362F [g]) .ok ws).waited .frc k).heard 3 (.ok bs) rs)))))

/-- R111 and R149: each attempt is a full write and a full read. After fewer than five mismatching attempts, with the backoff wait
after each, a matching response is returned at once, and the fifth response is returned whether it matches or not. On any
attempt a bus error, a short response and, under `Strict`, a failing triple end the operation at once, with that error and no
retry; the mismatching values seen before are lost. -/
def Obligations.IdentifyRetriesMismatchesOnly : Prop :=
  ∀ (s : State) (ms : List (List Byte)) (bs : List Byte) (ws : List WriteAnswer) (rs : List ReadAnswer) (k : Nat),
    s.phase = .idle → ms.length ≤ 4 → (∀ m ∈ ms, Mismatch s.crcPolicy m) →
    (Answers s ms (.busError :: ws) rs k →
      exec .identify s =
        .next (finish (.err (.busError .write))
          ((afterAttempts s ms (.busError :: ws) rs k).wrote identifyBytes .busError ws))) ∧
    (Answers s ms (.ok :: ws) (.busError :: rs) k →
      exec .identify s =
        .next (finish (.err (.busError .read))
          (((afterAttempts s ms (.ok :: ws) (.busError :: rs) k).wrote identifyBytes .ok ws).heard 18 .busError rs))) ∧
    (Answers s ms (.ok :: ws) (.ok bs :: rs) k → bs.length < 18 →
      exec .identify s =
        .next (finish (.err (.decodeError (.shortResponse bs.length 18)))
          (((afterAttempts s ms (.ok :: ws) (.ok bs :: rs) k).wrote identifyBytes .ok ws).heard 18 (.ok bs) rs))) ∧
    (∀ j, Answers s ms (.ok :: ws) (.ok bs :: rs) k → bs.length = 18 → RejectedAt s.crcPolicy bs 6 j →
      exec .identify s =
        .next (finish (.err (.decodeError (.crcMismatch j)))
          (((afterAttempts s ms (.ok :: ws) (.ok bs :: rs) k).wrote identifyBytes .ok ws).heard 18 (.ok bs) rs))) ∧
    (Answers s ms (.ok :: ws) (.ok bs :: rs) k → bs.length = 18 → Accepted s.crcPolicy bs 6 →
      identityIn bs = Config.expectedId ∨ ms.length = 4 →
      exec .identify s =
        .next (finish (.ok (.identity (identityIn bs)))
          (((afterAttempts s ms (.ok :: ws) (.ok bs :: rs) k).wrote identifyBytes .ok ws).heard 18 (.ok bs) rs)))

/-- R125: in IDLE a legal address is set together with the policy; another address is `InvalidArgument` and both registers keep
their values. No transaction is made either way. Outside IDLE the request is not accepted: it has no effect. -/
def Obligations.ConfigureSetsBothOrNeither : Prop :=
  ∀ (s : State) (a : DevAddr) (policy : CrcPolicy),
    (s.phase = .idle → a = 0x64 ∨ a = 0x65 →
      exec (.configure a policy) s = .next (finish (.ok .unit) { s with devAddr := a, crcPolicy := policy })) ∧
    (s.phase = .idle → a ≠ 0x64 → a ≠ 0x65 →
      exec (.configure a policy) s = .next (finish (.err (.invalidArgument (.devAddr a))) s)) ∧
    (s.phase ≠ .idle → exec (.configure a policy) s = .next s)

/-! ### Conversions -/

/-- R140, R141, R148 as exact rational numbers, with their ends: nothing is clipped. -/
def Obligations.RawCodesToPhysicalValues : Prop :=
  (∀ raw : Word, tempFromRaw raw = -45 + 175 * (raw.toNat : Rat) / 65535 ∧
    rhFromRaw raw = -6 + 125 * (raw.toNat : Rat) / 65535) ∧
  tempFromRaw 0x0000 = -45 ∧ tempFromRaw 0xFFFF = 130 ∧ rhFromRaw 0x0000 = -6 ∧ rhFromRaw 0xFFFF = 119

/-- The code of an in-range value (R142, R143) is the floor or the nearest integer of the exact code, and it fits in 16 bits.
`ROUND_RAW` is open (R151); that it is one of these two, free for each exact code, nearest being the floor of the code plus one
half, is the model's reading (log entry 11, DEDUCED). -/
def Obligations.PhysicalValuesToRawCodes : Prop :=
  (∀ t : Rat, 10 ≤ t → t ≤ 40 →
    ((tempToRaw t).toNat : Int) = ((t + 45) * 65535 / 175).floor ∨
    ((tempToRaw t).toNat : Int) = ((t + 45) * 65535 / 175 + 1 / 2).floor) ∧
  ∀ h : Rat, 20 ≤ h → h ≤ 80 →
    ((rhToRaw h).toNat : Int) = ((h + 6) * 65535 / 125).floor ∨
    ((rhToRaw h).toNat : Int) = ((h + 6) * 65535 / 125 + 1 / 2).floor

/-- A whole pressure from 400 to 1100 has the raw code fifty times itself (R144), which never wraps; a fraction in that range has
the floor or the nearest integer of fifty times itself. The clause on fractions rests on what R144 marks as the spec's own
extension (D18) and on the model's reading of the open `ROUND_RAW` (R151; log entry 11, DEDUCED). -/
def Obligations.PressureIsScaledByFifty : Prop :=
  (∀ p : Nat, 400 ≤ p → p ≤ 1100 → (pressureToRaw (p : Rat)).toNat = p * 50) ∧
  ∀ p : Rat, 400 ≤ p → p ≤ 1100 →
    ((pressureToRaw p).toNat : Int) = (p * 50).floor ∨ ((pressureToRaw p).toNat : Int) = (p * 50 + 1 / 2).floor

/-- Encoding and decoding a compensation value moves it by less than one code step (R150, derived there). -/
def Obligations.CompensationRoundTripWithinOneStep : Prop :=
  (∀ t : Rat, 10 ≤ t → t ≤ 40 → |tempFromRaw (tempToRaw t) - t| < 175 / 65535) ∧
  ∀ h : Rat, 20 ≤ h → h ≤ 80 → |rhFromRaw (rhToRaw h) - h| < 125 / 65535

/-! ### Errors, results and phases -/

/-- A phase of a command leads only to the phases its row of R13's table gives that command, by its wait and its response; only
`identify` has a way back to WRITE, and after an early end the result is the error of the phase. Which phases a command skips,
and that `identify` goes from DECODE to DELAY and from there to WRITE for its backoff, is the model's reading of R13 and R110
(log entry 14, DEDUCED). -/
def Obligations.PhasesFollowTheTable : Prop :=
  ∀ (i : Instr) (c : Command) (s t : State), commandOf i = some c → phaseStep c s = .moved t →
    s.phase.leadsTo c t.phase = true ∧ (c.backoff.isSome → i = .identify) ∧
      (s.phase = .check → t.phase = .done → ∃ a, t.result = some (.err (.invalidArgument a))) ∧
      (s.phase = .write → t.phase = .done →
        t.result = some (.err (.busError .write)) ∨ c.wait = none ∧ c.asked = 0 ∧ t.result = some (.ok .unit)) ∧
      (s.phase = .delay → t.phase = .done → t.result = some (.ok .unit)) ∧
      (s.phase = .read → t.phase = .done → t.result = some (.err (.busError .read)))

/-- R168: raising an error writes the result and the phase and nothing else; DONE then hands that error to the host. -/
def Obligations.RaiseWritesResultAndPhase : Prop :=
  ∀ (e : OpError) (s : State) (c : Command),
    raise e s = { s with result := some (.err e), phase := .done } ∧
    ∃ t, phaseStep c (raise e s) = .moved t ∧ t.phase = .idle ∧ t.results = s.results ++ [.err e] ∧
      t.devAddr = s.devAddr ∧ t.crcPolicy = s.crcPolicy ∧ t.trace = s.trace

/-- What the end of every command and of `configure` leaves: IDLE, the result with the host, no transient state with a value
(R21, R169), everything else as it was; `crc` is unspecified (R14; its value is free, log entry 8). -/
def Obligations.OperationEndLeavesNothingTransient : Prop :=
  ∀ (r : OpResult) (s : State),
    finish r s = { State.reset with
      devAddr := s.devAddr, crcPolicy := s.crcPolicy, crc := (finish r s).crc,
      requests := s.requests, results := s.results ++ [r], trace := s.trace, writeAnswers := s.writeAnswers,
      readAnswers := s.readAnswers, waitsOver := s.waitsOver, resetRequested := s.resetRequested,
      freeCount := s.freeCount + 1 }

/-- The errors each of the host's operations can hand over, with their causes, the policy and the value the device sent being
what R160's table, R163 and R164 ask (derived there): whether the operation ends where it was asked for, or in the step that
ends a running one. An operation of the codec run by itself hands over what it raises on behalf of its caller (R93); the name of
`decode_raw_word`'s short response is the model's choice (log entry 20). -/
def Obligations.OnlyTheTabledErrorsOccur : Prop :=
  (∀ (i : Instr) (s t : State) (e : OpError), s.phase = .idle → exec i s = .next t → t.results = s.results ++ [.err e] →
    (i.IsHostOperation → e.tabledFor s.crcPolicy i = true) ∧ (¬ i.IsHostOperation → e.raisedBy i = true)) ∧
  ∀ (i : Instr) (s t : State) (e : OpError), Inv s → s.resetRequested = false → s.phase ≠ .idle → s.op = some i →
    step s = .next t → t.results = s.results ++ [.err e] → e.tabledFor s.crcPolicy i = true

/-- R162: an operation that ends with `InvalidArgument` names an argument that fails its check (R145 to R147, R125), with its
value, and has made no transaction and used up no answer of the transport. -/
def Obligations.InvalidArgumentMakesNoTransaction : Prop :=
  ∀ (i : Instr) (s t : State) (a : Argument), s.phase = .idle → exec i s = .next t →
    t.results = s.results ++ [.err (.invalidArgument a)] →
    Refused i a ∧ t.trace = s.trace ∧ t.writeAnswers = s.writeAnswers ∧ t.readAnswers = s.readAnswers

/-- R40 (d): when a command returns `Ok`, every transaction it made was answered `Ok`. Said piece by piece: whether it is the
command's request or a step that goes on with it, if the command then has not failed (it waits, or has ended with `Ok`), every
transaction made meanwhile was answered `Ok`. The pieces of a command that ends with `Ok` are all of this kind. -/
def Obligations.OkMeansEveryTransactionAnsweredOk : Prop :=
  (∀ (i : Instr) (s t : State), i.isCommand = true → s.phase = .idle → exec i s = .next t → NotFailed s t →
    ∃ es, t.trace = s.trace ++ es ∧ ∀ e ∈ es, e.answeredOk = true) ∧
  ∀ s t : State, s.resetRequested = false → s.phase ≠ .idle → step s = .next t → NotFailed s t →
    ∃ es, t.trace = s.trace ++ es ∧ ∀ e ∈ es, e.answeredOk = true

/-- R208: a request outside IDLE has no effect and gets no result, and the host's requests wait. -/
def Obligations.BusyBlockAcceptsNothing : Prop :=
  (∀ (i : Instr) (s : State), s.phase ≠ .idle → exec i s = .next s) ∧
  ∀ s t : State, s.phase ≠ .idle → step s = .next t → t.requests = s.requests

/-! ### Reset and the step -/

/-- R23: what reset leaves. `crc` is unspecified there; its value at reset is the model's choice (log entry 7), and nothing is
said of it here. -/
def Obligations.ResetLeavesDefaults : Prop :=
  State.reset.devAddr = 0x64 ∧ State.reset.crcPolicy = .acceptAlways ∧ State.reset.phase = .idle ∧
  State.reset.op = none ∧ State.reset.attempt = none ∧ (∀ k, k < 6 → State.reset.x[k]? = some none) ∧
  State.reset.bitcnt = 0 ∧ (∀ a, State.reset.tx.read a = none) ∧ (∀ a, State.reset.rx.read a = none) ∧
  State.reset.txLen = 0 ∧ State.reset.rxLen = 0 ∧ State.reset.result = none ∧
  (∀ k, k < 6 → State.reset.crcOk[k]? = some none) ∧ State.reset.idMatch = none

/-- R190: the reset event, in any phase, leaves the state of R23, hands over no result and makes no transaction. That it comes
before anything else a step could do is the model's choice (log entry 21). -/
def Obligations.ResetEventEndsTheOperation : Prop :=
  ∀ s : State, s.resetRequested = true →
    ∃ t, step s = .next t ∧
      t = { State.reset with
        crc := t.crc, freeCount := t.freeCount, requests := s.requests, results := s.results, trace := s.trace,
        writeAnswers := s.writeAnswers, readAnswers := s.readAnswers, waitsOver := s.waitsOver }

/-- A step in IDLE takes the next request and is exec of the operation it names, whether it is a name or a frame; a frame that
is no command is refused by name; without a request the block waits; outside IDLE the running operation goes on. The request
list and its two forms (log entries 2 and 3, DESIGN CHOICE) and the refusal (log entry 30, DEDUCED) are the model's choice. -/
def Obligations.StepRunsTheRequestedOperation : Prop :=
  ∀ s : State, s.resetRequested = false →
    (s.phase = .idle →
      (∀ i rest, s.requests = .call i :: rest → step s = exec i { s with requests := rest }) ∧
      (∀ tag bytes i left rest, s.requests = .frame tag bytes :: rest → decode tag bytes = .ok (i, left) →
        step s = exec i { s with requests := rest }) ∧
      (∀ tag bytes e rest, s.requests = .frame tag bytes :: rest → decode tag bytes = .error e →
        step s = .refused (.undecodable e)) ∧
      (s.requests = [] → step s = .next s)) ∧
    (s.phase ≠ .idle → step s = resume s)

/-- The instruction of a table row, placed as the next request, is what the very next step runs. How a row becomes a request and
that placing it means standing first in the request list of a block in IDLE is the model's choice (log entries 2 and 27,
DESIGN CHOICE). -/
def Obligations.PlacedTableWordRunsNext : Prop :=
  ∀ (s : State) (nbits w : Nat) (i : Instr), decodeTableWord nbits w = some i →
    step (s.withFetchWord nbits w) = exec i { s with phase := .idle, resetRequested := false }

/-! ### The machine as a whole -/

/-- The invariant holds after reset. -/
def Obligations.ResetSatisfiesTheInvariant : Prop := Inv State.reset

/-- Every step keeps the invariant: the address stays legal, both byte spaces stay in canonical form inside their capacity with
a value in every byte below the current length, `bitcnt` stays in range, and a running phase always has its command, its
frame and what it reads next, in DONE a result that R160 allows it. -/
def Obligations.EveryStepKeepsTheInvariant : Prop := ∀ s t : State, Inv s → step s = .next t → Inv t

/-- From a state with the invariant, a step on the host's operations never stops: every failure is a result (R22: no rule reads
something that holds no value). -/
def Obligations.HostOperationsNeverStop : Prop :=
  ∀ s : State, Inv s → s.NextIsHostOperation → ∃ t, step s = .next t

/-- A command ends, with exactly one result, when the transport answers and the waits end: five answers of each kind and four
waits are always enough. -/
def Obligations.CommandEndsWhenAnswered : Prop :=
  ∀ (i : Instr) (s : State), i.isCommand = true → s.phase = .idle →
    5 ≤ s.writeAnswers.length → 5 ≤ s.readAnswers.length → 4 ≤ s.waitsOver →
    ∃ t r, exec i s = .next t ∧ t.phase = .idle ∧ t.results = s.results ++ [r]

/-- While the transport does not answer, a command whose arguments pass stays in WRITE with its frame ready and no result given
(U7). That the pending write is not in `trace` yet is the model's choice (log entry 25, DESIGN CHOICE: `trace` holds answered
calls only, though the call has been made on the bus). -/
def Obligations.UnansweredWriteIsPending : Prop :=
  ∀ (i : Instr) (c : Command) (s : State), commandOf i = some c → c.check = .ok i.payload → s.phase = .idle →
    s.writeAnswers = [] →
    ∃ t, exec i s = .next t ∧ t.phase = .write ∧ t.op = some i ∧ t.results = s.results ∧ t.trace = s.trace ∧
      ∃ tag bytes, encode i = some (tag, bytes) ∧ memRead .tx 0 t.txLen t = .ok bytes

/-- What comes later makes no difference: a command left waiting in WRITE, DELAY or READ, for an answer or for a wait to end,
and stepped on once more answers and ended waits are there, goes on as if they had been there from the start; and so does a
command that waits again after a step that went on with it. -/
def Obligations.LateAnswersMakeNoDifference : Prop :=
  (∀ (i : Instr) (s t : State) (ws : List WriteAnswer) (rs : List ReadAnswer) (k : Nat), i.isCommand = true →
    s.phase = .idle → s.resetRequested = false → exec i s = .next t → t.phase ≠ .idle →
    step (t.later ws rs k) = exec i (s.later ws rs k)) ∧
  ∀ (s t : State) (ws : List WriteAnswer) (rs : List ReadAnswer) (k : Nat), Inv s → s.resetRequested = false →
    s.phase ≠ .idle → step s = .next t → t.phase ≠ .idle →
    step (t.later ws rs k) = step (s.later ws rs k)

/-- R31: whatever a step does, every transaction it makes goes to the configured address, which is 0x64 or 0x65. -/
def Obligations.OnlyTheConfiguredAddressIsUsed : Prop :=
  ∀ s t : State, Inv s → step s = .next t →
    (s.devAddr = 0x64 ∨ s.devAddr = 0x65) ∧
    ∃ es, t.trace = s.trace ++ es ∧ ∀ e ∈ es, e.to s.devAddr = true

/-- R60 and R37: every write of a step is the frame of one of the fourteen commands, 1, 2, 5 or 8 bytes; every read asks 2, 3,
12 or 18 bytes and gives at most as many (R33). -/
def Obligations.OnlyCommandFramesReachTheBus : Prop :=
  ∀ s t : State, Inv s → step s = .next t →
    ∃ es, t.trace = s.trace ++ es ∧
      (∀ a bytes ans, Event.write a bytes ans ∈ es →
        (∃ i tag, i.isCommand = true ∧ encode i = some (tag, bytes)) ∧ bytes.length ∈ [1, 2, 5, 8]) ∧
      (∀ a n ans, Event.read a n ans ∈ es → n ∈ [2, 3, 12, 18]) ∧
      ∀ a n bytes, Event.read a n (.ok bytes) ∈ es → bytes.length ≤ n

/-- R209: a step changes the configuration only by running `configure` from IDLE, or by the reset event. -/
def Obligations.ConfigurationStandsStill : Prop :=
  ∀ s t : State, step s = .next t → s.resetRequested = false →
    (s.phase = .idle → ∀ a p rest, s.requests ≠ .call (.configure a p) :: rest) →
    t.devAddr = s.devAddr ∧ t.crcPolicy = s.crcPolicy

/-- No operation's outcome depends on an earlier one (R21, derived there): two idle blocks with the same configuration and the
same answers to come give the same result and make the same transactions, whatever else they hold. -/
def Obligations.OutcomeDependsOnNothingEarlier : Prop :=
  ∀ (i : Instr) (s s' : State), i.isCommand = true → s.phase = .idle → s'.phase = .idle →
    s.devAddr = s'.devAddr → s.crcPolicy = s'.crcPolicy → s.writeAnswers = s'.writeAnswers →
    s.readAnswers = s'.readAnswers → s.waitsOver = s'.waitsOver →
    ∃ t t' rs es, exec i s = .next t ∧ exec i s' = .next t' ∧
      t.results = s.results ++ rs ∧ t'.results = s'.results ++ rs ∧
      t.trace = s.trace ++ es ∧ t'.trace = s'.trace ++ es ∧
      t.phase = t'.phase ∧ t.writeAnswers = t'.writeAnswers ∧ t.readAnswers = t'.readAnswers ∧
      t.waitsOver = t'.waitsOver

/-! ### Identify, one attempt -/

/-- DECODE of `identify` on a complete response that is accepted writes the six words, the six `crc_ok` and in `id_match`
whether the identity is `EXPECTED_ID`; a match or the fifth attempt ends the operation with the identity, and a mismatch before
raises `attempt` by one and goes to the backoff. A response that is rejected writes no `id_match`. Left waiting for the backoff
after a mismatch, `identify` shows `id_match` 0, the number of the coming attempt, and no result (R111, R18). That it waits in
phase DELAY is the model's reading (log entry 14, DEDUCED). -/
def Obligations.IdentifyFlagsTheMatchAndCountsAttempts : Prop :=
  (∀ (s : State) (bs : List Byte) (n : Nat), s.phase = .decode → s.Received bs → bs.length = 18 → s.attempt = some n →
    (Accepted s.crcPolicy bs 6 →
      ∃ t, phaseStep identifyCommand s = .moved t ∧
        t = { s with x := t.x, crcOk := t.crcOk, crc := t.crc, bitcnt := t.bitcnt, idMatch := t.idMatch, phase := t.phase,
                     attempt := t.attempt, result := t.result } ∧
        (∀ k, k < 6 → t.x[k]? = some (some (wordAt bs k)) ∧ t.crcOk[k]? = some (some (tripleOkAt bs k))) ∧
        t.idMatch = some (decide (identityIn bs = Config.expectedId)) ∧
        (identityIn bs = Config.expectedId ∨ n = 5 →
          t.phase = .done ∧ t.attempt = some n ∧ t.result = some (.ok (.identity (identityIn bs)))) ∧
        (identityIn bs ≠ Config.expectedId → n ≠ 5 →
          t.phase = .delay ∧ t.attempt = some (n + 1) ∧ t.result = s.result)) ∧
    ∀ k, RejectedAt s.crcPolicy bs 6 k →
      ∃ t, phaseStep identifyCommand s = .moved t ∧ t.phase = .done ∧
        t.result = some (.err (.decodeError (.crcMismatch k))) ∧ t.idMatch = s.idMatch ∧ t.attempt = some n) ∧
  ∀ (s : State) (ms : List (List Byte)) (bs : List Byte) (ws : List WriteAnswer) (rs : List ReadAnswer),
    s.phase = .idle → ms.length ≤ 3 → (∀ m ∈ ms, Mismatch s.crcPolicy m) → Mismatch s.crcPolicy bs →
    Answers s ms (.ok :: ws) (.ok bs :: rs) 0 →
    ∃ t, exec .identify s = .next t ∧ t.phase = .delay ∧ t.op = some .identify ∧ t.attempt = some (ms.length + 2) ∧
      t.idMatch = some false ∧ t.results = s.results ∧
      t.trace = (((afterAttempts s ms (.ok :: ws) (.ok bs :: rs) 0).wrote identifyBytes .ok ws).heard 18 (.ok bs) rs).trace
end

