-- ==== Sys2Proof/Laws/Bytes.lean ====
section
/-! SUPPORT. Byte order: taking a word apart and joining it again. -/

namespace Sys2Proof

@[simp] theorem highByte_joinBytes (hi lo : Byte) : highByte (joinBytes hi lo) = hi := by
  unfold highByte joinBytes
  ext i hi'
  simp only [BitVec.getElem_extractLsb', BitVec.getLsbD_append]
  simp [show ¬ 8 + i < 8 by omega, ← BitVec.getLsbD_eq_getElem]

@[simp] theorem lowByte_joinBytes (hi lo : Byte) : lowByte (joinBytes hi lo) = lo := by
  unfold lowByte joinBytes
  ext i hi'
  simp only [BitVec.getElem_extractLsb', BitVec.getLsbD_append]
  simp [hi']

@[simp] theorem joinBytes_high_low (w : Word) : joinBytes (highByte w) (lowByte w) = w := by
  unfold joinBytes highByte lowByte
  ext i hi'
  simp only [BitVec.getElem_append, BitVec.getElem_extractLsb']
  split
  · simp [← BitVec.getLsbD_eq_getElem]
  · simp only [← BitVec.getLsbD_eq_getElem]
    congr 1
    omega

theorem joinBytes_inj {hi lo hi' lo' : Byte} (h : joinBytes hi lo = joinBytes hi' lo') : hi = hi' ∧ lo = lo' := by
  constructor
  · simpa using congrArg highByte h
  · simpa using congrArg lowByte h

end Sys2Proof
end

