-- ==== Sys2Proof/Laws/Crc.lean ====
section
/-! SUPPORT. The CRC unit: the operations on the registers compute the functions on the register value. -/

namespace Sys2Proof

@[simp] theorem crcBitSteps_zero (r : Byte) : crcBitSteps 0 r = r := rfl

theorem crcBitSteps_succ (n : Nat) (r : Byte) : crcBitSteps (n + 1) r = crcBitSteps n (crcBitStep r) := rfl

/-- The eight steps depend on `r ^ b` only (R71). -/
theorem crcByteStep_eq_of_xor (r b : Byte) : crcByteStep r b = crcByteStep 0 (r ^^^ b) := by
  simp [crcByteStep]

theorem crc8_pair (hi lo : Byte) : crc8 [hi, lo] = crcByteStep (crcByteStep Config.crcInitValue hi) lo := rfl

@[simp] theorem crcWord_joinBytes (hi lo : Byte) : crcWord (joinBytes hi lo) = crc8 [hi, lo] := by
  simp [crcWord]

namespace Machine

theorem crcBitOps_eq (n : Nat) (s : State) :
    crcBitOps n s = { s with crc := crcBitSteps n s.crc, bitcnt := s.bitcnt - n } := by
  induction n generalizing s with
  | zero => rfl
  | succ n ih => simp only [crcBitOps, ih, crcBitOp, crcBitSteps_succ, Nat.sub_sub, Nat.add_comm 1 n]

theorem crcByteOp_eq (b : Byte) (s : State) :
    crcByteOp b s = { s with crc := crcByteStep s.crc b, bitcnt := 0 } := by
  simp [crcByteOp, crcBitOps_eq, crcAbsorb, crcByteStep]

theorem crcBytes_eq (bytes : List Byte) (s : State) (h : s.bitcnt = 0) :
    bytes.foldl (fun t b => crcByteOp b t) s = { s with crc := bytes.foldl crcByteStep s.crc, bitcnt := 0 } := by
  induction bytes generalizing s with
  | nil => simp [← h]
  | cons b bs ih => rw [List.foldl_cons, ih _ (by simp [crcByteOp_eq]), crcByteOp_eq, List.foldl_cons]

/-- R73 on the registers: `crc` holds the CRC of the bytes, no step is owed, nothing else has changed. -/
theorem crc8Op_eq (bytes : List Byte) (s : State) :
    crc8Op bytes s = { s with crc := crc8 bytes, bitcnt := 0 } := by
  rw [crc8Op, crcBytes_eq _ _ rfl, crc8, crcInitOp]

end Machine

end Sys2Proof
end

