-- ==== Sys2Proof/Laws/State.lean ====
section
/-! SUPPORT. One lemma for each field and each shared update of State, so that no proof unfolds a record update. -/

namespace Sys2Proof.Machine

@[simp] theorem raise_devAddr (e : OpError) (s : State) : (raise e s).devAddr = s.devAddr := rfl
@[simp] theorem raise_crcPolicy (e : OpError) (s : State) : (raise e s).crcPolicy = s.crcPolicy := rfl
@[simp] theorem raise_phase (e : OpError) (s : State) : (raise e s).phase = .done := rfl
@[simp] theorem raise_op (e : OpError) (s : State) : (raise e s).op = s.op := rfl
@[simp] theorem raise_attempt (e : OpError) (s : State) : (raise e s).attempt = s.attempt := rfl
@[simp] theorem raise_x (e : OpError) (s : State) : (raise e s).x = s.x := rfl
@[simp] theorem raise_crc (e : OpError) (s : State) : (raise e s).crc = s.crc := rfl
@[simp] theorem raise_bitcnt (e : OpError) (s : State) : (raise e s).bitcnt = s.bitcnt := rfl
@[simp] theorem raise_tx (e : OpError) (s : State) : (raise e s).tx = s.tx := rfl
@[simp] theorem raise_txLen (e : OpError) (s : State) : (raise e s).txLen = s.txLen := rfl
@[simp] theorem raise_rx (e : OpError) (s : State) : (raise e s).rx = s.rx := rfl
@[simp] theorem raise_rxLen (e : OpError) (s : State) : (raise e s).rxLen = s.rxLen := rfl
@[simp] theorem raise_result (e : OpError) (s : State) : (raise e s).result = some (.err e) := rfl
@[simp] theorem raise_crcOk (e : OpError) (s : State) : (raise e s).crcOk = s.crcOk := rfl
@[simp] theorem raise_idMatch (e : OpError) (s : State) : (raise e s).idMatch = s.idMatch := rfl
@[simp] theorem raise_requests (e : OpError) (s : State) : (raise e s).requests = s.requests := rfl
@[simp] theorem raise_results (e : OpError) (s : State) : (raise e s).results = s.results := rfl
@[simp] theorem raise_trace (e : OpError) (s : State) : (raise e s).trace = s.trace := rfl
@[simp] theorem raise_writeAnswers (e : OpError) (s : State) : (raise e s).writeAnswers = s.writeAnswers := rfl
@[simp] theorem raise_readAnswers (e : OpError) (s : State) : (raise e s).readAnswers = s.readAnswers := rfl
@[simp] theorem raise_waitsOver (e : OpError) (s : State) : (raise e s).waitsOver = s.waitsOver := rfl
@[simp] theorem raise_resetRequested (e : OpError) (s : State) : (raise e s).resetRequested = s.resetRequested := rfl
@[simp] theorem raise_freeCount (e : OpError) (s : State) : (raise e s).freeCount = s.freeCount := rfl

@[simp] theorem answer_devAddr (v : Value) (s : State) : (answer v s).devAddr = s.devAddr := rfl
@[simp] theorem answer_crcPolicy (v : Value) (s : State) : (answer v s).crcPolicy = s.crcPolicy := rfl
@[simp] theorem answer_phase (v : Value) (s : State) : (answer v s).phase = .done := rfl
@[simp] theorem answer_op (v : Value) (s : State) : (answer v s).op = s.op := rfl
@[simp] theorem answer_attempt (v : Value) (s : State) : (answer v s).attempt = s.attempt := rfl
@[simp] theorem answer_x (v : Value) (s : State) : (answer v s).x = s.x := rfl
@[simp] theorem answer_crc (v : Value) (s : State) : (answer v s).crc = s.crc := rfl
@[simp] theorem answer_bitcnt (v : Value) (s : State) : (answer v s).bitcnt = s.bitcnt := rfl
@[simp] theorem answer_tx (v : Value) (s : State) : (answer v s).tx = s.tx := rfl
@[simp] theorem answer_txLen (v : Value) (s : State) : (answer v s).txLen = s.txLen := rfl
@[simp] theorem answer_rx (v : Value) (s : State) : (answer v s).rx = s.rx := rfl
@[simp] theorem answer_rxLen (v : Value) (s : State) : (answer v s).rxLen = s.rxLen := rfl
@[simp] theorem answer_result (v : Value) (s : State) : (answer v s).result = some (.ok v) := rfl
@[simp] theorem answer_crcOk (v : Value) (s : State) : (answer v s).crcOk = s.crcOk := rfl
@[simp] theorem answer_idMatch (v : Value) (s : State) : (answer v s).idMatch = s.idMatch := rfl
@[simp] theorem answer_requests (v : Value) (s : State) : (answer v s).requests = s.requests := rfl
@[simp] theorem answer_results (v : Value) (s : State) : (answer v s).results = s.results := rfl
@[simp] theorem answer_trace (v : Value) (s : State) : (answer v s).trace = s.trace := rfl
@[simp] theorem answer_writeAnswers (v : Value) (s : State) : (answer v s).writeAnswers = s.writeAnswers := rfl
@[simp] theorem answer_readAnswers (v : Value) (s : State) : (answer v s).readAnswers = s.readAnswers := rfl
@[simp] theorem answer_waitsOver (v : Value) (s : State) : (answer v s).waitsOver = s.waitsOver := rfl
@[simp] theorem answer_resetRequested (v : Value) (s : State) : (answer v s).resetRequested = s.resetRequested := rfl
@[simp] theorem answer_freeCount (v : Value) (s : State) : (answer v s).freeCount = s.freeCount := rfl

@[simp] theorem deliver_devAddr (r : OpResult) (s : State) : (deliver r s).devAddr = s.devAddr := rfl
@[simp] theorem deliver_crcPolicy (r : OpResult) (s : State) : (deliver r s).crcPolicy = s.crcPolicy := rfl
@[simp] theorem deliver_phase (r : OpResult) (s : State) : (deliver r s).phase = s.phase := rfl
@[simp] theorem deliver_op (r : OpResult) (s : State) : (deliver r s).op = s.op := rfl
@[simp] theorem deliver_attempt (r : OpResult) (s : State) : (deliver r s).attempt = s.attempt := rfl
@[simp] theorem deliver_x (r : OpResult) (s : State) : (deliver r s).x = s.x := rfl
@[simp] theorem deliver_crc (r : OpResult) (s : State) : (deliver r s).crc = s.crc := rfl
@[simp] theorem deliver_bitcnt (r : OpResult) (s : State) : (deliver r s).bitcnt = s.bitcnt := rfl
@[simp] theorem deliver_tx (r : OpResult) (s : State) : (deliver r s).tx = s.tx := rfl
@[simp] theorem deliver_txLen (r : OpResult) (s : State) : (deliver r s).txLen = s.txLen := rfl
@[simp] theorem deliver_rx (r : OpResult) (s : State) : (deliver r s).rx = s.rx := rfl
@[simp] theorem deliver_rxLen (r : OpResult) (s : State) : (deliver r s).rxLen = s.rxLen := rfl
@[simp] theorem deliver_result (r : OpResult) (s : State) : (deliver r s).result = s.result := rfl
@[simp] theorem deliver_crcOk (r : OpResult) (s : State) : (deliver r s).crcOk = s.crcOk := rfl
@[simp] theorem deliver_idMatch (r : OpResult) (s : State) : (deliver r s).idMatch = s.idMatch := rfl
@[simp] theorem deliver_requests (r : OpResult) (s : State) : (deliver r s).requests = s.requests := rfl
@[simp] theorem deliver_results (r : OpResult) (s : State) : (deliver r s).results = s.results ++ [r] := rfl
@[simp] theorem deliver_trace (r : OpResult) (s : State) : (deliver r s).trace = s.trace := rfl
@[simp] theorem deliver_writeAnswers (r : OpResult) (s : State) : (deliver r s).writeAnswers = s.writeAnswers := rfl
@[simp] theorem deliver_readAnswers (r : OpResult) (s : State) : (deliver r s).readAnswers = s.readAnswers := rfl
@[simp] theorem deliver_waitsOver (r : OpResult) (s : State) : (deliver r s).waitsOver = s.waitsOver := rfl
@[simp] theorem deliver_resetRequested (r : OpResult) (s : State) : (deliver r s).resetRequested = s.resetRequested := rfl
@[simp] theorem deliver_freeCount (r : OpResult) (s : State) : (deliver r s).freeCount = s.freeCount := rfl

@[simp] theorem blank_devAddr (s : State) : s.blank.devAddr = s.devAddr := rfl
@[simp] theorem blank_crcPolicy (s : State) : s.blank.crcPolicy = s.crcPolicy := rfl
@[simp] theorem blank_phase (s : State) : s.blank.phase = s.phase := rfl
@[simp] theorem blank_op (s : State) : s.blank.op = none := rfl
@[simp] theorem blank_attempt (s : State) : s.blank.attempt = none := rfl
@[simp] theorem blank_x (s : State) : s.blank.x = Vector.replicate 6 none := rfl
@[simp] theorem blank_crc (s : State) : s.blank.crc = s.crc := rfl
@[simp] theorem blank_bitcnt (s : State) : s.blank.bitcnt = 0 := rfl
@[simp] theorem blank_tx (s : State) : s.blank.tx = [] := rfl
@[simp] theorem blank_txLen (s : State) : s.blank.txLen = 0 := rfl
@[simp] theorem blank_rx (s : State) : s.blank.rx = [] := rfl
@[simp] theorem blank_rxLen (s : State) : s.blank.rxLen = 0 := rfl
@[simp] theorem blank_result (s : State) : s.blank.result = none := rfl
@[simp] theorem blank_crcOk (s : State) : s.blank.crcOk = Vector.replicate 6 none := rfl
@[simp] theorem blank_idMatch (s : State) : s.blank.idMatch = none := rfl
@[simp] theorem blank_requests (s : State) : s.blank.requests = s.requests := rfl
@[simp] theorem blank_results (s : State) : s.blank.results = s.results := rfl
@[simp] theorem blank_trace (s : State) : s.blank.trace = s.trace := rfl
@[simp] theorem blank_writeAnswers (s : State) : s.blank.writeAnswers = s.writeAnswers := rfl
@[simp] theorem blank_readAnswers (s : State) : s.blank.readAnswers = s.readAnswers := rfl
@[simp] theorem blank_waitsOver (s : State) : s.blank.waitsOver = s.waitsOver := rfl
@[simp] theorem blank_resetRequested (s : State) : s.blank.resetRequested = s.resetRequested := rfl
@[simp] theorem blank_freeCount (s : State) : s.blank.freeCount = s.freeCount := rfl

@[simp] theorem finish_devAddr (r : OpResult) (s : State) : (finish r s).devAddr = s.devAddr := rfl
@[simp] theorem finish_crcPolicy (r : OpResult) (s : State) : (finish r s).crcPolicy = s.crcPolicy := rfl
@[simp] theorem finish_phase (r : OpResult) (s : State) : (finish r s).phase = .idle := rfl
@[simp] theorem finish_op (r : OpResult) (s : State) : (finish r s).op = none := rfl
@[simp] theorem finish_attempt (r : OpResult) (s : State) : (finish r s).attempt = none := rfl
@[simp] theorem finish_x (r : OpResult) (s : State) : (finish r s).x = Vector.replicate 6 none := rfl
@[simp] theorem finish_crc (r : OpResult) (s : State) : (finish r s).crc = Config.freeCrc s.freeCount := rfl
@[simp] theorem finish_bitcnt (r : OpResult) (s : State) : (finish r s).bitcnt = 0 := rfl
@[simp] theorem finish_tx (r : OpResult) (s : State) : (finish r s).tx = [] := rfl
@[simp] theorem finish_txLen (r : OpResult) (s : State) : (finish r s).txLen = 0 := rfl
@[simp] theorem finish_rx (r : OpResult) (s : State) : (finish r s).rx = [] := rfl
@[simp] theorem finish_rxLen (r : OpResult) (s : State) : (finish r s).rxLen = 0 := rfl
@[simp] theorem finish_result (r : OpResult) (s : State) : (finish r s).result = none := rfl
@[simp] theorem finish_crcOk (r : OpResult) (s : State) : (finish r s).crcOk = Vector.replicate 6 none := rfl
@[simp] theorem finish_idMatch (r : OpResult) (s : State) : (finish r s).idMatch = none := rfl
@[simp] theorem finish_requests (r : OpResult) (s : State) : (finish r s).requests = s.requests := rfl
@[simp] theorem finish_results (r : OpResult) (s : State) : (finish r s).results = s.results ++ [r] := rfl
@[simp] theorem finish_trace (r : OpResult) (s : State) : (finish r s).trace = s.trace := rfl
@[simp] theorem finish_writeAnswers (r : OpResult) (s : State) : (finish r s).writeAnswers = s.writeAnswers := rfl
@[simp] theorem finish_readAnswers (r : OpResult) (s : State) : (finish r s).readAnswers = s.readAnswers := rfl
@[simp] theorem finish_waitsOver (r : OpResult) (s : State) : (finish r s).waitsOver = s.waitsOver := rfl
@[simp] theorem finish_resetRequested (r : OpResult) (s : State) : (finish r s).resetRequested = s.resetRequested := rfl
@[simp] theorem finish_freeCount (r : OpResult) (s : State) : (finish r s).freeCount = s.freeCount + 1 := rfl

@[simp] theorem accept_devAddr (i : Instr) (s : State) : (accept i s).devAddr = s.devAddr := rfl
@[simp] theorem accept_crcPolicy (i : Instr) (s : State) : (accept i s).crcPolicy = s.crcPolicy := rfl
@[simp] theorem accept_phase (i : Instr) (s : State) : (accept i s).phase = .check := rfl
@[simp] theorem accept_op (i : Instr) (s : State) : (accept i s).op = some i := rfl
@[simp] theorem accept_attempt (i : Instr) (s : State) : (accept i s).attempt = some 1 := rfl
@[simp] theorem accept_x (i : Instr) (s : State) : (accept i s).x = Vector.replicate 6 none := rfl
@[simp] theorem accept_crc (i : Instr) (s : State) : (accept i s).crc = s.crc := rfl
@[simp] theorem accept_bitcnt (i : Instr) (s : State) : (accept i s).bitcnt = 0 := rfl
@[simp] theorem accept_tx (i : Instr) (s : State) : (accept i s).tx = [] := rfl
@[simp] theorem accept_txLen (i : Instr) (s : State) : (accept i s).txLen = 0 := rfl
@[simp] theorem accept_rx (i : Instr) (s : State) : (accept i s).rx = [] := rfl
@[simp] theorem accept_rxLen (i : Instr) (s : State) : (accept i s).rxLen = 0 := rfl
@[simp] theorem accept_result (i : Instr) (s : State) : (accept i s).result = none := rfl
@[simp] theorem accept_crcOk (i : Instr) (s : State) : (accept i s).crcOk = Vector.replicate 6 none := rfl
@[simp] theorem accept_idMatch (i : Instr) (s : State) : (accept i s).idMatch = none := rfl
@[simp] theorem accept_requests (i : Instr) (s : State) : (accept i s).requests = s.requests := rfl
@[simp] theorem accept_results (i : Instr) (s : State) : (accept i s).results = s.results := rfl
@[simp] theorem accept_trace (i : Instr) (s : State) : (accept i s).trace = s.trace := rfl
@[simp] theorem accept_writeAnswers (i : Instr) (s : State) : (accept i s).writeAnswers = s.writeAnswers := rfl
@[simp] theorem accept_readAnswers (i : Instr) (s : State) : (accept i s).readAnswers = s.readAnswers := rfl
@[simp] theorem accept_waitsOver (i : Instr) (s : State) : (accept i s).waitsOver = s.waitsOver := rfl
@[simp] theorem accept_resetRequested (i : Instr) (s : State) : (accept i s).resetRequested = s.resetRequested := rfl
@[simp] theorem accept_freeCount (i : Instr) (s : State) : (accept i s).freeCount = s.freeCount := rfl

@[simp] theorem setCrcOk_devAddr (k : Nat) (b : Bool) (s : State) : (setCrcOk k b s).devAddr = s.devAddr := rfl
@[simp] theorem setCrcOk_crcPolicy (k : Nat) (b : Bool) (s : State) : (setCrcOk k b s).crcPolicy = s.crcPolicy := rfl
@[simp] theorem setCrcOk_phase (k : Nat) (b : Bool) (s : State) : (setCrcOk k b s).phase = s.phase := rfl
@[simp] theorem setCrcOk_op (k : Nat) (b : Bool) (s : State) : (setCrcOk k b s).op = s.op := rfl
@[simp] theorem setCrcOk_attempt (k : Nat) (b : Bool) (s : State) : (setCrcOk k b s).attempt = s.attempt := rfl
@[simp] theorem setCrcOk_x (k : Nat) (b : Bool) (s : State) : (setCrcOk k b s).x = s.x := rfl
@[simp] theorem setCrcOk_crc (k : Nat) (b : Bool) (s : State) : (setCrcOk k b s).crc = s.crc := rfl
@[simp] theorem setCrcOk_bitcnt (k : Nat) (b : Bool) (s : State) : (setCrcOk k b s).bitcnt = s.bitcnt := rfl
@[simp] theorem setCrcOk_tx (k : Nat) (b : Bool) (s : State) : (setCrcOk k b s).tx = s.tx := rfl
@[simp] theorem setCrcOk_txLen (k : Nat) (b : Bool) (s : State) : (setCrcOk k b s).txLen = s.txLen := rfl
@[simp] theorem setCrcOk_rx (k : Nat) (b : Bool) (s : State) : (setCrcOk k b s).rx = s.rx := rfl
@[simp] theorem setCrcOk_rxLen (k : Nat) (b : Bool) (s : State) : (setCrcOk k b s).rxLen = s.rxLen := rfl
@[simp] theorem setCrcOk_result (k : Nat) (b : Bool) (s : State) : (setCrcOk k b s).result = s.result := rfl
@[simp] theorem setCrcOk_crcOk (k : Nat) (b : Bool) (s : State) : (setCrcOk k b s).crcOk = s.crcOk.setIfInBounds k (some b) := rfl
@[simp] theorem setCrcOk_idMatch (k : Nat) (b : Bool) (s : State) : (setCrcOk k b s).idMatch = s.idMatch := rfl
@[simp] theorem setCrcOk_requests (k : Nat) (b : Bool) (s : State) : (setCrcOk k b s).requests = s.requests := rfl
@[simp] theorem setCrcOk_results (k : Nat) (b : Bool) (s : State) : (setCrcOk k b s).results = s.results := rfl
@[simp] theorem setCrcOk_trace (k : Nat) (b : Bool) (s : State) : (setCrcOk k b s).trace = s.trace := rfl
@[simp] theorem setCrcOk_writeAnswers (k : Nat) (b : Bool) (s : State) : (setCrcOk k b s).writeAnswers = s.writeAnswers := rfl
@[simp] theorem setCrcOk_readAnswers (k : Nat) (b : Bool) (s : State) : (setCrcOk k b s).readAnswers = s.readAnswers := rfl
@[simp] theorem setCrcOk_waitsOver (k : Nat) (b : Bool) (s : State) : (setCrcOk k b s).waitsOver = s.waitsOver := rfl
@[simp] theorem setCrcOk_resetRequested (k : Nat) (b : Bool) (s : State) : (setCrcOk k b s).resetRequested = s.resetRequested := rfl
@[simp] theorem setCrcOk_freeCount (k : Nat) (b : Bool) (s : State) : (setCrcOk k b s).freeCount = s.freeCount := rfl

@[simp] theorem setIdMatch_devAddr (id : BitVec 32) (s : State) : (setIdMatch id s).devAddr = s.devAddr := rfl
@[simp] theorem setIdMatch_crcPolicy (id : BitVec 32) (s : State) : (setIdMatch id s).crcPolicy = s.crcPolicy := rfl
@[simp] theorem setIdMatch_phase (id : BitVec 32) (s : State) : (setIdMatch id s).phase = s.phase := rfl
@[simp] theorem setIdMatch_op (id : BitVec 32) (s : State) : (setIdMatch id s).op = s.op := rfl
@[simp] theorem setIdMatch_attempt (id : BitVec 32) (s : State) : (setIdMatch id s).attempt = s.attempt := rfl
@[simp] theorem setIdMatch_x (id : BitVec 32) (s : State) : (setIdMatch id s).x = s.x := rfl
@[simp] theorem setIdMatch_crc (id : BitVec 32) (s : State) : (setIdMatch id s).crc = s.crc := rfl
@[simp] theorem setIdMatch_bitcnt (id : BitVec 32) (s : State) : (setIdMatch id s).bitcnt = s.bitcnt := rfl
@[simp] theorem setIdMatch_tx (id : BitVec 32) (s : State) : (setIdMatch id s).tx = s.tx := rfl
@[simp] theorem setIdMatch_txLen (id : BitVec 32) (s : State) : (setIdMatch id s).txLen = s.txLen := rfl
@[simp] theorem setIdMatch_rx (id : BitVec 32) (s : State) : (setIdMatch id s).rx = s.rx := rfl
@[simp] theorem setIdMatch_rxLen (id : BitVec 32) (s : State) : (setIdMatch id s).rxLen = s.rxLen := rfl
@[simp] theorem setIdMatch_result (id : BitVec 32) (s : State) : (setIdMatch id s).result = s.result := rfl
@[simp] theorem setIdMatch_crcOk (id : BitVec 32) (s : State) : (setIdMatch id s).crcOk = s.crcOk := rfl
@[simp] theorem setIdMatch_idMatch (id : BitVec 32) (s : State) : (setIdMatch id s).idMatch = some (id == Config.expectedId) := rfl
@[simp] theorem setIdMatch_requests (id : BitVec 32) (s : State) : (setIdMatch id s).requests = s.requests := rfl
@[simp] theorem setIdMatch_results (id : BitVec 32) (s : State) : (setIdMatch id s).results = s.results := rfl
@[simp] theorem setIdMatch_trace (id : BitVec 32) (s : State) : (setIdMatch id s).trace = s.trace := rfl
@[simp] theorem setIdMatch_writeAnswers (id : BitVec 32) (s : State) : (setIdMatch id s).writeAnswers = s.writeAnswers := rfl
@[simp] theorem setIdMatch_readAnswers (id : BitVec 32) (s : State) : (setIdMatch id s).readAnswers = s.readAnswers := rfl
@[simp] theorem setIdMatch_waitsOver (id : BitVec 32) (s : State) : (setIdMatch id s).waitsOver = s.waitsOver := rfl
@[simp] theorem setIdMatch_resetRequested (id : BitVec 32) (s : State) : (setIdMatch id s).resetRequested = s.resetRequested := rfl
@[simp] theorem setIdMatch_freeCount (id : BitVec 32) (s : State) : (setIdMatch id s).freeCount = s.freeCount := rfl

@[simp] theorem rxLoad_devAddr (bs : List Byte) (s : State) : (rxLoad bs s).devAddr = s.devAddr := rfl
@[simp] theorem rxLoad_crcPolicy (bs : List Byte) (s : State) : (rxLoad bs s).crcPolicy = s.crcPolicy := rfl
@[simp] theorem rxLoad_phase (bs : List Byte) (s : State) : (rxLoad bs s).phase = s.phase := rfl
@[simp] theorem rxLoad_op (bs : List Byte) (s : State) : (rxLoad bs s).op = s.op := rfl
@[simp] theorem rxLoad_attempt (bs : List Byte) (s : State) : (rxLoad bs s).attempt = s.attempt := rfl
@[simp] theorem rxLoad_x (bs : List Byte) (s : State) : (rxLoad bs s).x = s.x := rfl
@[simp] theorem rxLoad_crc (bs : List Byte) (s : State) : (rxLoad bs s).crc = s.crc := rfl
@[simp] theorem rxLoad_bitcnt (bs : List Byte) (s : State) : (rxLoad bs s).bitcnt = s.bitcnt := rfl
@[simp] theorem rxLoad_tx (bs : List Byte) (s : State) : (rxLoad bs s).tx = s.tx := rfl
@[simp] theorem rxLoad_txLen (bs : List Byte) (s : State) : (rxLoad bs s).txLen = s.txLen := rfl
@[simp] theorem rxLoad_rx (bs : List Byte) (s : State) : (rxLoad bs s).rx = Memory.ofBytes bs := rfl
@[simp] theorem rxLoad_rxLen (bs : List Byte) (s : State) : (rxLoad bs s).rxLen = bs.length := rfl
@[simp] theorem rxLoad_result (bs : List Byte) (s : State) : (rxLoad bs s).result = s.result := rfl
@[simp] theorem rxLoad_crcOk (bs : List Byte) (s : State) : (rxLoad bs s).crcOk = s.crcOk := rfl
@[simp] theorem rxLoad_idMatch (bs : List Byte) (s : State) : (rxLoad bs s).idMatch = s.idMatch := rfl
@[simp] theorem rxLoad_requests (bs : List Byte) (s : State) : (rxLoad bs s).requests = s.requests := rfl
@[simp] theorem rxLoad_results (bs : List Byte) (s : State) : (rxLoad bs s).results = s.results := rfl
@[simp] theorem rxLoad_trace (bs : List Byte) (s : State) : (rxLoad bs s).trace = s.trace := rfl
@[simp] theorem rxLoad_writeAnswers (bs : List Byte) (s : State) : (rxLoad bs s).writeAnswers = s.writeAnswers := rfl
@[simp] theorem rxLoad_readAnswers (bs : List Byte) (s : State) : (rxLoad bs s).readAnswers = s.readAnswers := rfl
@[simp] theorem rxLoad_waitsOver (bs : List Byte) (s : State) : (rxLoad bs s).waitsOver = s.waitsOver := rfl
@[simp] theorem rxLoad_resetRequested (bs : List Byte) (s : State) : (rxLoad bs s).resetRequested = s.resetRequested := rfl
@[simp] theorem rxLoad_freeCount (bs : List Byte) (s : State) : (rxLoad bs s).freeCount = s.freeCount := rfl

@[simp] theorem resetBlock_devAddr (s : State) : (resetBlock s).devAddr = Config.devAddrDefault := rfl
@[simp] theorem resetBlock_crcPolicy (s : State) : (resetBlock s).crcPolicy = .acceptAlways := rfl
@[simp] theorem resetBlock_phase (s : State) : (resetBlock s).phase = .idle := rfl
@[simp] theorem resetBlock_op (s : State) : (resetBlock s).op = none := rfl
@[simp] theorem resetBlock_attempt (s : State) : (resetBlock s).attempt = none := rfl
@[simp] theorem resetBlock_x (s : State) : (resetBlock s).x = Vector.replicate 6 none := rfl
@[simp] theorem resetBlock_crc (s : State) : (resetBlock s).crc = Config.freeCrc s.freeCount := rfl
@[simp] theorem resetBlock_bitcnt (s : State) : (resetBlock s).bitcnt = 0 := rfl
@[simp] theorem resetBlock_tx (s : State) : (resetBlock s).tx = [] := rfl
@[simp] theorem resetBlock_txLen (s : State) : (resetBlock s).txLen = 0 := rfl
@[simp] theorem resetBlock_rx (s : State) : (resetBlock s).rx = [] := rfl
@[simp] theorem resetBlock_rxLen (s : State) : (resetBlock s).rxLen = 0 := rfl
@[simp] theorem resetBlock_result (s : State) : (resetBlock s).result = none := rfl
@[simp] theorem resetBlock_crcOk (s : State) : (resetBlock s).crcOk = Vector.replicate 6 none := rfl
@[simp] theorem resetBlock_idMatch (s : State) : (resetBlock s).idMatch = none := rfl
@[simp] theorem resetBlock_requests (s : State) : (resetBlock s).requests = s.requests := rfl
@[simp] theorem resetBlock_results (s : State) : (resetBlock s).results = s.results := rfl
@[simp] theorem resetBlock_trace (s : State) : (resetBlock s).trace = s.trace := rfl
@[simp] theorem resetBlock_writeAnswers (s : State) : (resetBlock s).writeAnswers = s.writeAnswers := rfl
@[simp] theorem resetBlock_readAnswers (s : State) : (resetBlock s).readAnswers = s.readAnswers := rfl
@[simp] theorem resetBlock_waitsOver (s : State) : (resetBlock s).waitsOver = s.waitsOver := rfl
@[simp] theorem resetBlock_resetRequested (s : State) : (resetBlock s).resetRequested = false := rfl
@[simp] theorem resetBlock_freeCount (s : State) : (resetBlock s).freeCount = s.freeCount + 1 := rfl

end Sys2Proof.Machine
end

