-- ==== Sys2Proof/Laws/Ops.lean ====
section
/-! SUPPORT. One lemma for each shared operation: everything it does when its operands are there. -/

namespace Sys2Proof.Machine

/-! ### Word registers -/

theorem setX_eq {i : Nat} (h : i < Config.numWordRegs) (w : Word) (s : State) :
    setX i w s = .ok { s with x := s.x.setIfInBounds i (some w) } := if_pos h

theorem setX_none {i : Nat} (h : ¬ i < Config.numWordRegs) (w : Word) (s : State) :
    setX i w s = .error (.noSuchRegister i) := if_neg h

theorem readX_eq_ok {i : Nat} {s : State} {w : Word} : readX i s = .ok w ↔ s.x[i]? = some (some w) := by
  unfold readX
  split
  · rename_i v hv
    simp [hv]
  · rename_i hv
    constructor
    · intro h; cases h
    · intro h; exact absurd h (hv w)

/-- Words loaded from register `k` on are in those registers, and every other register is as before. -/
theorem loadWords_eq (ws : List Word) (k : Nat) (s : State) (h : k + ws.length ≤ Config.numWordRegs) :
    ∃ x', loadWords ws k s = .ok { s with x := x' } ∧
      ∀ j, j < Config.numWordRegs → x'[j]? = if k ≤ j ∧ j < k + ws.length then some (ws[j - k]?) else s.x[j]? := by
  induction ws generalizing k s with
  | nil =>
    refine ⟨s.x, rfl, fun j _ => ?_⟩
    rw [if_neg (by simp)]
  | cons w ws ih =>
    simp only [List.length_cons] at h
    obtain ⟨x', hx, hj⟩ := ih (k + 1) { s with x := s.x.setIfInBounds k (some w) } (by omega)
    refine ⟨x', ?_, fun j hjlt => ?_⟩
    · rw [loadWords, setX_eq (by omega)]
      exact hx
    · rw [hj j hjlt]
      simp only [List.length_cons]
      by_cases h1 : j = k
      · subst h1
        have h2 : ¬ (j + 1 ≤ j ∧ j < j + 1 + ws.length) := by omega
        have h3 : j ≤ j ∧ j < j + (ws.length + 1) := by omega
        have h6 : j < 6 := hjlt
        rw [if_neg h2, if_pos h3]
        simp [h6]
      · by_cases h2 : k + 1 ≤ j ∧ j < k + 1 + ws.length
        · have h3 : k ≤ j ∧ j < k + (ws.length + 1) := by omega
          rw [if_pos h2, if_pos h3]
          obtain ⟨d, rfl⟩ : ∃ d, j = k + 1 + d := ⟨j - (k + 1), by omega⟩
          simp [show k + 1 + d - k = d + 1 by omega]
        · have h3 : ¬ (k ≤ j ∧ j < k + (ws.length + 1)) := by omega
          rw [if_neg h2, if_neg h3]
          rw [Vector.getElem?_setIfInBounds]
          simp [Ne.symm h1]

theorem readWords_eq (ws : List Word) (k : Nat) (s : State)
    (h : ∀ j, j < ws.length → s.x[k + j]? = some (ws[j]?)) : readWords ws.length k s = .ok ws := by
  induction ws generalizing k with
  | nil => rfl
  | cons w ws ih =>
    have h0 : readX k s = .ok w := readX_eq_ok.2 (by simpa using h 0 (by simp))
    have hs : readWords ws.length (k + 1) s = .ok ws := by
      refine ih (k + 1) fun j hj => ?_
      have := h (j + 1) (by simpa using hj)
      rw [show k + 1 + j = k + (j + 1) by omega, this]
      simp
    simp [readWords, h0, hs]

/-- Reading words depends on the word registers only. -/
theorem readWords_congr (n k : Nat) {t t' : State} (h : t.x = t'.x) : readWords n k t = readWords n k t' := by
  induction n generalizing k with
  | zero => rfl
  | succ n ih => simp only [readWords, readX, h, ih]

/-- Words loaded from `x[0]` on are read back. -/
theorem loadWords_readWords (ws : List Word) (s : State) (h : ws.length ≤ Config.numWordRegs) :
    ∃ x', loadWords ws 0 s = .ok { s with x := x' } ∧ readWords ws.length 0 { s with x := x' } = .ok ws := by
  obtain ⟨x', hx, hj⟩ := loadWords_eq ws 0 s (by omega)
  refine ⟨x', hx, readWords_eq ws 0 _ fun j hlt => ?_⟩
  show x'[0 + j]? = _
  rw [Nat.zero_add, hj j (by omega), if_pos (by omega)]
  rfl

/-! ### The encoder -/

theorem txWrite_eq {i : Nat} {bs : List Byte} (h : i + bs.length ≤ Config.txCap) (s : State) :
    txWrite i bs s = .ok { s with tx := s.tx.writeBytes i bs } := if_pos h

theorem encodeTriple_length (w : Word) : (encodeTriple w).length = 3 := rfl

theorem encodeFrame_length (cmd : Word) (ws : List Word) : (encodeFrame cmd ws).length = 2 + 3 * ws.length := by
  induction ws with
  | nil => rfl
  | cons w ws ih =>
    simp only [encodeFrame, encodeCommand, List.flatMap_cons, List.length_append, List.length_cons, List.length_nil,
      encodeTriple_length] at ih ⊢
    omega

/-- The loop of R92: the triples of the words, in order, behind what stands in `tx`; only the CRC unit changes besides. -/
theorem encodeTriples_eq (ws : List Word) (k : Nat) (s : State)
    (hr : readWords ws.length k s = .ok ws) (hc : 2 + 3 * (k + ws.length) ≤ Config.txCap) :
    ∃ c b, (s.bitcnt = 0 → b = 0) ∧ encodeTriples ws.length k s =
      .ok { s with tx := s.tx.writeBytes (2 + 3 * k) (ws.flatMap encodeTriple), crc := c, bitcnt := b } := by
  induction ws generalizing k s with
  | nil => exact ⟨s.crc, s.bitcnt, id, rfl⟩
  | cons w ws ih =>
    simp only [List.length_cons] at hr hc
    unfold readWords at hr
    split at hr
    · cases hr
    · rename_i w' hw
      split at hr
      · cases hr
      · rename_i ws' hws
        cases hr
        let s1 : State := { s with
          tx := s.tx.writeBytes (2 + 3 * k) (encodeTriple w), crc := crc8 [highByte w, lowByte w], bitcnt := 0 }
        obtain ⟨c, b, hb, he⟩ := ih (k + 1) s1 (by rw [readWords_congr _ _ (t := s1) (t' := s) rfl]; exact hws) (by omega)
        refine ⟨c, b, fun _ => hb rfl, ?_⟩
        rw [List.length_cons, encodeTriples, hw]
        simp only [crc8Op_eq]
        rw [txWrite_eq (by simp only [List.length_cons, List.length_nil]; omega)]
        show encodeTriples ws.length (k + 1) s1 = _
        rw [he, List.flatMap_cons, Memory.writeBytes_append, encodeTriple_length,
          show 2 + 3 * (k + 1) = 2 + 3 * k + 3 by omega]

/-- R92: the frame of the words in `x[0..n-1]` is in `tx` from index 0 on, and `tx_len` is its length. -/
theorem encodeFrameOp_eq (cmd : Word) (ws : List Word) (s : State)
    (hr : readWords ws.length 0 s = .ok ws) (hc : ws.length ≤ Config.maxWords) :
    ∃ c b, (s.bitcnt = 0 → b = 0) ∧ encodeFrameOp cmd ws.length s =
      .ok { s with tx := s.tx.writeBytes 0 (encodeFrame cmd ws), txLen := 2 + 3 * ws.length, crc := c, bitcnt := b } := by
  have hc' : ws.length ≤ 2 := hc
  let s1 : State := { s with tx := s.tx.writeBytes 0 (Sys2Proof.encodeCommand cmd) }
  obtain ⟨c, b, hb, he⟩ := encodeTriples_eq ws 0 s1 (by rw [readWords_congr _ _ (t := s1) (t' := s) rfl]; exact hr)
    (by show 2 + 3 * (0 + ws.length) ≤ 8; omega)
  refine ⟨c, b, hb, ?_⟩
  rw [encodeFrameOp, txWrite_eq (by show 0 + 2 ≤ 8; omega)]
  show (match encodeTriples ws.length 0 s1 with | .error f => _ | .ok s'' => _) = _
  rw [he, encodeFrame, Memory.writeBytes_append]
  rfl

/-- R91: the one byte is in `tx` at index 0. -/
theorem encodeNarrowOp_eq (b : Byte) (s : State) :
    encodeNarrowOp b s = .ok { s with tx := s.tx.writeBytes 0 (Sys2Proof.encodeNarrow b), txLen := 1 } := rfl

/-- What `MemRead` of the whole frame gives after the frame was written. -/
theorem memRead_tx_writeBytes (s : State) (bs : List Byte) (hs : s.txLen = bs.length) :
    memRead .tx 0 s.txLen { s with tx := s.tx.writeBytes 0 bs } = .ok bs := by
  have hle : 0 + s.txLen ≤ State.bufferLen { s with tx := s.tx.writeBytes 0 bs } .tx := by
    show 0 + s.txLen ≤ s.txLen
    omega
  rw [memRead, if_pos hle, hs]
  exact readCells_writeBytes .tx s.tx 0 bs

/-! ### The decoder -/

theorem rxByte_eq {s : State} {bs : List Byte} (h : s.Received bs) {i : Nat} (hi : i < bs.length) :
    rxByte i s = .ok (bs.getD i 0) := by
  rw [rxByte, if_pos (by rw [h.1]; exact hi), h.2 i]
  simp [hi]

/-- The loop of R93: word and flag of each triple go to their places; besides them only the CRC unit changes. -/
theorem decodeTriples_eq (n k : Nat) (s : State) (bs : List Byte) (hr : s.Received bs)
    (hb : 3 * (k + n) ≤ bs.length) (hx : k + n ≤ Config.numWordRegs) :
    ∃ s', decodeTriples n k s = .ok s' ∧
      s' = { s with x := s'.x, crcOk := s'.crcOk, crc := s'.crc, bitcnt := s'.bitcnt } ∧
      (s.bitcnt = 0 → s'.bitcnt = 0) ∧
      ∀ j, j < Config.numWordRegs →
        (s'.x[j]? = if k ≤ j ∧ j < k + n then some (some (wordAt bs j)) else s.x[j]?) ∧
        (s'.crcOk[j]? = if k ≤ j ∧ j < k + n then some (some (tripleOkAt bs j)) else s.crcOk[j]?) := by
  induction n generalizing k s with
  | zero =>
    refine ⟨s, rfl, rfl, id, fun j _ => ?_⟩
    rw [if_neg (by omega), if_neg (by omega)]
    exact ⟨rfl, rfl⟩
  | succ n ih =>
    let s1 : State := { s with
      x := s.x.setIfInBounds k (some (wordAt bs k)), crc := crc8 [bs.getD (3 * k) 0, bs.getD (3 * k + 1) 0], bitcnt := 0,
      crcOk := s.crcOk.setIfInBounds k (some (tripleOkAt bs k)) }
    obtain ⟨s', he, hs, hz, hj⟩ := ih (k + 1) s1 ⟨hr.1, hr.2⟩ (by omega) (by omega)
    refine ⟨s', ?_, ?_, fun _ => hz rfl, fun j hjlt => ?_⟩
    · rw [decodeTriples, rxByte_eq hr (by omega), rxByte_eq hr (by omega), rxByte_eq hr (by omega)]
      simp only
      rw [setX_eq (by omega)]
      simp only [crc8Op_eq, setCrcOk]
      exact he
    · rw [hs]
    · have hk6 : j < 6 := hjlt
      obtain ⟨h1, h2⟩ := hj j hjlt
      rw [h1, h2]
      by_cases hjk : j = k
      · subst hjk
        rw [if_neg (by omega), if_pos (by omega), if_neg (by omega), if_pos (by omega)]
        simp [s1, hk6]
      · by_cases hin : k + 1 ≤ j ∧ j < k + 1 + n
        · rw [if_pos hin, if_pos (by omega), if_pos hin, if_pos (by omega)]
          exact ⟨rfl, rfl⟩
        · rw [if_neg hin, if_neg (by omega), if_neg hin, if_neg (by omega)]
          simp only [s1, Vector.getElem?_setIfInBounds]
          simp [Ne.symm hjk]

theorem firstBadTriple_eq (n k : Nat) (s : State) (f : Nat → Bool)
    (h : ∀ j, k ≤ j → j < k + n → s.crcOk[j]? = some (some (f j))) :
    firstBadTriple n k s = .ok ((List.range' k n).find? fun j => !f j) := by
  induction n generalizing k with
  | zero => rfl
  | succ n ih =>
    have h0 : readCrcOk k s = .ok (f k) := by simp [readCrcOk, h k (by omega) (by omega)]
    rw [firstBadTriple, h0, List.range'_succ, List.find?_cons]
    cases hf : f k
    · rfl
    · exact ih (k + 1) fun j h1 h2 => h j (by omega) (by omega)

/-- R93: the decoder answers what `decodeOutcome` says of the bytes received, and leaves their words and flags in `x` and
`crc_ok`; besides them only the CRC unit changes. -/
theorem decodeWordsOp_eq (m : Nat) (policy : CrcPolicy) (s : State) (bs : List Byte) (hr : s.Received bs)
    (hm : m ≤ Config.numWordRegs) :
    ∃ s', decodeWordsOp m policy s = .ok (s', decodeOutcome m policy bs) ∧
      s' = { s with x := s'.x, crcOk := s'.crcOk, crc := s'.crc, bitcnt := s'.bitcnt } ∧
      (s.bitcnt = 0 → s'.bitcnt = 0) ∧
      (¬ bs.length < 3 * m → ∀ j, j < m →
        s'.x[j]? = some (some (wordAt bs j)) ∧ s'.crcOk[j]? = some (some (tripleOkAt bs j))) := by
  by_cases hlt : bs.length < 3 * m
  · refine ⟨s, ?_, rfl, id, fun h => absurd hlt h⟩
    rw [decodeWordsOp, if_pos (by rw [hr.1]; exact hlt), hr.1, decodeOutcome.eq_def, if_pos hlt]
  · obtain ⟨s', he, hs, hz, hj⟩ := decodeTriples_eq m 0 s bs hr (by omega) (by omega)
    have hx : ∀ j, j < m → s'.x[j]? = some (some (wordAt bs j)) := fun j h => by
      rw [(hj j (by omega)).1, if_pos (by omega)]
    have hok : ∀ j, j < m → s'.crcOk[j]? = some (some (tripleOkAt bs j)) := fun j h => by
      rw [(hj j (by omega)).2, if_pos (by omega)]
    refine ⟨s', ?_, hs, hz, fun _ j h => ⟨hx j h, hok j h⟩⟩
    have hw : readWords m 0 s' = .ok ((List.range m).map (wordAt bs)) := by
      have := readWords_eq ((List.range m).map (wordAt bs)) 0 s' fun j h => by
        simp only [List.length_map, List.length_range] at h
        rw [Nat.zero_add, hx j h]
        simp [h]
      simpa using this
    have hb : firstBadTriple m 0 s' = .ok (firstBadAt bs m) := by
      rw [firstBadTriple_eq m 0 s' (tripleOkAt bs) fun j _ h => hok j (by omega), firstBadAt, List.range_eq_range']
    rw [decodeWordsOp, if_neg (by rw [hr.1]; exact hlt), he]
    simp only [hb, hw, decodeOutcome.eq_def, if_neg hlt]
    rfl

/-- A loaded response is what was received. -/
theorem received_rxLoad (bs : List Byte) (s : State) : (rxLoad bs s).Received bs :=
  ⟨rfl, Memory.read_ofBytes bs⟩

/-- R94: the two bytes as one word, or the count of bytes when there are fewer. -/
theorem decodeRawWordOp_eq (s : State) (bs : List Byte) (hr : s.Received bs) :
    decodeRawWordOp s =
      if bs.length < 2 then .ok (s, .error bs.length)
      else .ok ({ s with x := s.x.setIfInBounds 0 (some (wordAt bs 0)) }, .ok (wordAt bs 0)) := by
  by_cases h : bs.length < 2
  · rw [decodeRawWordOp, if_pos (by rw [hr.1]; exact h), if_pos h, hr.1]
  · rw [decodeRawWordOp, if_neg (by rw [hr.1]; exact h), if_neg h, rxByte_eq hr (by omega), rxByte_eq hr (by omega)]
    rfl

end Sys2Proof.Machine
end

