-- ==== Sys2Proof/Laws/Sequencer.lean ====
section
/-! SUPPORT. One lemma for each phase of a command: what it leads to when the environment answers, and the runs built from them. -/

namespace Sys2Proof.Machine

/-! ### What of a state survives an operation -/

/-- The part of a state that an operation's end does not wipe out (R21): all but the transient state, the phase and `crc`. -/
def State.outside (s : State) : State := { s.blank with phase := .idle, crc := 0 }

theorem finish_outside (r : OpResult) (s : State) : finish r s = finish r s.outside := rfl

/-- The end of an operation depends on the surviving part only. -/
theorem finish_congr (r : OpResult) {s t : State} (h : s.outside = t.outside) : finish r s = finish r t := by
  rw [finish_outside, h, ← finish_outside]

theorem outside_wrote {s t : State} (h : t.outside = s.outside) (bytes : List Byte) (a : WriteAnswer)
    (rest : List WriteAnswer) : (t.wrote bytes a rest).outside = (s.wrote bytes a rest).outside := by
  have h2 := congrArg (fun u => State.wrote u bytes a rest) h
  exact h2

theorem outside_heard {s t : State} (h : t.outside = s.outside) (n : Nat) (a : ReadAnswer)
    (rest : List ReadAnswer) : (t.heard n a rest).outside = (s.heard n a rest).outside :=
  congrArg (fun u => State.heard u n a rest) h

theorem outside_waited {s t : State} (h : t.outside = s.outside) (w : Wait) (k : Nat) :
    (t.waited w k).outside = (s.waited w k).outside :=
  congrArg (fun u => State.waited u w k) h

/-! ### Runs -/

theorem runPhases_moved {c : Command} {s s' : State} (h : phaseStep c s = .moved s') (n : Nat) :
    runPhases c (n + 1) s = runPhases c n s' := by
  rw [runPhases, h]

theorem runPhases_waiting {c : Command} {s s' : State} (h : phaseStep c s = .waiting s') (n : Nat) :
    runPhases c (n + 1) s = .next s' := by
  rw [runPhases, h]

theorem runPhases_idle {c : Command} {s : State} (h : s.phase = .idle) (n : Nat) : runPhases c n s = .next s := by
  cases n with
  | zero => rfl
  | succ n => exact runPhases_waiting (by rw [phaseStep, h]) n

/-- DONE hands the result over and ends the run (R13, R168). -/
theorem runPhases_done {c : Command} {s : State} {r : OpResult} (h : s.phase = .done) (hr : s.result = some r) (n : Nat) :
    runPhases c (n + 1) s = .next (finish r s) := by
  rw [runPhases_moved (s' := finish r s) (by simp only [phaseStep, h, donePhase, hr])]
  exact runPhases_idle rfl n

theorem request_idle {s : State} (h : s.phase = .idle) (i : Instr) (c : Command) :
    request i c s = runPhases c Config.phasesPerStep (accept i s) := by
  rw [request, whenIdle, h]

/-- A request outside IDLE has no effect (R208). -/
theorem whenIdle_busy {s : State} (h : s.phase ≠ .idle) (m : State → Host.Outcome State Fault Refusal) :
    whenIdle s m = .next s := by
  unfold whenIdle
  split
  · rename_i h'
    exact absurd h' h
  · rfl

theorem whenIdle_idle {s : State} (h : s.phase = .idle) (m : State → Host.Outcome State Fault Refusal) :
    whenIdle s m = m s := by
  rw [whenIdle, h]

/-! ### The phases of one attempt -/

/-- A command stands in a phase with its frame in `tx`; apart from the transient state the state is that of `s`. -/
structure AtPhase (s : State) (frame : List Byte) (i : Instr) (n : Nat) (p : Phase) (t : State) : Prop where
  phase : t.phase = p
  frame : memRead .tx 0 t.txLen t = .ok frame
  op : t.op = some i
  attempt : t.attempt = some n
  bitcnt : t.bitcnt = 0
  outside : t.outside = s.outside

/-- A command stands in DONE with this result. -/
structure AtDone (s : State) (r : OpResult) (t : State) : Prop where
  phase : t.phase = .done
  result : t.result = some r
  outside : t.outside = s.outside

theorem AtDone.run {s t : State} {r : OpResult} (h : AtDone s r t) (c : Command) (n : Nat) :
    runPhases c (n + 1) t = .next (finish r s) := by
  rw [runPhases_done h.phase h.result, finish_congr r h.outside]

/-- The frame of a command with these payload words (R50 to R53). -/
def frameOf : CommandCode → List Word → List Byte
  | .narrow b, _ => encodeNarrow b
  | .wide w, ws => encodeFrame w ws

/-- CHECK with a failing argument ends the operation with nothing sent (R162). -/
theorem request_rejected {c : Command} {e : OpError} (hc : c.check = .error e) {s : State} (h : s.phase = .idle) (i : Instr) :
    request i c s = .next (finish (.err e) s) := by
  have hd : AtDone s (.err e) (raise e (accept i s)) := ⟨rfl, rfl, rfl⟩
  rw [request_idle h]
  show runPhases c (31 + 1) _ = _
  rw [runPhases_moved (s' := raise e (accept i s)) (by simp only [phaseStep, accept_phase, checkPhase, hc])]
  exact hd.run c 30

/-- CHECK and ENCODE of an accepted command lead to WRITE with its frame in `tx`. -/
theorem request_to_write {c : Command} {ws : List Word} (hc : c.check = .ok ws) (hl : ws.length = c.payload)
    (hp : c.payload ≤ Config.maxWords) {s : State} (h : s.phase = .idle) (i : Instr) :
    ∃ t, request i c s = runPhases c 30 t ∧ AtPhase s (frameOf c.code ws) i 1 .write t := by
  have hp2 : c.payload ≤ 2 := hp
  obtain ⟨x', hx, hr⟩ := loadWords_readWords ws (accept i s) (by show _ ≤ 6; omega)
  let u : State := { accept i s with x := x', phase := .encode }
  have h1 : phaseStep c (accept i s) = .moved u := by
    simp only [phaseStep, accept_phase, checkPhase, hc, hx]
    rfl
  have h2 : ∃ t, phaseStep c u = .moved t ∧ AtPhase s (frameOf c.code ws) i 1 .write t := by
    cases hcode : c.code with
    | narrow b =>
      have h2 : phaseStep c u = .moved
          { u with tx := u.tx.writeBytes 0 (Sys2Proof.encodeNarrow b), txLen := 1, phase := .write } := by
        simp only [phaseStep, encodePhase, hcode, encodeNarrowOp_eq, u]
      refine ⟨_, h2, ?_⟩
      constructor <;> rfl
    | wide w =>
      obtain ⟨cr, b, hb, he⟩ := encodeFrameOp_eq w ws u 
        (by rw [readWords_congr _ _ (t := u) (t' := { accept i s with x := x' }) rfl]; exact hr) (by rw [hl]; exact hp)
      have hb0 : b = 0 := hb rfl
      subst hb0
      have h3 : phaseStep c u = .moved { u with
          tx := u.tx.writeBytes 0 (encodeFrame w ws), txLen := 2 + 3 * ws.length, crc := cr, bitcnt := 0, phase := .write } := by
        simp only [phaseStep, encodePhase, hcode, u] at he ⊢
        rw [← hl, he]
      refine ⟨_, h3, ?_⟩
      constructor
      case frame =>
        exact memRead_tx_writeBytes { u with txLen := 2 + 3 * ws.length, crc := cr, bitcnt := 0, phase := .write }
          (encodeFrame w ws) (encodeFrame_length w ws).symm
      all_goals rfl
  obtain ⟨t, ht, ha⟩ := h2
  refine ⟨t, ?_, ha⟩
  rw [request_idle h]
  show runPhases c (30 + 1 + 1) _ = _
  rw [runPhases_moved h1, runPhases_moved ht]

section phases
variable {c : Command} {s t : State} {frame : List Byte} {i : Instr} {n : Nat}

theorem AtPhase.devAddr (h : AtPhase s frame i n p t) : t.devAddr = s.devAddr := by
  have h2 := congrArg State.devAddr h.outside
  exact h2
theorem AtPhase.crcPolicy (h : AtPhase s frame i n p t) : t.crcPolicy = s.crcPolicy := by
  have h2 := congrArg State.crcPolicy h.outside
  exact h2
theorem AtPhase.writeAnswers (h : AtPhase s frame i n p t) : t.writeAnswers = s.writeAnswers := by
  have h2 := congrArg State.writeAnswers h.outside
  exact h2
theorem AtPhase.readAnswers (h : AtPhase s frame i n p t) : t.readAnswers = s.readAnswers := by
  have h2 := congrArg State.readAnswers h.outside
  exact h2
theorem AtPhase.waitsOver (h : AtPhase s frame i n p t) : t.waitsOver = s.waitsOver := by
  have h2 := congrArg State.waitsOver h.outside
  exact h2

/-- WRITE without an answer: the block stays in WRITE (U7). -/
theorem AtPhase.write_waits (h : AtPhase s frame i n .write t) (ha : s.writeAnswers = []) :
    phaseStep c t = .waiting t := by
  simp only [phaseStep, h.phase, writePhase, h.frame, busWrite, h.writeAnswers, ha]

/-- WRITE answered with `BusError` (R161). -/
theorem AtPhase.write_error (h : AtPhase s frame i n .write t) {rest : List WriteAnswer}
    (ha : s.writeAnswers = .busError :: rest) :
    ∃ t', phaseStep c t = .moved t' ∧ AtDone (s.wrote frame .busError rest) (.err (.busError .write)) t' := by
  refine ⟨raise (.busError .write) (t.wrote frame .busError rest), ?_, rfl, rfl, outside_wrote h.outside _ _ _⟩
  simp only [phaseStep, h.phase, writePhase, h.frame, busWrite, h.writeAnswers, ha]
  rfl

/-- WRITE answered with `Ok` (R13, R110). -/
theorem AtPhase.write_ok (h : AtPhase s frame i n .write t) {rest : List WriteAnswer}
    (ha : s.writeAnswers = .ok :: rest) :
    phaseStep c t = .moved (afterWrite c (t.wrote frame .ok rest)) := by
  simp only [phaseStep, h.phase, writePhase, h.frame, busWrite, h.writeAnswers, ha]
  rfl

theorem AtPhase.write_ok_done (h : AtPhase s frame i n .write t) {rest : List WriteAnswer}
    (ha : s.writeAnswers = .ok :: rest) (hw : c.wait = none) (hr : c.asked = 0) :
    ∃ t', phaseStep c t = .moved t' ∧ AtDone (s.wrote frame .ok rest) (.ok .unit) t' :=
  ⟨answer .unit (t.wrote frame .ok rest), by rw [h.write_ok ha, afterWrite, hw, afterDelay, if_pos hr],
    rfl, rfl, outside_wrote h.outside _ _ _⟩

theorem AtPhase.write_ok_read (h : AtPhase s frame i n .write t) {rest : List WriteAnswer}
    (ha : s.writeAnswers = .ok :: rest) (hw : c.wait = none) (hr : c.asked ≠ 0) :
    ∃ t', phaseStep c t = .moved t' ∧ AtPhase (s.wrote frame .ok rest) frame i n .read t' :=
  ⟨{ t.wrote frame .ok rest with phase := .read }, by rw [h.write_ok ha, afterWrite, hw, afterDelay, if_neg hr],
    rfl, h.frame, h.op, h.attempt, h.bitcnt, outside_wrote h.outside _ _ _⟩

theorem AtPhase.write_ok_delay (h : AtPhase s frame i n .write t) {rest : List WriteAnswer}
    (ha : s.writeAnswers = .ok :: rest) {w : Wait} (hw : c.wait = some w) :
    ∃ t', phaseStep c t = .moved t' ∧ AtPhase (s.wrote frame .ok rest) frame i n .delay t' :=
  ⟨{ t.wrote frame .ok rest with phase := .delay }, by rw [h.write_ok ha, afterWrite, hw],
    rfl, h.frame, h.op, h.attempt, h.bitcnt, outside_wrote h.outside _ _ _⟩

/-- DELAY while the wait has not ended: the block stays in DELAY (U7, R201, R202). -/
theorem AtPhase.delay_waits (h : AtPhase s frame i n .delay t) (hk : s.waitsOver = 0) {w : Wait}
    (hw : c.backoff = some w ∨ c.backoff = none ∧ c.wait = some w) : phaseStep c t = .waiting t := by
  rcases hw with hw | ⟨hb, hw⟩
  · simp only [phaseStep, h.phase, delayPhase, hw, delay, h.waitsOver, hk]
  · simp only [phaseStep, h.phase, delayPhase, hb, hw, delay, h.waitsOver, hk]

theorem AtPhase.delay_done (h : AtPhase s frame i n .delay t) {k : Nat} (hk : s.waitsOver = k + 1) {w : Wait}
    (hb : c.backoff = none) (hw : c.wait = some w) (hr : c.asked = 0) :
    ∃ t', phaseStep c t = .moved t' ∧ AtDone (s.waited w k) (.ok .unit) t' := by
  refine ⟨answer .unit (t.waited w k), ?_, rfl, rfl, outside_waited h.outside w k⟩
  simp only [phaseStep, h.phase, delayPhase, hb, hw, delay, h.waitsOver, hk, afterDelay, if_pos hr]
  rfl

theorem AtPhase.delay_read (h : AtPhase s frame i n .delay t) {k : Nat} (hk : s.waitsOver = k + 1) {w : Wait}
    (hb : c.backoff = none) (hw : c.wait = some w) (hr : c.asked ≠ 0) :
    ∃ t', phaseStep c t = .moved t' ∧ AtPhase (s.waited w k) frame i n .read t' := by
  refine ⟨{ t.waited w k with phase := .read }, ?_, rfl, h.frame, h.op, h.attempt, h.bitcnt, outside_waited h.outside w k⟩
  simp only [phaseStep, h.phase, delayPhase, hb, hw, delay, h.waitsOver, hk, afterDelay, if_neg hr]
  rfl

/-- The backoff of `identify` leads back to WRITE (R13, R111). -/
theorem AtPhase.delay_write (h : AtPhase s frame i n .delay t) {k : Nat} (hk : s.waitsOver = k + 1) {w : Wait}
    (hb : c.backoff = some w) :
    ∃ t', phaseStep c t = .moved t' ∧ AtPhase (s.waited w k) frame i n .write t' := by
  refine ⟨{ t.waited w k with phase := .write }, ?_, rfl, h.frame, h.op, h.attempt, h.bitcnt, outside_waited h.outside w k⟩
  simp only [phaseStep, h.phase, delayPhase, hb, delay, h.waitsOver, hk]
  rfl

/-- READ without an answer: the block stays in READ (U7). -/
theorem AtPhase.read_waits (h : AtPhase s frame i n .read t) (ha : s.readAnswers = []) :
    phaseStep c t = .waiting t := by
  simp only [phaseStep, h.phase, readPhase, busRead, h.readAnswers, ha]

/-- READ answered with `BusError` (R161). -/
theorem AtPhase.read_error (h : AtPhase s frame i n .read t) {rest : List ReadAnswer}
    (ha : s.readAnswers = .busError :: rest) :
    ∃ t', phaseStep c t = .moved t' ∧ AtDone (s.heard c.asked .busError rest) (.err (.busError .read)) t' := by
  refine ⟨raise (.busError .read) (t.heard c.asked .busError rest), ?_, rfl, rfl, outside_heard h.outside _ _ _⟩
  simp only [phaseStep, h.phase, readPhase, busRead, h.readAnswers, ha]
  rfl

/-- READ answered with bytes: they are in `rx`, and DECODE is next (R110). -/
theorem AtPhase.read_ok (h : AtPhase s frame i n .read t) {rest : List ReadAnswer} {bs : List Byte}
    (ha : s.readAnswers = .ok bs :: rest) :
    ∃ t', phaseStep c t = .moved t' ∧ t'.Received (bs.take c.asked) ∧
      AtPhase (s.heard c.asked (.ok (bs.take c.asked)) rest) frame i n .decode t' := by
  refine ⟨{ rxLoad (bs.take c.asked) (t.heard c.asked (.ok (bs.take c.asked)) rest) with phase := .decode }, ?_,
    received_rxLoad _ (t.heard c.asked (.ok (bs.take c.asked)) rest), rfl, h.frame, h.op, h.attempt, h.bitcnt, outside_heard h.outside _ _ _⟩
  simp only [phaseStep, h.phase, readPhase, busRead, h.readAnswers, ha]
  rfl

/-- The decoder leaves the command where it is, with the words or the error of R93. -/
theorem AtPhase.decodeThen_eq (h : AtPhase s frame i n .decode t) {bs : List Byte} (hr : t.Received bs) {m : Nat}
    (hm : m ≤ Config.numWordRegs) (k : List Word → State → Progress) :
    ∃ t', AtPhase s frame i n .decode t' ∧
      decodeThen m t k =
        match decodeOutcome m s.crcPolicy bs with
        | .error e => .moved (raise e t')
        | .ok ws => k ws t' := by
  obtain ⟨t', he, ht, hz, -⟩ := decodeWordsOp_eq m t.crcPolicy t bs hr hm
  refine ⟨t', ?_, ?_⟩
  · refine ⟨by rw [ht]; exact h.phase, ?_, by rw [ht]; exact h.op, by rw [ht]; exact h.attempt, hz h.bitcnt, ?_⟩
    · have h2 : memRead .tx 0 t'.txLen t' = memRead .tx 0 t.txLen t := by rw [ht]; rfl
      rw [h2]
      exact h.frame
    · rw [← h.outside, ht]
      rfl
  · rw [decodeThen, he, h.crcPolicy]
    cases decodeOutcome m s.crcPolicy bs <;> rfl

end phases

end Sys2Proof.Machine
end

