-- ==== Sys2Proof/Laws/Commands.lean ====
section
/-! SUPPORT. The commands: exec of a command is its request, and the command's own frame is the encoder's. -/

namespace Sys2Proof.Machine

/-- Every command of the map is run by the sequencer. -/
theorem exec_command {i : Instr} {c : Command} (h : commandOf i = some c) (s : State) : exec i s = request i c s := by
  cases i <;> cases h <;> rfl

theorem commandOf_isSome (i : Instr) : (commandOf i).isSome = i.isCommand := by
  cases i <;> rfl

/-- What CHECK accepts is the payload of the instruction (R54, R61). -/
theorem check_payload {i : Instr} {c : Command} (h : commandOf i = some c) {ws : List Word} (hc : c.check = .ok ws) :
    ws = i.payload := by
  cases i <;> cases h
  case setRhtCompensation t u =>
    simp only [rhtCommand, rhtCheck] at hc
    split at hc
    · cases hc
    · split at hc
      · cases hc
      · cases hc; rfl
  case setPressureCompensation p =>
    simp only [pressureCommand, pressureCheck] at hc
    split at hc
    · cases hc
    · cases hc; rfl
  case forcedRecalibration g =>
    simp only [recalibrationCommand, recalibrationCheck] at hc
    split at hc
    · cases hc
    · cases hc; rfl
  all_goals cases hc; rfl

theorem payload_length {i : Instr} {c : Command} (h : commandOf i = some c) : i.payload.length = c.payload := by
  cases i <;> cases h <;> rfl

theorem payload_le {i : Instr} {c : Command} (h : commandOf i = some c) : c.payload ≤ Config.maxWords := by
  cases i <;> cases h <;> exact Nat.le_of_ble_eq_true rfl

/-- The frame a command sends is the frame the encoder gives its instruction. -/
theorem encode_frameOf {i : Instr} {c : Command} (h : commandOf i = some c) :
    ∃ tag, encode i = some (tag, frameOf c.code i.payload) := by
  cases i <;> cases h <;> exact ⟨_, rfl⟩

end Sys2Proof.Machine
end

