-- ==== Sys2Proof/Laws/Course.lean ====
section
/-! SUPPORT. The course of a command: all that one phase can lead to, said once; and the induction over the phases of a run. -/

namespace Sys2Proof.Machine

/-- What DECODE can leave in the places it writes: the end of the operation, or another attempt of `identify` (R111). -/
inductive Decoded (i : Instr) (s : State) : Phase → Option Nat → Option OpResult → Prop where
  | value (v : Value) : Decoded i s .done s.attempt (some (.ok v))
  | error (e : OpError) (he : e.tabledFor s.crcPolicy i = true) (ha : ∀ a, e ≠ .invalidArgument a) :
      Decoded i s .done s.attempt (some (.err e))
  | again (n : Nat) (hi : i = .identify) (hn : s.attempt = some n) (h5 : n ≠ Config.identAttempts) :
      Decoded i s .delay (some (n + 1)) s.result

/-- All that one phase of the command `c` of the instruction `i` can lead to from `s` (R13). -/
inductive Course (i : Instr) (c : Command) (s : State) : State → Prop where
  | rejected (e : OpError) (hp : s.phase = .check) (hc : c.check = .error e) : Course i c s (raise e s)
  | checked (x' : Vector (Option Word) 6) (hp : s.phase = .check) (hc : c.check = .ok i.payload)
      (hr : readWords c.payload 0 { s with x := x', phase := .encode } = .ok i.payload) :
      Course i c s { s with x := x', phase := .encode }
  | encoded (frame : List Byte) (crc : Byte) (b : Nat) (hp : s.phase = .encode) (hb : s.bitcnt = 0 → b = 0)
      (hf : readWords c.payload 0 s = .ok i.payload → frame = frameOf c.code i.payload)
      (hl : frame.length ≤ Config.txCap) (hb8 : s.bitcnt ≤ 8 → b ≤ 8) :
      Course i c s { s with
        tx := s.tx.writeBytes 0 frame, txLen := frame.length, crc := crc, bitcnt := b, phase := .write }
  | notSent (bytes : List Byte) (rest : List WriteAnswer) (hp : s.phase = .write)
      (hm : memRead .tx 0 s.txLen s = .ok bytes) (ha : s.writeAnswers = .busError :: rest) :
      Course i c s (raise (.busError .write) (s.wrote bytes .busError rest))
  | sent (bytes : List Byte) (rest : List WriteAnswer) (hp : s.phase = .write)
      (hm : memRead .tx 0 s.txLen s = .ok bytes) (ha : s.writeAnswers = .ok :: rest) :
      Course i c s (afterWrite c (s.wrote bytes .ok rest))
  | backedOff (w : Wait) (k : Nat) (hp : s.phase = .delay) (hw : c.backoff = some w) (hk : s.waitsOver = k + 1) :
      Course i c s { s.waited w k with phase := .write }
  | waited (w : Wait) (k : Nat) (hp : s.phase = .delay) (hb : c.backoff = none) (hw : c.wait = some w)
      (hk : s.waitsOver = k + 1) : Course i c s (afterDelay c (s.waited w k))
  | passed (hp : s.phase = .delay) (hb : c.backoff = none) (hw : c.wait = none) : Course i c s (afterDelay c s)
  | notHeard (rest : List ReadAnswer) (hp : s.phase = .read) (ha : s.readAnswers = .busError :: rest) :
      Course i c s (raise (.busError .read) (s.heard c.asked .busError rest))
  | heard (bytes : List Byte) (rest : List ReadAnswer) (hp : s.phase = .read) (ha : s.readAnswers = .ok bytes :: rest) :
      Course i c s { rxLoad (bytes.take c.asked) (s.heard c.asked (.ok (bytes.take c.asked)) rest) with phase := .decode }
  | decoded (x' : Vector (Option Word) 6) (ok : Vector (Option Bool) 6) (crc : Byte) (b : Nat) (id : Option Bool)
      (p : Phase) (n : Option Nat) (r : Option OpResult) (hp : s.phase = .decode) (hb : s.bitcnt ≤ 8 → b ≤ 8)
      (hd : Decoded i s p n r) :
      Course i c s { s with
        x := x', crcOk := ok, crc := crc, bitcnt := b, idMatch := id, phase := p, attempt := n, result := r }
  | ended (r : OpResult) (hp : s.phase = .done) (hr : s.result = some r) : Course i c s (finish r s)

/-- The loop of R92 writes `tx` and the CRC unit only, and only inside the capacity. -/
theorem encodeTriples_shape {n k : Nat} {s t : State} (h : encodeTriples n k s = .ok t) :
    ∃ ws crc b, readWords n k s = .ok ws ∧ ws.length = n ∧ (n ≠ 0 → 2 + 3 * (k + n) ≤ Config.txCap) ∧
      (s.bitcnt = 0 → b = 0) ∧ (s.bitcnt ≤ 8 → b ≤ 8) ∧
      t = { s with tx := s.tx.writeBytes (2 + 3 * k) (ws.flatMap encodeTriple), crc := crc, bitcnt := b } := by
  induction n generalizing k s with
  | zero =>
    obtain rfl : s = t := Except.ok.inj h
    exact ⟨[], s.crc, s.bitcnt, rfl, rfl, fun h => absurd rfl h, id, id, rfl⟩
  | succ n ih =>
    unfold encodeTriples at h
    split at h
    · cases h
    · rename_i w hw
      rw [crc8Op_eq] at h
      simp only at h
      split at h
      · cases h
      · rename_i s' hs
        unfold txWrite at hs
        split at hs
        · rename_i hc
          cases hs
          obtain ⟨ws, crc, b, hr, hl, hcap, hb0, hb8, ht⟩ := ih h
          refine ⟨w :: ws, crc, b, ?_, by simp [hl], ?_, fun _ => hb0 rfl, fun _ => hb8 (Nat.zero_le 8), ?_⟩
          · rw [readWords, hw]
            have hr' : readWords n (k + 1) s = .ok ws := by
              rw [← hr]
              exact readWords_congr n (k + 1) rfl
            simp only [hr']
          · intro _
            rcases Nat.eq_zero_or_pos n with h0 | h0
            · have hc' : 2 + 3 * k + 3 ≤ Config.txCap := hc
              omega
            · have := hcap (by omega)
              omega
          · rw [ht, List.flatMap_cons, Memory.writeBytes_append, encodeTriple_length,
              show 2 + 3 * (k + 1) = 2 + 3 * k + 3 by omega]
            rfl
        · cases hs

/-- R92 writes a frame of the words in `x` into `tx`, and the CRC unit, whenever it succeeds. -/
theorem encodeFrameOp_shape {cmd : Word} {n : Nat} {s t : State} (h : encodeFrameOp cmd n s = .ok t) :
    ∃ ws crc b, readWords n 0 s = .ok ws ∧ (encodeFrame cmd ws).length ≤ Config.txCap ∧
      (s.bitcnt = 0 → b = 0) ∧ (s.bitcnt ≤ 8 → b ≤ 8) ∧
      t = { s with
        tx := s.tx.writeBytes 0 (encodeFrame cmd ws), txLen := (encodeFrame cmd ws).length, crc := crc, bitcnt := b } := by
  unfold encodeFrameOp at h
  split at h
  · cases h
  · rename_i s1 h1
    split at h
    · cases h
    · rename_i s2 h2
      cases h
      rw [txWrite_eq (by show 0 + 2 ≤ 8; omega)] at h1
      cases h1
      obtain ⟨ws, crc, b, hr, hl, hcap, hb0, hb8, ht⟩ := encodeTriples_shape h2
      have hlen := encodeFrame_length cmd ws
      refine ⟨ws, crc, b, ?_, ?_, hb0, hb8, ?_⟩
      · rw [← hr]
        exact readWords_congr _ 0 rfl
      · rw [hlen, hl]
        rcases Nat.eq_zero_or_pos n with h0 | h0
        · rw [h0]
          decide
        · have := hcap (by omega)
          omega
      · rw [ht, hlen, hl]
        simp only [encodeFrame, Memory.writeBytes_append]
        rfl

/-- ENCODE writes a frame into `tx`, and the CRC unit (R90 to R92). -/
theorem encodePhase_shape {c : Command} {s t : State} (h : encodePhase c s = .moved t) :
    ∃ frame crc b, (∀ ws, readWords c.payload 0 s = .ok ws → frame = frameOf c.code ws) ∧
      frame.length ≤ Config.txCap ∧ (s.bitcnt = 0 → b = 0) ∧ (s.bitcnt ≤ 8 → b ≤ 8) ∧
      t = { s with tx := s.tx.writeBytes 0 frame, txLen := frame.length, crc := crc, bitcnt := b, phase := .write } := by
  unfold encodePhase at h
  cases hcode : c.code with
  | narrow b =>
    rw [hcode] at h
    cases h
    exact ⟨[b], s.crc, s.bitcnt, fun _ _ => rfl, show 1 ≤ 8 by omega, id, id, rfl⟩
  | wide w =>
    rw [hcode] at h
    simp only at h
    split at h
    · cases h
    · rename_i s' hs
      cases h
      obtain ⟨ws, crc, b, hr, hl, hb0, hb8, rfl⟩ := encodeFrameOp_shape hs
      refine ⟨encodeFrame w ws, crc, b, fun ws' hw => ?_, hl, hb0, hb8, rfl⟩
      rw [hw] at hr
      cases hr
      rfl

/-- Loading words writes `x` only (R12). -/
theorem loadWords_shape {ws : List Word} {k : Nat} {s t : State} (h : loadWords ws k s = .ok t) :
    ∃ x', t = { s with x := x' } := by
  induction ws generalizing k s with
  | nil =>
    obtain rfl : s = t := Except.ok.inj h
    exact ⟨s.x, rfl⟩
  | cons w ws ih =>
    unfold loadWords setX at h
    split at h
    · cases h
    · rename_i s' hs
      split at hs
      · cases hs
        obtain ⟨x', rfl⟩ := ih h
        exact ⟨x', rfl⟩
      · cases hs

/-- The loop of R93 writes `x`, `crc_ok` and the CRC unit only. -/
theorem decodeTriples_shape {n k : Nat} {s t : State} (h : decodeTriples n k s = .ok t) :
    ∃ x' ok crc b, (s.bitcnt ≤ 8 → b ≤ 8) ∧ t = { s with x := x', crcOk := ok, crc := crc, bitcnt := b } := by
  induction n generalizing k s with
  | zero =>
    obtain rfl : s = t := Except.ok.inj h
    exact ⟨s.x, s.crcOk, s.crc, s.bitcnt, id, rfl⟩
  | succ n ih =>
    unfold decodeTriples at h
    split at h
    · cases h
    · split at h
      · cases h
      · split at h
        · cases h
        · split at h
          · cases h
          · rename_i s' hs
            rw [crc8Op_eq] at hs
            unfold setX at hs
            split at hs
            · cases hs
              obtain ⟨x', ok, crc, b, hb, ht⟩ := ih h
              exact ⟨x', ok, crc, b, fun _ => hb (Nat.zero_le 8), ht⟩
            · cases hs

/-- The triple found failing is one of those looked at (R93). -/
theorem firstBadTriple_lt {n k j : Nat} {s : State} (h : firstBadTriple n k s = .ok (some j)) : j < k + n := by
  induction n generalizing k with
  | zero => cases h
  | succ n ih =>
    unfold firstBadTriple at h
    split at h
    · cases h
    · cases h
      omega
    · have := ih h
      omega

/-- The decoder writes `x`, `crc_ok` and the CRC unit only, and raises `DecodeError` only, with the causes of R163. -/
theorem decodeWordsOp_shape {m : Nat} {policy : CrcPolicy} {s t : State} {r : Except OpError (List Word)}
    (h : decodeWordsOp m policy s = .ok (t, r)) :
    (∃ x' ok crc b, (s.bitcnt ≤ 8 → b ≤ 8) ∧ t = { s with x := x', crcOk := ok, crc := crc, bitcnt := b }) ∧
      ∀ e, r = .error e → e.fromDecoder m policy = true ∧ ∃ d, e = .decodeError d := by
  unfold decodeWordsOp at h
  split at h
  · rename_i hlt
    cases h
    exact ⟨⟨s.x, s.crcOk, s.crc, s.bitcnt, id, rfl⟩, fun e he => by
      cases he
      exact ⟨by simp [OpError.fromDecoder, hlt], _, rfl⟩⟩
  · split at h
    · cases h
    · rename_i s' hs
      split at h
      · cases h
      · rename_i bad hb
        split at h
        · cases h
        · cases h
          refine ⟨decodeTriples_shape hs, fun e he => ?_⟩
          unfold judge at he
          split at he
          · cases he
          · split at he
            · cases he
              have := firstBadTriple_lt hb
              exact ⟨by simp [OpError.fromDecoder]; omega, _, rfl⟩
            · cases he

/-- R94 writes `x` only, and finds fewer than two bytes or a word. -/
theorem decodeRawWordOp_shape {s t : State} {r : Except Nat Word} (h : decodeRawWordOp s = .ok (t, r)) :
    (∃ x', t = { s with x := x' }) ∧ ∀ got, r = .error got → got < 2 := by
  unfold decodeRawWordOp at h
  split at h
  · rename_i hlt
    cases h
    exact ⟨⟨s.x, rfl⟩, fun got hg => by cases hg; exact hlt⟩
  · split at h
    · cases h
    · split at h
      · cases h
      · split at h
        · cases h
        · rename_i s' hs
          cases h
          unfold setX at hs
          split at hs
          · cases hs
            exact ⟨⟨_, rfl⟩, fun got hg => by cases hg⟩
          · cases hs

/-- The error of a failing check is one the table of R160 gives the command (R162). -/
theorem check_error_tabled {i : Instr} {c : Command} {e : OpError} (h : commandOf i = some c) (hc : c.check = .error e)
    (policy : CrcPolicy) : e.tabledFor policy i = true := by
  cases i <;> cases h
  case setRhtCompensation t u =>
    simp only [rhtCommand, rhtCheck] at hc
    split at hc
    · cases hc; rfl
    · split at hc
      · cases hc; rfl
      · cases hc
  case setPressureCompensation p =>
    simp only [pressureCommand, pressureCheck] at hc
    split at hc
    · cases hc; rfl
    · cases hc
  case forcedRecalibration g =>
    simp only [recalibrationCommand, recalibrationCheck] at hc
    split at hc
    · cases hc; rfl
    · cases hc
  all_goals cases hc

/-- Every command can end with the error of its write (R160). -/
theorem write_error_tabled {i : Instr} {c : Command} (h : commandOf i = some c) (policy : CrcPolicy) :
    (OpError.busError .write).tabledFor policy i = true := by
  cases i <;> cases h <;> rfl

/-- A command with a response can end with the error of its read (R160). -/
theorem read_error_tabled {i : Instr} {c : Command} (h : commandOf i = some c) (ha : c.asked ≠ 0) (policy : CrcPolicy) :
    (OpError.busError .read).tabledFor policy i = true := by
  cases i <;> cases h <;> first | rfl | exact absurd rfl ha

/-- DECODE of each command of the map ends the operation or, for `identify`, leads to another attempt. -/
theorem decode_shape {i : Instr} {c : Command} {s t : State} (hc : commandOf i = some c) (h : c.decode s = .moved t) :
    ∃ x' ok crc b id p n r, (s.bitcnt ≤ 8 → b ≤ 8) ∧ Decoded i s p n r ∧
      t = { s with x := x', crcOk := ok, crc := crc, bitcnt := b, idMatch := id, phase := p, attempt := n, result := r } := by
  cases i <;> cases hc
  case identify =>
    simp only [identifyCommand, decodeThen] at h
    split at h
    · cases h
    · rename_i s' e hs
      cases h
      obtain ⟨⟨x', ok, crc, b, hb, rfl⟩, he⟩ := decodeWordsOp_shape hs
      obtain ⟨hf, d, rfl⟩ := he e rfl
      exact ⟨x', ok, crc, b, s.idMatch, _, _, _, hb, .error (.decodeError d) hf (by intro a h; cases h), rfl⟩
    · rename_i s' ws hs
      obtain ⟨⟨x', ok, crc, b, hb, rfl⟩, -⟩ := decodeWordsOp_shape hs
      unfold identifyWords at h
      split at h
      · simp only at h
        split at h
        · cases h
        · rename_i n hn
          split at h
          · cases h
            exact ⟨x', ok, crc, b, _, _, _, _, hb, .value _, rfl⟩
          · split at h
            · cases h
              exact ⟨x', ok, crc, b, _, _, _, _, hb, .value _, rfl⟩
            · rename_i h5
              cases h
              exact ⟨x', ok, crc, b, _, _, _, _, hb, .again n rfl hn h5, rfl⟩
      · cases h
  case readMeasurement =>
    simp only [readMeasurementCommand, decodeThen] at h
    split at h
    · cases h
    · rename_i s' e hs
      cases h
      obtain ⟨⟨x', ok, crc, b, hb, rfl⟩, he⟩ := decodeWordsOp_shape hs
      obtain ⟨hf, d, rfl⟩ := he e rfl
      exact ⟨x', ok, crc, b, s.idMatch, _, _, _, hb, .error (.decodeError d) hf (by intro a h; cases h), rfl⟩
    · rename_i s' ws hs
      obtain ⟨⟨x', ok, crc, b, hb, rfl⟩, -⟩ := decodeWordsOp_shape hs
      unfold measurementWords at h
      split at h
      · cases h
        exact ⟨x', ok, crc, b, s.idMatch, _, _, _, hb, .value _, rfl⟩
      · cases h
  case forcedRecalibration g =>
    simp only [recalibrationCommand, decodeThen] at h
    split at h
    · cases h
    · rename_i s' e hs
      cases h
      obtain ⟨⟨x', ok, crc, b, hb, rfl⟩, he⟩ := decodeWordsOp_shape hs
      obtain ⟨hf, d, rfl⟩ := he e rfl
      exact ⟨x', ok, crc, b, s.idMatch, _, _, _, hb, .error (.decodeError d) hf (by intro a h; cases h), rfl⟩
    · rename_i s' ws hs
      obtain ⟨⟨x', ok, crc, b, hb, rfl⟩, -⟩ := decodeWordsOp_shape hs
      unfold correctionWords at h
      split at h
      · split at h
        · rename_i hv
          cases h
          exact ⟨x', ok, crc, b, s.idMatch, _, _, _, hb,
            .error _ (by simpa [OpError.tabledFor] using hv) (by intro a h; cases h), rfl⟩
        · cases h
          exact ⟨x', ok, crc, b, s.idMatch, _, _, _, hb, .value _, rfl⟩
      · cases h
  case factoryReset =>
    simp only [factoryResetCommand, factoryResetDecode] at h
    split at h
    · cases h
    · rename_i s' got hs
      cases h
      obtain ⟨⟨x', rfl⟩, hg⟩ := decodeRawWordOp_shape hs
      exact ⟨x', s.crcOk, s.crc, s.bitcnt, s.idMatch, _, _, _, id,
        .error _ (by simpa [OpError.tabledFor] using hg _ rfl) (by intro a h; cases h), rfl⟩
    · rename_i s' w hs
      obtain ⟨⟨x', rfl⟩, -⟩ := decodeRawWordOp_shape hs
      split at h
      · cases h
        exact ⟨x', s.crcOk, s.crc, s.bitcnt, s.idMatch, _, _, _, id, .value _, rfl⟩
      · rename_i hw
        cases h
        exact ⟨x', s.crcOk, s.crc, s.bitcnt, s.idMatch, _, _, _, id,
          .error _ (by simpa [OpError.tabledFor] using hw) (by intro a h; cases h), rfl⟩
  all_goals cases h

/-- All that one phase of a command can lead to. -/
theorem phaseStep_course {i : Instr} {c : Command} {s t : State} (hc : commandOf i = some c)
    (h : phaseStep c s = .moved t) : Course i c s t := by
  unfold phaseStep at h
  split at h
  · cases h
  · rename_i hp
    unfold checkPhase at h
    split at h
    · rename_i e he
      cases h
      exact .rejected e hp he
    · rename_i ws hw
      have hws := check_payload hc hw
      have hl : ws.length = c.payload := by rw [hws, payload_length hc]
      have h2 : c.payload ≤ 2 := payload_le hc
      obtain ⟨x', hx, hr⟩ := loadWords_readWords ws s (by show _ ≤ 6; omega)
      rw [hx] at h
      cases h
      refine .checked x' hp (by rw [hw, hws]) ?_
      have hr' : readWords c.payload 0 { s with x := x', phase := .encode } = .ok ws := by
        rw [← hl, ← hr]
        exact readWords_congr _ 0 rfl
      rw [hr', hws]
  · rename_i hp
    obtain ⟨frame, crc, b, hf, hl, hb0, hb8, rfl⟩ := encodePhase_shape h
    exact .encoded frame crc b hp hb0 (hf _) hl hb8
  · rename_i hp
    unfold writePhase at h
    split at h
    · cases h
    · rename_i bytes hm
      unfold busWrite at h
      split at h
      · cases h
      · rename_i s' hs
        split at hs
        · cases hs
        · rename_i a rest ha
          cases hs
          cases h
          exact .notSent bytes rest hp hm ha
      · rename_i s' hs
        split at hs
        · cases hs
        · rename_i a rest ha
          cases hs
          cases h
          exact .sent bytes rest hp hm ha
  · rename_i hp
    unfold delayPhase at h
    split at h
    · rename_i w hw
      unfold delay at h
      split at h
      · cases h
      · rename_i s' hs
        split at hs
        · cases hs
        · rename_i k hk
          cases hs
          cases h
          exact .backedOff w k hp hw hk
    · rename_i w hb hw
      unfold delay at h
      split at h
      · cases h
      · rename_i s' hs
        split at hs
        · cases hs
        · rename_i k hk
          cases hs
          cases h
          exact .waited w k hp hb hw hk
    · rename_i hb hw
      cases h
      exact .passed hp hb hw
  · rename_i hp
    unfold readPhase busRead at h
    split at h
    · cases h
    · rename_i s' hs
      split at hs
      · cases hs
      · rename_i a rest ha
        cases a with
        | ok bytes => cases hs
        | busError =>
          cases hs
          cases h
          exact .notHeard rest hp ha
    · rename_i bytes s' hs
      split at hs
      · cases hs
      · rename_i a rest ha
        cases a with
        | busError => cases hs
        | ok bytes =>
          cases hs
          cases h
          exact .heard bytes rest hp ha
  · rename_i hp
    obtain ⟨x', ok, crc, b, id, p, n, r, hb, hd, rfl⟩ := decode_shape hc h
    exact .decoded x' ok crc b id p n r hp hb hd
  · rename_i hp
    unfold donePhase at h
    split at h
    · cases h
    · rename_i r hr
      cases h
      exact .ended r hp hr

/-- DECODE never waits. -/
theorem decode_moves {i : Instr} {c : Command} {s t : State} (hc : commandOf i = some c) : c.decode s ≠ .waiting t := by
  intro h
  cases i <;> cases hc
  case identify =>
    simp only [identifyCommand, decodeThen, identifyWords] at h
    repeat' split at h
    all_goals cases h
  case readMeasurement =>
    simp only [readMeasurementCommand, decodeThen, measurementWords] at h
    repeat' split at h
    all_goals cases h
  case forcedRecalibration g =>
    simp only [recalibrationCommand, decodeThen, correctionWords] at h
    repeat' split at h
    all_goals cases h
  case factoryReset =>
    simp only [factoryResetCommand, factoryResetDecode] at h
    repeat' split at h
    all_goals cases h
  all_goals cases h

/-- A phase that waits leaves the state as it is, and only IDLE, WRITE, DELAY and READ wait. -/
theorem phaseStep_waiting {i : Instr} {c : Command} {s t : State} (hc : commandOf i = some c)
    (h : phaseStep c s = .waiting t) :
    t = s ∧ (s.phase = .idle ∨ s.phase = .write ∧ s.writeAnswers = [] ∨ s.phase = .delay ∧ s.waitsOver = 0 ∨
      s.phase = .read ∧ s.readAnswers = []) := by
  unfold phaseStep at h
  split at h
  · rename_i hp
    cases h
    exact ⟨rfl, .inl hp⟩
  · unfold checkPhase at h
    repeat' split at h
    all_goals cases h
  · unfold encodePhase at h
    repeat' split at h
    all_goals cases h
  · rename_i hp
    unfold writePhase at h
    split at h
    · cases h
    · unfold busWrite at h
      split at h
      · rename_i hs
        split at hs
        · rename_i ha
          cases h
          exact ⟨rfl, .inr (.inl ⟨hp, ha⟩)⟩
        · cases hs
      · cases h
      · cases h
  · rename_i hp
    unfold delayPhase at h
    repeat' split at h
    all_goals first
      | (rename_i hs
         unfold delay at hs
         split at hs
         · rename_i hk
           cases h
           exact ⟨rfl, .inr (.inr (.inl ⟨hp, hk⟩))⟩
         · cases hs)
      | cases h
  · rename_i hp
    unfold readPhase at h
    split at h
    · rename_i hs
      unfold busRead at hs
      split at hs
      · rename_i ha
        cases h
        exact ⟨rfl, .inr (.inr (.inr ⟨hp, ha⟩))⟩
      · cases hs
    · cases h
    · cases h
  · exact absurd h (decode_moves hc)
  · unfold donePhase at h
    split at h <;> cases h

/-- What every phase keeps, a run keeps. -/
theorem runPhases_keeps {i : Instr} {c : Command} (hc : commandOf i = some c) {P : State → Prop}
    (hstep : ∀ s t, P s → Course i c s t → P t) {n : Nat} {s t : State} (hs : P s) (h : runPhases c n s = .next t) : P t := by
  induction n generalizing s with
  | zero => cases h; exact hs
  | succ n ih =>
    unfold runPhases at h
    split at h
    · rename_i s' hm
      exact ih (hstep _ _ hs (phaseStep_course hc hm)) h
    · rename_i s' hw
      cases h
      rw [(phaseStep_waiting hc hw).1]
      exact hs
    · cases h

/-! ### The operations that are no commands -/

/-- What an internal operation can hand over: nothing, a value, or an error it raises on behalf of its caller. -/
inductive HandsOver (i : Instr) (old : List OpResult) : List OpResult → Prop where
  | nothing : HandsOver i old old
  | value (v : Value) : HandsOver i old (old ++ [.ok v])
  | error (e : OpError) (he : e.raisedBy i = true) : HandsOver i old (old ++ [.err e])

/-- The CRC unit over word after word changes itself only. -/
theorem crcOverWords_shape (ws : List Word) (s : State) :
    ∃ crc b, (s.bitcnt ≤ 8 → b ≤ 8) ∧
      ws.foldl (fun t w => crc8Op [highByte w, lowByte w] t) s = { s with crc := crc, bitcnt := b } := by
  induction ws generalizing s with
  | nil => exact ⟨s.crc, s.bitcnt, id, rfl⟩
  | cons w ws ih =>
    obtain ⟨crc, b, hb, he⟩ := ih (crc8Op [highByte w, lowByte w] s)
    refine ⟨crc, b, fun _ => hb ?_, ?_⟩
    · rw [crc8Op_eq]; exact Nat.zero_le 8
    · rw [List.foldl_cons, he, crc8Op_eq]

/-- An operation of the CRC unit or of the codec writes `x`, `crc_ok`, the CRC unit and `tx` only, the last with a frame that fits
(R97), and hands over what it returns. -/
theorem exec_internal {i : Instr} {s t : State} (hc : commandOf i = none) (hcfg : ∀ a p, i ≠ .configure a p)
    (hp : s.phase = .idle) (h : exec i s = .next t) :
    ∃ x' ok crc b tx' len rs, (s.bitcnt ≤ 8 → b ≤ 8) ∧ HandsOver i s.results rs ∧
      (tx' = s.tx ∧ len = s.txLen ∨ ∃ frame : List Byte, frame.length ≤ Config.txCap ∧ tx' = s.tx.writeBytes 0 frame ∧
        len = frame.length) ∧
      t = { s with x := x', crcOk := ok, crc := crc, bitcnt := b, tx := tx', txLen := len, results := rs } := by
  cases i
  case crcBitStep =>
    simp only [exec, execCrcBitStep, whenIdle_idle hp] at h
    split at h
    · cases h
    · cases h
      exact ⟨s.x, s.crcOk, _, _, s.tx, s.txLen, _, fun h => Nat.le_trans (Nat.sub_le _ _) h, .nothing, .inl ⟨rfl, rfl⟩, rfl⟩
  case crcByteStep b =>
    simp only [exec, execCrcByteStep, whenIdle_idle hp, crcByteOp_eq] at h
    split at h
    · cases h
      exact ⟨s.x, s.crcOk, _, _, s.tx, s.txLen, _, fun _ => Nat.zero_le 8, .nothing, .inl ⟨rfl, rfl⟩, rfl⟩
    · cases h
  case crcInit =>
    simp only [exec, execCrcInit, whenIdle_idle hp] at h
    cases h
    exact ⟨s.x, s.crcOk, _, _, s.tx, s.txLen, _, fun _ => Nat.zero_le 8, .nothing, .inl ⟨rfl, rfl⟩, rfl⟩
  case crc8 bytes =>
    simp only [exec, execCrc8, whenIdle_idle hp, crc8Op_eq] at h
    cases h
    exact ⟨s.x, s.crcOk, _, _, s.tx, s.txLen, _, fun _ => Nat.zero_le 8, .value _, .inl ⟨rfl, rfl⟩, rfl⟩
  case crcWord w =>
    simp only [exec, execCrcWord, whenIdle_idle hp, crc8Op_eq] at h
    cases h
    exact ⟨s.x, s.crcOk, _, _, s.tx, s.txLen, _, fun _ => Nat.zero_le 8, .value _, .inl ⟨rfl, rfl⟩, rfl⟩
  case crcCheck hi lo c =>
    simp only [exec, execCrcCheck, whenIdle_idle hp, crc8Op_eq] at h
    cases h
    exact ⟨s.x, s.crcOk, _, _, s.tx, s.txLen, _, fun _ => Nat.zero_le 8, .value _, .inl ⟨rfl, rfl⟩, rfl⟩
  case encodeCommand cmd =>
    simp only [exec, execEncodeCommand, whenIdle_idle hp] at h
    cases h
    exact ⟨s.x, s.crcOk, s.crc, s.bitcnt, s.tx, s.txLen, _, id, .value _, .inl ⟨rfl, rfl⟩, rfl⟩
  case encodeNarrow b =>
    simp only [exec, execEncodeNarrow, whenIdle_idle hp] at h
    cases h
    exact ⟨s.x, s.crcOk, s.crc, s.bitcnt, s.tx, s.txLen, _, id, .value _, .inl ⟨rfl, rfl⟩, rfl⟩
  case encodeFrame cmd words =>
    simp only [exec, execEncodeFrame, whenIdle_idle hp, encodeFrameRun, outcome] at h
    split at h
    · split at h
      · rename_i t' ht
        cases h
        split at ht
        · cases ht
        · rename_i s1 h1
          split at ht
          · cases ht
          · rename_i s2 h2
            split at ht
            · cases ht
            · cases ht
              obtain ⟨x', rfl⟩ := loadWords_shape h1
              obtain ⟨ws, crc, b, -, hl, -, hb8, rfl⟩ := encodeFrameOp_shape h2
              exact ⟨x', s.crcOk, crc, b, _, _, _, hb8, .value _, .inr ⟨_, hl, rfl, rfl⟩, rfl⟩
      · cases h
    · cases h
      obtain ⟨crc, b, hb, he⟩ := crcOverWords_shape words s
      exact ⟨s.x, s.crcOk, crc, b, s.tx, s.txLen, _, hb, .value _, .inl ⟨rfl, rfl⟩, by
        rw [encodeLongFrame, he]; rfl⟩
  case decodeWords m policy =>
    simp only [exec, execDecodeWords, whenIdle_idle hp, decodeWordsRun, outcome] at h
    split at h
    · rename_i t' ht
      cases h
      split at ht
      · cases ht
      · rename_i e hs
        cases ht
        obtain ⟨⟨x', ok, crc, b, hb, rfl⟩, he⟩ := decodeWordsOp_shape hs
        exact ⟨x', ok, crc, b, s.tx, s.txLen, _, hb, .error _ (he _ rfl).1, .inl ⟨rfl, rfl⟩, rfl⟩
      · rename_i ws hs
        cases ht
        obtain ⟨⟨x', ok, crc, b, hb, rfl⟩, -⟩ := decodeWordsOp_shape hs
        exact ⟨x', ok, crc, b, s.tx, s.txLen, _, hb, .value _, .inl ⟨rfl, rfl⟩, rfl⟩
    · cases h
  case decodeRawWord =>
    simp only [exec, execDecodeRawWord, whenIdle_idle hp, decodeRawWordRun, outcome] at h
    split at h
    · rename_i t' ht
      cases h
      split at ht
      · cases ht
      · rename_i got hs
        cases ht
        obtain ⟨⟨x', rfl⟩, hg⟩ := decodeRawWordOp_shape hs
        exact ⟨x', s.crcOk, s.crc, s.bitcnt, s.tx, s.txLen, _, id,
          .error _ (by simpa [OpError.raisedBy] using hg _ rfl), .inl ⟨rfl, rfl⟩, rfl⟩
      · rename_i w hs
        cases ht
        obtain ⟨⟨x', rfl⟩, -⟩ := decodeRawWordOp_shape hs
        exact ⟨x', s.crcOk, s.crc, s.bitcnt, s.tx, s.txLen, _, id, .value _, .inl ⟨rfl, rfl⟩, rfl⟩
    · cases h
  case configure a p => exact absurd rfl (hcfg a p)
  all_goals cases hc

/-- `configure` ends in IDLE with its result, the configuration changed only when the address is legal (R125). -/
theorem exec_configure {a : DevAddr} {p : CrcPolicy} {s t : State} (hp : s.phase = .idle)
    (h : exec (.configure a p) s = .next t) :
    devAddrLegal a = true ∧ t = finish (.ok .unit) { s with devAddr := a, crcPolicy := p } ∨
      devAddrLegal a = false ∧ t = finish (.err (.invalidArgument (.devAddr a))) s := by
  simp only [exec, execConfigure, whenIdle_idle hp] at h
  split at h
  · rename_i ha
    cases h
    exact .inl ⟨ha, rfl⟩
  · rename_i ha
    cases h
    exact .inr ⟨by simpa using ha, rfl⟩

end Sys2Proof.Machine
end

