-- ==== Sys2Proof/Laws/PerInstr.lean ====
section
/-! SUPPORT. Statements made of every instruction, constructor by constructor. -/

namespace Sys2Proof.Laws.FrameLength

/-- `tx_len` of a row of spec/opcode_table.json (30_encoding.md R54); none for a row without a wire form. -/
def tableLength : Instr → Option Nat
  | .identify | .startContinuousMeasurement | .stopContinuousMeasurement | .readMeasurement | .singleShotTrigger
  | .sleep | .factoryReset | .enableTestMode | .disableTestMode => some 2
  | .wake | .softReset => some 1
  | .setRhtCompensation _ _ => some 8
  | .setPressureCompensation _ | .forcedRecalibration _ => some 5
  | .crcBitStep | .crcByteStep _ | .crcInit | .crc8 _ | .crcWord _ | .crcCheck _ _ _
  | .encodeCommand _ | .encodeNarrow _ | .encodeFrame _ _ | .decodeWords _ _ | .decodeRawWord
  | .configure _ _ => none

/-- The encoder gives an instruction as many bytes as the table says. -/
def Statement (i : Instr) : Prop := (encode i).map (fun f => f.2.length) = tableLength i

theorem identify : Statement .identify := rfl
theorem startContinuousMeasurement : Statement .startContinuousMeasurement := rfl
theorem stopContinuousMeasurement : Statement .stopContinuousMeasurement := rfl
theorem readMeasurement : Statement .readMeasurement := rfl
theorem setRhtCompensation (t h : Rat) : Statement (.setRhtCompensation t h) := rfl
theorem setPressureCompensation (p : Rat) : Statement (.setPressureCompensation p) := rfl
theorem singleShotTrigger : Statement .singleShotTrigger := rfl
theorem sleep : Statement .sleep := rfl
theorem wake : Statement .wake := rfl
theorem softReset : Statement .softReset := rfl
theorem factoryReset : Statement .factoryReset := rfl
theorem enableTestMode : Statement .enableTestMode := rfl
theorem disableTestMode : Statement .disableTestMode := rfl
theorem forcedRecalibration (g : Word) : Statement (.forcedRecalibration g) := rfl
theorem crcBitStep : Statement .crcBitStep := rfl
theorem crcByteStep (b : Byte) : Statement (.crcByteStep b) := rfl
theorem crcInit : Statement .crcInit := rfl
theorem crc8 (bytes : List Byte) : Statement (.crc8 bytes) := rfl
theorem crcWord (w : Word) : Statement (.crcWord w) := rfl
theorem crcCheck (hi lo c : Byte) : Statement (.crcCheck hi lo c) := rfl
theorem encodeCommand (cmd : Word) : Statement (.encodeCommand cmd) := rfl
theorem encodeNarrow (cmd8 : Byte) : Statement (.encodeNarrow cmd8) := rfl
theorem encodeFrame (cmd : Word) (words : List Word) : Statement (.encodeFrame cmd words) := rfl
theorem decodeWords (m : Nat) (policy : CrcPolicy) : Statement (.decodeWords m policy) := rfl
theorem decodeRawWord : Statement .decodeRawWord := rfl
theorem configure (a : DevAddr) (policy : CrcPolicy) : Statement (.configure a policy) := rfl

end Sys2Proof.Laws.FrameLength
end

