-- ==== Sys2Proof/Tests/Slice0.lean ====
section
/-! SUPPORT. Tests of the model against 95_test_vectors.md and the examples of the rules, and a witness for the hypotheses of every
statement of Certificates/Slice0/Obligations.lean that has some. -/

namespace Sys2Proof.Tests

open Sys2Proof.Machine Sys2Proof.Claims

-- One theorem after another: each kernel evaluation that waits for the theorems before it holds a thread.
set_option Elab.async false

/-! ### Helpers -/

/-- The block after reset with these answers and waits to come. -/
def withAnswers (ws : List WriteAnswer) (rs : List ReadAnswer) (k : Nat) : State :=
  { State.reset with writeAnswers := ws, readAnswers := rs, waitsOver := k }

/-- The same under the policy `Strict`. -/
def strictly (s : State) : State := { s with crcPolicy := .strict }

/-- The state after reset with these bytes received. -/
def received (bs : List Byte) : State := rxLoad bs State.reset

/-- The next state of an outcome. -/
def nextOf : Host.Outcome State Fault Refusal → Option State
  | .next t => some t
  | .fault _ => none
  | .refused _ => none

/-- The fault of an outcome. -/
def faultOf : Host.Outcome State Fault Refusal → Option Fault
  | .next _ => none
  | .fault f => some f
  | .refused _ => none

/-- What a host sees of an outcome: the phase, the results, the bus. -/
def seen (o : Host.Outcome State Fault Refusal) : Option (Phase × List OpResult × List Event) :=
  (nextOf o).map fun t => (t.phase, t.results, t.trace)

theorem next_of_any {o : Host.Outcome State Fault Refusal} {p : State → Bool} (h : (nextOf o).any p = true) :
    ∃ t, o = .next t ∧ p t = true := by
  cases o with
  | next t => exact ⟨t, rfl, h⟩
  | fault f => cases h
  | refused r => cases h

/-! ### Well-formedness refuses what does not fit -/

theorem test_wf_frame_too_long : (Instr.encodeFrame 0xE000 [0x6666, 0x6666, 0x6666]).wf = false := by decide
theorem test_wf_frame_longest : (Instr.encodeFrame 0xE000 [0x6666, 0x6666]).wf = true := by decide
theorem test_wf_words_too_many : (Instr.decodeWords 7 .strict).wf = false := by decide
theorem test_wf_words_most : (Instr.decodeWords 6 .strict).wf = true := by decide

/-! ### Decoding: words written out from 30_encoding.md R58 and frames from 95_test_vectors.md section 2.6 -/

theorem test_decode_identify : decode .wide [0x36, 0x5B] = .ok (.identify, []) := by decide +kernel
theorem test_decode_start : decode .wide [0x21, 0x8B] = .ok (.startContinuousMeasurement, []) := by decide +kernel
theorem test_decode_stop : decode .wide [0x3F, 0x86] = .ok (.stopContinuousMeasurement, []) := by decide +kernel
theorem test_decode_read : decode .wide [0xEC, 0x05] = .ok (.readMeasurement, []) := by decide +kernel
theorem test_decode_rht :
    decode .wide [0xE0, 0x00, 0x66, 0x66, 0x93, 0x99, 0x99, 0xBE] = .ok (.setRhtCompensation 25 69, []) := by
  decide +kernel
theorem test_decode_pressure :
    decode .wide [0xE0, 0x16, 0xD6, 0xD8, 0xA2] = .ok (.setPressureCompensation 1100, []) := by decide +kernel
theorem test_decode_single_shot : decode .wide [0x21, 0x9D] = .ok (.singleShotTrigger, []) := by decide +kernel
theorem test_decode_sleep : decode .wide [0x36, 0x50] = .ok (.sleep, []) := by decide +kernel
theorem test_decode_wake : decode .narrow [0x00] = .ok (.wake, []) := by decide +kernel
theorem test_decode_soft_reset : decode .narrow [0x06] = .ok (.softReset, []) := by decide +kernel
theorem test_decode_factory_reset : decode .wide [0x36, 0x32] = .ok (.factoryReset, []) := by decide +kernel
theorem test_decode_enable_test : decode .wide [0x3F, 0xBC] = .ok (.enableTestMode, []) := by decide +kernel
theorem test_decode_disable_test : decode .wide [0x3F, 0x3D] = .ok (.disableTestMode, []) := by decide +kernel
theorem test_decode_recalibration :
    decode .wide [0x36, 0x2F, 0x7D, 0x00, 0xFA] = .ok (.forcedRecalibration 32000, []) := by decide +kernel
theorem test_decode_leaves_rest : decode .narrow [0x06, 0x36] = .ok (.softReset, [0x36]) := by decide +kernel
/-- The wide codes 0x0000 and 0x0006 are no commands: the narrow space is another one (R32). -/
theorem test_decode_wide_is_not_narrow :
    decode .wide [0x00, 0x00] = .error (.unknownWide 0x0000) ∧ decode .wide [0x00, 0x06] = .error (.unknownWide 0x0006) := by
  decide +kernel
theorem test_decode_unknown_narrow : decode .narrow [0x36] = .error (.unknownNarrow 0x36) := by decide +kernel
theorem test_decode_short :
    decode .narrow [] = .error .emptyFrame ∧ decode .wide [0x36] = .error .shortCommand ∧
    decode .wide [0x36, 0x2F, 0x01, 0x90] = .error .shortPayload := by decide +kernel
theorem test_wide_codes_distinct : wideCodes.Nodup := by decide
theorem test_table_word_narrow : decodeTableWord 8 0x06 = some .softReset := by decide +kernel
/-- A row with payload bits: the second word of the row counts from bit 16 (spec/98_reader.md). -/
theorem test_table_word_payload : decodeTableWord 32 0x4E20E016 = some (.setPressureCompensation 400) := by decide +kernel
theorem test_table_word_without_bits : decodeTableWord 0 0 = none := by decide +kernel
theorem test_encode_rht :
    encode (.setRhtCompensation 25 44) = some (.wide, [0xE0, 0x00, 0x66, 0x66, 0x93, 0x66, 0x66, 0x93]) := by
  decide +kernel
theorem test_encode_pressure :
    encode (.setPressureCompensation 950) = some (.wide, [0xE0, 0x16, 0xB9, 0x8C, 0xD4]) := by decide +kernel
theorem test_encode_wake : encode .wake = some (.narrow, [0x00]) := by decide +kernel

/-! ### The CRC unit (40_crc8.md, 95_test_vectors.md sections 2.1 and 3.4) -/

theorem test_crc_bit_step_corners :
    crcBitStep 0x00 = 0x00 ∧ crcBitStep 0x80 = 0x31 ∧ crcBitStep 0x7F = 0xFE ∧ crcBitStep 0xFF = 0xCF := by decide
theorem test_crc_byte_step : crcByteStep 0xFF 0xBE = 0x0C := by decide
theorem test_crc8_values :
    crc8 [] = 0xFF ∧ crc8 [0xFF] = 0x00 ∧ crc8 [0x00] = 0xAC ∧ crc8 [0x00, 0x00] = 0x81 ∧ crc8 [0xBE, 0xEF] = 0x92 := by
  decide +kernel
theorem test_crc8_check_value : crc8 [0x31, 0x32, 0x33, 0x34, 0x35, 0x36, 0x37, 0x38, 0x39] = 0xF7 := by decide +kernel
theorem test_crc_word_order : crcWord 0xFF00 = 0x00 ∧ crcWord 0x00FF = 0x2D := by decide +kernel

theorem test_exec_crc_bit_step :
    (nextOf (exec .crcBitStep { State.reset with crc := 0x82, bitcnt := 8 })).map (fun t => (t.crc, t.bitcnt))
      = some (0x35, 7) := by decide +kernel
theorem test_exec_crc_byte_step :
    (nextOf (exec (.crcByteStep 0xB9) { State.reset with crc := 0xFF })).map (fun t => (t.crc, t.bitcnt))
      = some (0x9B, 0) := by decide +kernel
theorem test_exec_crc_init :
    (nextOf (exec .crcInit { State.reset with crc := 0x17, bitcnt := 5 })).map (fun t => (t.crc, t.bitcnt))
      = some (0xFF, 0) := by decide +kernel
theorem test_exec_crc8 :
    (nextOf (exec (.crc8 [0xBE, 0xEF]) State.reset)).map (fun t => (t.crc, t.results))
      = some (0x92, [.ok (.byte 0x92)]) := by decide +kernel
theorem test_exec_crc_word :
    (nextOf (exec (.crcWord 0xB98C) State.reset)).map (fun t => t.results) = some [.ok (.byte 0xD4)] := by decide +kernel
theorem test_exec_crc_check :
    (nextOf (exec (.crcCheck 0x01 0x90 0x4C) State.reset)).map (fun t => t.results) = some [.ok (.bit true)] ∧
    (nextOf (exec (.crcCheck 0x01 0x90 0x4D) State.reset)).map (fun t => t.results) = some [.ok (.bit false)] := by
  decide +kernel

/-! ### The codec (41_frame_codec.md, 95_test_vectors.md sections 2.6 and 2.7) -/

theorem test_exec_encode_command :
    (nextOf (exec (.encodeCommand 0x365B) State.reset)).map (fun t => t.results) = some [.ok (.bytes [0x36, 0x5B])] := by
  decide +kernel
theorem test_exec_encode_narrow :
    (nextOf (exec (.encodeNarrow 0x00) State.reset)).map (fun t => t.results) = some [.ok (.bytes [0x00])] := by
  decide +kernel
theorem test_exec_encode_frame :
    (nextOf (exec (.encodeFrame 0x0000 [0xFF00]) State.reset)).map (fun t => (t.tx, t.txLen, t.results))
      = some ([(0, 0x00), (1, 0x00), (2, 0xFF), (3, 0x00), (4, 0x00)], 5, [.ok (.bytes [0x00, 0x00, 0xFF, 0x00, 0x00])]) := by
  decide +kernel
/-- Three words: eleven bytes, the triples of Program 4 and R92's examples; `tx` is not written. -/
theorem test_exec_encode_long_frame :
    (nextOf (exec (.encodeFrame 0xE000 [0x6666, 0xB98C, 0xFF00]) State.reset)).map (fun t => (t.tx, t.txLen, t.crc, t.results))
      = some ([], 0, 0x00, [.ok (.bytes [0xE0, 0x00, 0x66, 0x66, 0x93, 0xB9, 0x8C, 0xD4, 0xFF, 0x00, 0x00])]) := by
  decide +kernel
theorem test_exec_decode_words_least_bad :
    (nextOf (exec (.decodeWords 4 .strict)
      (received [0x01, 0x90, 0x4D, 0x80, 0x00, 0xA2, 0x80, 0x00, 0xA3, 0x00, 0x00, 0x81]))).map
        (fun t => (t.results, t.crcOk.toList.take 4))
      = some ([.err (.decodeError (.crcMismatch 0))], [some false, some true, some false, some true]) := by decide +kernel
theorem test_exec_decode_words_short :
    (nextOf (exec (.decodeWords 1 .acceptAlways) (received [0x01, 0x90]))).map (fun t => t.results)
      = some [.err (.decodeError (.shortResponse 2 3))] := by decide +kernel
theorem test_exec_decode_raw_word :
    (nextOf (exec .decodeRawWord (received [0x00, 0x01]))).map (fun t => (t.results, t.x[0])) =
      some ([.ok (.word 0x0001)], some 0x0001) := by decide +kernel

/-! ### The commands, one step each (42_commands.md, 95_test_vectors.md sections 2.9 and 3) -/

theorem test_wake :
    seen (exec .wake (withAnswers [.ok] [] 0)) = some (.idle, [.ok .unit], [.write 0x64 [0x00] .ok]) := by decide +kernel
theorem test_soft_reset :
    seen (exec .softReset (withAnswers [.ok] [] 0)) = some (.idle, [.ok .unit], [.write 0x64 [0x06] .ok]) := by
  decide +kernel
theorem test_sleep :
    seen (exec .sleep (withAnswers [.busError] [] 0)) =
      some (.idle, [.err (.busError .write)], [.write 0x64 [0x36, 0x50] .busError]) := by decide +kernel
theorem test_single_shot :
    seen (exec .singleShotTrigger (withAnswers [.ok] [] 0)) =
      some (.idle, [.ok .unit], [.write 0x64 [0x21, 0x9D] .ok]) := by decide +kernel
theorem test_enable_test_mode :
    seen (exec .enableTestMode (withAnswers [.ok] [] 0)) =
      some (.idle, [.ok .unit], [.write 0x64 [0x3F, 0xBC] .ok]) := by decide +kernel
theorem test_disable_test_mode :
    seen (exec .disableTestMode (withAnswers [.ok] [] 0)) =
      some (.idle, [.ok .unit], [.write 0x64 [0x3F, 0x3D] .ok]) := by decide +kernel
theorem test_start_waits :
    seen (exec .startContinuousMeasurement (withAnswers [.ok] [] 0)) =
      some (.delay, [], [.write 0x64 [0x21, 0x8B] .ok]) := by decide +kernel
theorem test_stop :
    seen (exec .stopContinuousMeasurement (withAnswers [.ok] [] 1)) =
      some (.idle, [.ok .unit], [.write 0x64 [0x3F, 0x86] .ok, .wait .settleCont]) := by decide +kernel
/-- Operation 3 of Program 1. -/
theorem test_read_measurement :
    (nextOf (exec .readMeasurement (withAnswers [.ok]
      [.ok [0x02, 0x58, 0x9F, 0x66, 0x66, 0x93, 0x99, 0x99, 0xBE, 0x00, 0x00, 0x81]] 0))).map (fun t => t.results) =
      some [.ok (.sample { co2Ppm := 600, temperatureCelsius := 25, humidityPercent := 69, status := 0 })] := by
  decide +kernel
/-- Operation 6 of Program 2. -/
theorem test_read_measurement_strict :
    (nextOf (exec .readMeasurement (strictly (withAnswers [.ok]
      [.ok [0x01, 0x90, 0x4C, 0x80, 0x00, 0xA2, 0x80, 0x00, 0xA3, 0x00, 0x00, 0x81]] 0)))).map (fun t => t.results) =
      some [.err (.decodeError (.crcMismatch 2))] := by decide +kernel
theorem test_rht :
    seen (exec (.setRhtCompensation 25 44) (withAnswers [.ok] [] 0)) =
      some (.idle, [.ok .unit], [.write 0x64 [0xE0, 0x00, 0x66, 0x66, 0x93, 0x66, 0x66, 0x93] .ok]) := by decide +kernel
/-- Both out of range: the temperature is named (R167). -/
theorem test_rht_refused :
    seen (exec (.setRhtCompensation 41 19) (withAnswers [.ok] [] 0)) =
      some (.idle, [.err (.invalidArgument (.temperature 41))], []) := by decide +kernel
theorem test_pressure :
    seen (exec (.setPressureCompensation 400) (withAnswers [.ok] [] 0)) =
      some (.idle, [.ok .unit], [.write 0x64 [0xE0, 0x16, 0x4E, 0x20, 0xE3] .ok]) := by decide +kernel
theorem test_pressure_refused :
    seen (exec (.setPressureCompensation 1101) (withAnswers [.ok] [] 0)) =
      some (.idle, [.err (.invalidArgument (.pressure 1101))], []) := by decide +kernel
theorem test_factory_reset :
    seen (exec .factoryReset (withAnswers [.ok] [.ok [0x00, 0x01]] 0)) =
      some (.idle, [.err (.operationFailed (.nonZeroAck 0x0001))],
        [.write 0x64 [0x36, 0x32] .ok, .read 0x64 2 (.ok [0x00, 0x01])]) := by decide +kernel
theorem test_factory_reset_short :
    (nextOf (exec .factoryReset (withAnswers [.ok] [.ok [0x00]] 0))).map (fun t => t.results) =
      some [.err (.operationFailed (.shortResponse 1))] := by decide +kernel
theorem test_recalibration :
    seen (exec (.forcedRecalibration 400) (withAnswers [.ok] [.ok [0x80, 0x01, 0x93]] 1)) =
      some (.idle, [.ok (.correction 0x8001)],
        [.write 0x64 [0x36, 0x2F, 0x01, 0x90, 0x4C] .ok, .wait .frc, .read 0x64 3 (.ok [0x80, 0x01, 0x93])]) := by
  decide +kernel
/-- The CRC test comes before the value test (R167). -/
theorem test_recalibration_all_ones :
    (nextOf (exec (.forcedRecalibration 400) (strictly (withAnswers [.ok] [.ok [0xFF, 0xFF, 0xFF]] 1)))).map
      (fun t => t.results) = some [.err (.decodeError (.crcMismatch 0))] ∧
    (nextOf (exec (.forcedRecalibration 400) (withAnswers [.ok] [.ok [0xFF, 0xFF, 0xFF]] 1))).map
      (fun t => t.results) = some [.err (.operationFailed (.calibrationInvalid 0xFFFF))] := by decide +kernel
theorem test_identify_short :
    seen (exec .identify (withAnswers [.ok] [.ok (List.replicate 17 0)] 0)) =
      some (.idle, [.err (.decodeError (.shortResponse 17 18))],
        [.write 0x64 [0x36, 0x5B] .ok, .read 0x64 18 (.ok (List.replicate 17 0))]) := by decide +kernel
/-- The words of section 2.7 on the fifth attempt: returned whether they match or not (R111). -/
theorem test_identify_fifth :
    identifyWords [0x1234, 0x5678, 0x0000, 0x0001, 0xABCD, 0xEF01] { State.reset with attempt := some 5 } =
      .moved (answer (.identity 0x12345678) (setIdMatch 0x12345678 { State.reset with attempt := some 5 })) := by
  simp only [identifyWords, show identityOf 0x1234 0x5678 = 0x12345678 by decide, setIdMatch, Config.identAttempts]
  split <;> rfl
theorem test_configure :
    (nextOf (exec (.configure 0x65 .strict) State.reset)).map (fun t => (t.devAddr, t.crcPolicy, t.results)) =
      some (0x65, .strict, [.ok .unit]) := by decide +kernel
theorem test_configure_refused :
    (nextOf (exec (.configure 0x66 .strict) State.reset)).map (fun t => (t.devAddr, t.crcPolicy, t.results)) =
      some (0x64, .acceptAlways, [.err (.invalidArgument (.devAddr 0x66))]) := by decide +kernel

/-! ### Conversions (95_test_vectors.md section 2.8) -/

theorem test_from_raw :
    tempFromRaw 0x8000 = 557065 / 13107 ∧ rhFromRaw 0x8000 = 740558 / 13107 ∧ tempFromRaw 0x6666 = 25 := by decide +kernel
theorem test_to_raw_exact :
    tempToRaw 25 = 0x6666 ∧ rhToRaw 44 = 0x6666 ∧ rhToRaw 69 = 0x9999 ∧ pressureToRaw 950 = 0xB98C := by decide +kernel
theorem test_ranges :
    temperatureInRange 10 = true ∧ temperatureInRange 40 = true ∧ temperatureInRange (9999 / 1000) = false ∧
    humidityInRange 81 = false ∧ pressureInRange 1100 = true ∧ targetInRange 32001 = false := by decide +kernel

/-! ### Witnesses: a state and operands that meet the hypotheses of each statement -/

/-- The idle block with one request. -/
def asked (r : Request) : State := { withAnswers [.ok] [] 1 with requests := [r] }

/-- The block in DELAY of `start_continuous_measurement`, its wait not over. -/
def settling : State :=
  { State.reset with
    phase := .delay, op := some .startContinuousMeasurement, attempt := some 1, tx := [(0, 0x21), (1, 0x8B)], txLen := 2 }

/-- A response of `n` triples that pass their checks, all words 0. -/
def goodTriples (n : Nat) : List Byte := (List.replicate n [0x00, 0x00, 0x81]).flatten

theorem received_received (bs : List Byte) : (received bs).Received bs := ⟨rfl, Memory.read_ofBytes bs⟩

/-- An idle block that owes no CRC step and has nothing in its buffers satisfies the invariant. -/
theorem inv_idle (s : State) (h : { s with
    requests := [], results := [], trace := [], writeAnswers := [], readAnswers := [], waitsOver := 0,
    resetRequested := false } = State.reset) : Inv s where
  legalAddr := by rw [show s.devAddr = 0x64 from congrArg State.devAddr h]; rfl
  txWf := by rw [show s.tx = [] from congrArg State.tx h]; exact .nil
  rxWf := by rw [show s.rx = [] from congrArg State.rx h]; exact .nil
  bitcnt := by rw [show s.bitcnt = 0 from congrArg State.bitcnt h]; omega
  txLen := by rw [show s.txLen = 0 from congrArg State.txLen h]; omega
  rxLen := by rw [show s.rxLen = 0 from congrArg State.rxLen h]; omega
  txFilled := fun k hk => by rw [show s.txLen = 0 from congrArg State.txLen h] at hk; omega
  txInside := fun k _ => by rw [show s.tx = [] from congrArg State.tx h]; rfl
  rxFilled := fun k => by
    rw [show s.rx = [] from congrArg State.rx h, show s.rxLen = 0 from congrArg State.rxLen h]; simp [Memory.read]
  running := fun hp => absurd (show s.phase = .idle from congrArg State.phase h) hp

/-- The same operation in WRITE or DELAY, with these answers and waits to come, satisfies the invariant. -/
theorem inv_started (p : Phase) (hp : p = .write ∨ p = .delay) (ws : List WriteAnswer) (k : Nat) :
    Inv { settling with phase := p, writeAnswers := ws, waitsOver := k } where
  legalAddr := rfl
  txWf := show settling.tx.wf by decide
  rxWf := .nil
  bitcnt := Nat.zero_le _
  txLen := Nat.le_of_ble_eq_true rfl
  rxLen := Nat.zero_le _
  txFilled := fun j hj => by
    have hj : j < 2 := hj
    interval_cases j <;> rfl
  txInside := fun j hj => by
    have hj : 8 ≤ j := hj
    simp [settling, Memory.read, show j ≠ 0 by omega, show j ≠ 1 by omega]
  rxFilled := fun j => by simp [settling, State.reset, Memory.read]
  running := fun _ => ⟨_, startCommand, rfl, rfl, {
    attempt := ⟨1, rfl, by decide, by decide⟩
    payload := fun h => by rcases hp with rfl | rfl <;> cases h
    frame := fun _ => ⟨.wide, [0x21, 0x8B], by decide +kernel, by rfl⟩
    response := fun h => by rcases hp with rfl | rfl <;> rcases h with h | h <;> cases h
    result := fun h => by rcases hp with rfl | rfl <;> cases h }⟩

theorem inv_settling : Inv settling := inv_started .delay (.inr rfl) [] 0

theorem witness_CrcBitStepShiftsThenFeedsBack :
    { State.reset with bitcnt := 1 }.phase = .idle ∧ 0 < { State.reset with bitcnt := 1 }.bitcnt := by decide
theorem witness_CrcStepsStopOutsideTheirPreconditions :
    State.reset.phase = .idle ∧ State.reset.bitcnt = 0 ∧
    { State.reset with bitcnt := 8 }.phase = .idle ∧ { State.reset with bitcnt := 8 }.bitcnt ≠ 0 := by decide
theorem witness_CrcByteStepAbsorbsThenStepsEightTimes : State.reset.phase = .idle ∧ State.reset.bitcnt = 0 := by decide
/-- The one hypothesis of the statements about `crc_init`, `crc8`, `crc_word`, `crc_check` and the two byte encoders. -/
theorem witness_CrcInitLoadsOnes : State.reset.phase = .idle := by decide
theorem witness_Crc8FoldsByteStepsFromOnes : State.reset.phase = .idle := by decide
theorem witness_CrcWordAndCheckUseHighByteFirst : State.reset.phase = .idle := by decide
theorem witness_CrcIsAffineOverXor : ([0x12, 0x34] : List Byte).length = ([0x56, 0x78] : List Byte).length := by decide
theorem witness_CommandBytesHighByteFirst : State.reset.phase = .idle := by decide
theorem witness_EncodeFrameWritesTriples :
    State.reset.phase = .idle ∧ ([1, 2] : List Word).length ≤ 2 ∧ ([1, 2] : List Word)[1]? = some 2 ∧
    2 + 3 * ([1, 2] : List Word).length ≤ 8 := by decide
theorem witness_LongFrameIsReturnedUnstored :
    State.reset.phase = .idle ∧ 2 ≤ ([1, 2] : List Word).length := by decide
theorem witness_FrameLengthAndCrcBytes :
    0 < ([1] : List Word).length ∧ (encodeFrame 0xE016 [1])[2 + 3 * 0]? = some 0x00 ∧
    (encodeFrame 0xE016 [1])[3 + 3 * 0]? = some 0x01 := by decide +kernel
theorem witness_DecodeWordsFollowsPolicy :
    (received [0x01, 0x90]).phase = .idle ∧ (received [0x01, 0x90]).Received [0x01, 0x90] ∧
      ([0x01, 0x90] : List Byte).length < 3 * 1 ∧
    (received (goodTriples 6)).Received (goodTriples 6) ∧ 6 ≤ 6 ∧ 3 * 6 ≤ (goodTriples 6).length ∧
      Accepted .strict (goodTriples 6) 6 ∧
    (received [0x01, 0x90, 0x00]).Received [0x01, 0x90, 0x00] ∧ RejectedAt .strict [0x01, 0x90, 0x00] 1 0 := by
  refine ⟨rfl, received_received _, by decide, received_received _, Nat.le_refl 6, by decide, .inr ?_, received_received _,
    rfl, by decide, by decide +kernel, by decide⟩
  decide +kernel
theorem witness_DecodingAnEncodedFrameGivesTheWords :
    (received ((encodeFrame 0 [1, 2]).drop 2)).phase = .idle ∧ ([1, 2] : List Word).length ≤ 6 ∧
    (received ((encodeFrame 0 [1, 2]).drop 2)).Received ((encodeFrame 0 [1, 2]).drop 2) :=
  ⟨rfl, by decide, received_received _⟩
theorem witness_DecodeRawWordTakesTwoBytes :
    (received [0x00]).phase = .idle ∧ (received [0x00]).Received [0x00] ∧ ([0x00] : List Byte).length < 2 ∧
    (received [0x00, 0x01]).Received [0x00, 0x01] ∧ ([0x00, 0x01] : List Byte) = 0x00 :: 0x01 :: [] :=
  ⟨rfl, received_received _, by decide, received_received _, rfl⟩
theorem witness_DecodeOfEncodeGivesTheCommand :
    (Instr.setRhtCompensation (tempFromRaw 0xFFFF) (rhFromRaw 0)).isCommand = true ∧
    (Instr.setRhtCompensation (tempFromRaw 0xFFFF) (rhFromRaw 0)).WireExact :=
  ⟨rfl, ⟨_, rfl⟩, ⟨_, rfl⟩⟩
theorem witness_EncodeOfDecodeGivesTheFrame :
    decode .wide [0x36, 0x2F, 0x01, 0x90, 0x00] = .ok (.forcedRecalibration 400, []) := by decide +kernel
theorem witness_OnlyTheFourteenCodesDecode : 6 ≤ (List.replicate 6 (0 : Byte)).length := by decide
theorem witness_PlainCommandsWriteOnce :
    (.wake, [0x00]) ∈ plainWrites ∧ (withAnswers [.ok] [] 0).phase = .idle ∧
    (withAnswers [.ok] [] 0).writeAnswers = [.ok] ∧ (withAnswers [.busError] [] 0).writeAnswers = [.busError] := by
  decide +kernel
theorem witness_StartAndStopSettle :
    (.stopContinuousMeasurement, [0x3F, 0x86]) ∈ settledWrites ∧ (withAnswers [.ok] [] 1).phase = .idle ∧
    (withAnswers [.busError] [] 1).writeAnswers = [.busError] ∧ (withAnswers [.ok] [] 1).writeAnswers = [.ok] ∧
    (withAnswers [.ok] [] 1).waitsOver = 0 + 1 ∧ (withAnswers [.ok] [] 0).waitsOver = 0 := by decide +kernel
theorem witness_ReadMeasurementDecodesTwelveBytes :
    (withAnswers [.ok] [.ok (goodTriples 4)] 0).phase = .idle ∧
    (withAnswers [.busError] [] 0).writeAnswers = [.busError] ∧
    (withAnswers [.ok] [.busError] 0).readAnswers = [.busError] ∧
    (withAnswers [.ok] [.ok (goodTriples 4)] 0).writeAnswers = [.ok] ∧
    (withAnswers [.ok] [.ok (goodTriples 4)] 0).readAnswers = [.ok (goodTriples 4)] ∧
    ((goodTriples 4).take 11).length < 12 ∧ (goodTriples 4).length = 12 ∧ Accepted .strict (goodTriples 4) 4 ∧
    (List.replicate 12 (0 : Byte)).length = 12 ∧ RejectedAt .strict (List.replicate 12 0) 4 0 := by
  refine ⟨rfl, rfl, rfl, rfl, rfl, by decide, by decide, .inr ?_, by decide, rfl, by decide, by decide +kernel, by decide⟩
  decide +kernel
theorem witness_RhtCompensationChecksThenWrites :
    (withAnswers [.ok] [] 0).phase = .idle ∧ ¬ ((10 : Rat) ≤ 9 ∧ (9 : Rat) ≤ 40) ∧
    ((10 : Rat) ≤ 10 ∧ (10 : Rat) ≤ 40) ∧ ¬ ((20 : Rat) ≤ 81 ∧ (81 : Rat) ≤ 80) ∧ ((20 : Rat) ≤ 80 ∧ (80 : Rat) ≤ 80) ∧
    (withAnswers [.ok] [] 0).writeAnswers = [.ok] ∧ (withAnswers [.busError] [] 0).writeAnswers = [.busError] := by
  decide +kernel
theorem witness_PressureCompensationChecksThenWrites :
    (withAnswers [.ok] [] 0).phase = .idle ∧ ¬ ((400 : Rat) ≤ 1101 ∧ (1101 : Rat) ≤ 1100) ∧
    ((400 : Rat) ≤ 1100 ∧ (1100 : Rat) ≤ 1100) ∧
    (withAnswers [.ok] [] 0).writeAnswers = [.ok] ∧ (withAnswers [.busError] [] 0).writeAnswers = [.busError] := by
  decide +kernel
theorem witness_FactoryResetTestsForZero :
    (withAnswers [.ok] [.ok [0, 0]] 0).phase = .idle ∧ (withAnswers [.busError] [] 0).writeAnswers = [.busError] ∧
    (withAnswers [.ok] [.ok [0, 0]] 0).writeAnswers = [.ok] ∧ (withAnswers [.ok] [.busError] 0).readAnswers = [.busError] ∧
    (withAnswers [.ok] [.ok [0, 0]] 0).readAnswers = [.ok [0, 0]] ∧ ([0] : List Byte).length < 2 ∧
    ((0x00 : Byte) ++ (0x00 : Byte) : Word) = 0x0000 ∧ ((0x00 : Byte) ++ (0x01 : Byte) : Word) ≠ 0x0000 := by
  decide +kernel
theorem witness_ForcedRecalibrationReturnsCorrection :
    (withAnswers [.ok] [.ok [0x80, 0x01, 0x93]] 1).phase = .idle ∧ 32000 < (32001 : Word).toNat ∧
    (32000 : Word).toNat ≤ 32000 ∧ (withAnswers [.busError] [] 0).writeAnswers = [.busError] ∧
    (withAnswers [.ok] [.ok [0x80, 0x01, 0x93]] 1).writeAnswers = [.ok] ∧ (withAnswers [.ok] [] 0).waitsOver = 0 ∧
    (withAnswers [.ok] [.ok [0x80, 0x01, 0x93]] 1).waitsOver = 0 + 1 ∧
    (withAnswers [.ok] [.busError] 1).readAnswers = [.busError] ∧
    (withAnswers [.ok] [.ok [0x80, 0x01, 0x93]] 1).readAnswers = [.ok [0x80, 0x01, 0x93]] ∧
    ([0x80, 0x01] : List Byte).length < 3 ∧
    (strictly (withAnswers [.ok] [] 1)).crcPolicy = .strict ∧ crc8 [0xFF, 0xFF] ≠ 0xFF ∧ crc8 [0xFF, 0xFF] = 0xAC ∧
    ((0xFF : Byte) ++ (0xFF : Byte) : Word) = 0xFFFF ∧ crc8 [0x80, 0x01] = 0x93 ∧
    ((0x80 : Byte) ++ (0x01 : Byte) : Word) ≠ 0x0000 ∧ ((0x80 : Byte) ++ (0x01 : Byte) : Word) ≠ 0xFFFF := by
  decide +kernel

/-- Of any two identities at most one is the expected one. -/
theorem zero_or_one_mismatches :
    Mismatch .acceptAlways (List.replicate 18 0x00) ∨ Mismatch .acceptAlways (List.replicate 18 0x01) := by
  have hne : identityIn (List.replicate 18 0x00) ≠ identityIn (List.replicate 18 0x01) := by decide +kernel
  by_cases h : identityIn (List.replicate 18 0x00) = Config.expectedId
  · exact .inr ⟨by decide, .inl rfl, fun h2 => hne (h.trans h2.symm)⟩
  · exact .inl ⟨by decide, .inl rfl, h⟩

/-- Four mismatching attempts, then any complete response: the fifth attempt. -/
theorem witness_IdentifyRetriesMismatchesOnly :
    ∃ ms : List (List Byte), ms.length = 4 ∧ (∀ m ∈ ms, Mismatch State.reset.crcPolicy m) ∧
      Answers (withAnswers (List.replicate 5 .ok) (ms.map ReadAnswer.ok ++ [.ok (goodTriples 6)]) 4) ms [.ok]
        [.ok (goodTriples 6)] 0 ∧
      (goodTriples 6).length = 18 ∧ Accepted State.reset.crcPolicy (goodTriples 6) 6 := by
  obtain ⟨m, hm⟩ : ∃ m, Mismatch .acceptAlways m := zero_or_one_mismatches.elim (fun h => ⟨_, h⟩) (fun h => ⟨_, h⟩)
  refine ⟨List.replicate 4 m, rfl, fun m' h => ?_, ⟨rfl, rfl, rfl⟩, by decide, .inl rfl⟩
  rw [List.eq_of_mem_replicate h]
  exact hm
/-- A response that matches on the first attempt, whatever `EXPECTED_ID` is. -/
theorem witness_IdentifyRetriesMismatchesOnly_match :
    ∃ bs : List Byte, bs.length = 18 ∧ Accepted State.reset.crcPolicy bs 6 ∧ identityIn bs = Config.expectedId ∧
      Answers (withAnswers [.ok] [.ok bs] 0) [] [.ok] [.ok bs] 0 := by
  refine ⟨[Config.expectedId.extractLsb' 24 8, Config.expectedId.extractLsb' 16 8, 0, Config.expectedId.extractLsb' 8 8,
    Config.expectedId.extractLsb' 0 8, 0, 0, 0, 0, 0, 0, 0, 0, 0, 0, 0, 0, 0], rfl, .inl rfl, ?_, ⟨rfl, rfl, rfl⟩⟩
  generalize Config.expectedId = e
  show (e.extractLsb' 24 8 ++ e.extractLsb' 16 8 ++ e.extractLsb' 8 8 ++ e.extractLsb' 0 8 : BitVec 32) = e
  apply BitVec.eq_of_getLsbD_eq
  intro i hi
  simp only [BitVec.getLsbD_append, BitVec.getLsbD_extractLsb']
  interval_cases i <;> simp
theorem witness_IdentifyRetriesMismatchesOnly_errors :
    (withAnswers [.busError] [] 0).phase = .idle ∧ Answers (withAnswers [.busError] [] 0) [] [.busError] [] 0 ∧
    Answers (withAnswers [.ok] [.busError] 0) [] [.ok] [.busError] 0 ∧
    Answers (withAnswers [.ok] [.ok (List.replicate 17 0)] 0) [] [.ok] [.ok (List.replicate 17 0)] 0 ∧
    (List.replicate 17 (0 : Byte)).length < 18 ∧
    Answers (strictly (withAnswers [.ok] [.ok (List.replicate 18 0)] 0)) [] [.ok] [.ok (List.replicate 18 0)] 0 ∧
    (List.replicate 18 (0 : Byte)).length = 18 ∧ RejectedAt .strict (List.replicate 18 0) 6 0 :=
  ⟨rfl, ⟨rfl, rfl, rfl⟩, ⟨rfl, rfl, rfl⟩, ⟨rfl, rfl, rfl⟩, by decide, ⟨rfl, rfl, rfl⟩, by decide,
    rfl, by decide, by decide +kernel, by decide⟩
theorem witness_ConfigureSetsBothOrNeither :
    State.reset.phase = .idle ∧ ((0x65 : DevAddr) = 0x64 ∨ (0x65 : DevAddr) = 0x65) ∧
    (0x66 : DevAddr) ≠ 0x64 ∧ (0x66 : DevAddr) ≠ 0x65 ∧ settling.phase ≠ .idle := by decide
/-- Also the operands of `CompensationRoundTripWithinOneStep`. -/
theorem witness_PhysicalValuesToRawCodes :
    ((10 : Rat) ≤ 10 ∧ (10 : Rat) ≤ 40) ∧ ((10 : Rat) ≤ 40 ∧ (40 : Rat) ≤ 40) ∧
    ((20 : Rat) ≤ 20 ∧ (20 : Rat) ≤ 80) ∧ ((20 : Rat) ≤ 80 ∧ (80 : Rat) ≤ 80) := by decide +kernel
theorem witness_PressureIsScaledByFifty :
    400 ≤ 400 ∧ 400 ≤ 1100 ∧ 400 ≤ 1100 ∧ 1100 ≤ 1100 ∧ (400 : Rat) ≤ 801 / 2 ∧ (801 / 2 : Rat) ≤ 1100 := by decide +kernel
theorem witness_CompensationRoundTripWithinOneStep :
    ((10 : Rat) ≤ 10 ∧ (10 : Rat) ≤ 40) ∧ ((20 : Rat) ≤ 80 ∧ (80 : Rat) ≤ 80) := by decide +kernel
theorem witness_PhasesFollowTheTable :
    commandOf .startContinuousMeasurement = some startCommand ∧
    ∃ t, phaseStep startCommand { settling with waitsOver := 1 } = .moved t := ⟨rfl, _, rfl⟩
/-- The early ends of a phase, for the clauses on results. -/
theorem witness_PhasesFollowTheTable_ends :
    (∃ t, phaseStep startCommand { settling with phase := .write, writeAnswers := [.busError] } = .moved t ∧ t.phase = .done) ∧
    (∃ t, phaseStep startCommand { settling with waitsOver := 1 } = .moved t ∧ t.phase = .done) ∧
    (∃ t, phaseStep readMeasurementCommand { settling with phase := .read, readAnswers := [.busError] } = .moved t ∧
      t.phase = .done) ∧
    ∃ t, phaseStep (recalibrationCommand 32001) { settling with phase := .check } = .moved t ∧ t.phase = .done :=
  ⟨⟨_, rfl, rfl⟩, ⟨_, rfl, rfl⟩, ⟨_, rfl, rfl⟩, ⟨_, rfl, rfl⟩⟩
theorem witness_InvalidArgumentMakesNoTransaction :
    State.reset.phase = .idle ∧ ∃ t, exec (.forcedRecalibration 32001) State.reset = .next t ∧
      t.results = State.reset.results ++ [.err (.invalidArgument (.targetPpm 32001))] := by
  refine ⟨rfl, ?_⟩
  obtain ⟨t, h, ht⟩ := next_of_any (o := exec (.forcedRecalibration 32001) State.reset)
    (p := fun t => t.results == [.err (.invalidArgument (.targetPpm 32001))]) (by decide +kernel)
  exact ⟨t, h, eq_of_beq ht⟩
/-- An operation of the host, an operation of the codec, and a running operation that a step ends. -/
theorem witness_OnlyTheTabledErrorsOccur :
    ((Instr.forcedRecalibration 32001).IsHostOperation ∧ ∃ t, exec (.forcedRecalibration 32001) State.reset = .next t ∧
      t.results = State.reset.results ++ [.err (.invalidArgument (.targetPpm 32001))]) ∧
    (¬ Instr.decodeRawWord.IsHostOperation ∧ exec .decodeRawWord State.reset =
      .next { State.reset with results := State.reset.results ++ [.err (.operationFailed (.shortResponse 0))] }) ∧
    Inv { settling with phase := .write, writeAnswers := [.busError], waitsOver := 0 } ∧
    ∃ t, step { settling with phase := .write, writeAnswers := [.busError], waitsOver := 0 } = .next t ∧
      t.results = settling.results ++ [.err (.busError .write)] := by
  refine ⟨⟨.inl rfl, witness_InvalidArgumentMakesNoTransaction.2⟩, ⟨?_, rfl⟩, inv_started .write (.inl rfl) _ _, ?_⟩
  · rintro (h | ⟨a, q, h⟩) <;> cases h
  · obtain ⟨t, h, ht⟩ := next_of_any
      (o := step { settling with phase := .write, writeAnswers := [.busError], waitsOver := 0 })
      (p := fun t => t.results == [.err (.busError .write)]) (by decide +kernel)
    exact ⟨t, h, eq_of_beq ht⟩
/-- A command that ends with `Ok` at once, and a running one that a step ends with `Ok`. -/
theorem witness_OkMeansEveryTransactionAnsweredOk :
    (∃ t, exec .wake (withAnswers [.ok] [] 0) = .next t ∧ NotFailed (withAnswers [.ok] [] 0) t) ∧
    ∃ t, step { settling with waitsOver := 1 } = .next t ∧ NotFailed { settling with waitsOver := 1 } t := by
  refine ⟨?_, ?_⟩
  · obtain ⟨t, h, ht⟩ := next_of_any (o := exec .wake (withAnswers [.ok] [] 0))
      (p := fun t => t.results == [.ok .unit] && t.phase == .idle) (by decide +kernel)
    rw [Bool.and_eq_true] at ht
    exact ⟨t, h, fun _ => ⟨.unit, eq_of_beq ht.1⟩, fun hd => by rw [eq_of_beq ht.2] at hd; cases hd⟩
  · obtain ⟨t, h, ht⟩ := next_of_any (o := step { settling with waitsOver := 1 })
      (p := fun t => t.results == [.ok .unit] && t.phase == .idle) (by decide +kernel)
    rw [Bool.and_eq_true] at ht
    exact ⟨t, h, fun _ => ⟨.unit, eq_of_beq ht.1⟩, fun hd => by rw [eq_of_beq ht.2] at hd; cases hd⟩
theorem witness_BusyBlockAcceptsNothing :
    settling.phase ≠ .idle ∧ ∃ t, step settling = .next t := by
  refine ⟨by decide, ?_⟩
  obtain ⟨t, h, -⟩ := next_of_any (o := step settling) (p := fun _ => true) (by decide +kernel)
  exact ⟨t, h⟩
theorem witness_ResetEventEndsTheOperation : { settling with resetRequested := true }.resetRequested = true := by decide
theorem witness_StepRunsTheRequestedOperation :
    (asked (.call .wake)).resetRequested = false ∧ (asked (.call .wake)).phase = .idle ∧
    (asked (.call .wake)).requests = .call .wake :: [] ∧
    (asked (.frame .narrow [0x06])).requests = .frame .narrow [0x06] :: [] ∧
    decode .narrow [0x06] = .ok (.softReset, []) ∧
    (asked (.frame .narrow [0x07])).requests = .frame .narrow [0x07] :: [] ∧
    decode .narrow [0x07] = .error (.unknownNarrow 0x07) ∧
    State.reset.requests = [] ∧ settling.resetRequested = false ∧ settling.phase ≠ .idle := by decide +kernel
theorem witness_PlacedTableWordRunsNext : decodeTableWord 16 0x3650 = some .sleep := by decide +kernel

/-- An idle block with a request, and a running one. -/
theorem witness_EveryStepKeepsTheInvariant :
    (Inv (asked (.call .startContinuousMeasurement)) ∧ ∃ t, step (asked (.call .startContinuousMeasurement)) = .next t) ∧
    Inv settling ∧ ∃ t, step settling = .next t := by
  obtain ⟨t, h, -⟩ := next_of_any (o := step (asked (.call .startContinuousMeasurement))) (p := fun _ => true)
    (by decide +kernel)
  exact ⟨⟨inv_idle _ rfl, t, h⟩, inv_settling, witness_BusyBlockAcceptsNothing.2⟩
theorem witness_HostOperationsNeverStop :
    Inv (asked (.call .wake)) ∧ (asked (.call .wake)).NextIsHostOperation := by
  refine ⟨inv_idle _ rfl, fun r rest h => ?_⟩
  cases h
  exact ⟨.wake, rfl, .inl rfl⟩
theorem witness_CommandEndsWhenAnswered :
    Instr.identify.isCommand = true ∧
    (withAnswers (List.replicate 5 .ok) (List.replicate 5 (.ok (List.replicate 18 0))) 4).phase = .idle ∧
    5 ≤ (withAnswers (List.replicate 5 .ok) (List.replicate 5 (.ok (List.replicate 18 0))) 4).writeAnswers.length ∧
    5 ≤ (withAnswers (List.replicate 5 .ok) (List.replicate 5 (.ok (List.replicate 18 0))) 4).readAnswers.length ∧
    4 ≤ (withAnswers (List.replicate 5 .ok) (List.replicate 5 (.ok (List.replicate 18 0))) 4).waitsOver := by
  decide +kernel
theorem witness_UnansweredWriteIsPending :
    commandOf .sleep = some sleepCommand ∧ sleepCommand.check = .ok Instr.sleep.payload ∧ State.reset.phase = .idle ∧
    State.reset.writeAnswers = [] := ⟨rfl, rfl, rfl, rfl⟩
/-- A command that is left waiting in each of the three phases, and one that waits again after a step. -/
theorem witness_LateAnswersMakeNoDifference :
    (∃ t, exec (.forcedRecalibration 400) (withAnswers [] [] 0) = .next t ∧ t.phase = .write) ∧
    (∃ t, exec (.forcedRecalibration 400) (withAnswers [.ok] [] 0) = .next t ∧ t.phase = .delay) ∧
    (∃ t, exec (.forcedRecalibration 400) (withAnswers [.ok] [] 1) = .next t ∧ t.phase = .read) ∧
    Inv { settling with phase := .write, writeAnswers := [.ok], waitsOver := 0 } ∧
    ∃ t, step { settling with phase := .write, writeAnswers := [.ok], waitsOver := 0 } = .next t ∧ t.phase = .delay := by
  have out : ∀ (o : Host.Outcome State Fault Refusal) (p : Phase),
      (nextOf o).any (fun t => t.phase == p) = true → ∃ t, o = .next t ∧ t.phase = p := fun o p h => by
    obtain ⟨t, h, ht⟩ := next_of_any h
    exact ⟨t, h, eq_of_beq ht⟩
  exact ⟨out _ _ (by decide +kernel), out _ _ (by decide +kernel), out _ _ (by decide +kernel),
    inv_started .write (.inl rfl) _ _, out _ _ (by decide +kernel)⟩
theorem witness_OnlyTheConfiguredAddressIsUsed : Inv settling ∧ ∃ t, step settling = .next t :=
  ⟨inv_settling, witness_BusyBlockAcceptsNothing.2⟩
theorem witness_OnlyCommandFramesReachTheBus :
    Inv (asked (.call .startContinuousMeasurement)) ∧
    ∃ t, step (asked (.call .startContinuousMeasurement)) = .next t ∧
      t.trace.contains (.write 0x64 [0x21, 0x8B] .ok) = true := by
  refine ⟨inv_idle _ rfl, next_of_any (p := fun t => t.trace.contains (.write 0x64 [0x21, 0x8B] .ok)) ?_⟩
  decide +kernel
theorem witness_ConfigurationStandsStill :
    settling.resetRequested = false ∧ settling.phase ≠ .idle ∧ (∃ t, step settling = .next t) ∧
    (asked (.call .wake)).phase = .idle ∧
    ∀ a p rest, (asked (.call .wake)).requests ≠ .call (.configure a p) :: rest :=
  ⟨rfl, by decide, witness_BusyBlockAcceptsNothing.2, rfl, fun _ _ _ h => by cases h⟩
/-- Two blocks that differ in what an earlier operation could have left. -/
theorem witness_OutcomeDependsOnNothingEarlier :
    Instr.readMeasurement.isCommand = true ∧ State.reset.phase = .idle ∧
    { State.reset with crc := 0x5A, results := [.ok .unit], freeCount := 7 }.phase = .idle ∧
    State.reset.devAddr = { State.reset with crc := 0x5A, results := [.ok .unit], freeCount := 7 }.devAddr ∧
    State.reset.crcPolicy = { State.reset with crc := 0x5A, results := [.ok .unit], freeCount := 7 }.crcPolicy ∧
    State.reset.writeAnswers = { State.reset with crc := 0x5A, results := [.ok .unit], freeCount := 7 }.writeAnswers ∧
    State.reset.readAnswers = { State.reset with crc := 0x5A, results := [.ok .unit], freeCount := 7 }.readAnswers ∧
    State.reset.waitsOver = { State.reset with crc := 0x5A, results := [.ok .unit], freeCount := 7 }.waitsOver := by
  decide +kernel
/-- The decode clauses on the last attempt; then three mismatching attempts and a fourth, left waiting for its backoff. -/
theorem witness_IdentifyFlagsTheMatchAndCountsAttempts :
    ({ received (goodTriples 6) with phase := .decode, attempt := some 5 }.Received (goodTriples 6) ∧
      (goodTriples 6).length = 18 ∧ Accepted .acceptAlways (goodTriples 6) 6) ∧
    ({ received (List.replicate 18 0) with phase := .decode, attempt := some 1 }.Received (List.replicate 18 0) ∧
      (List.replicate 18 (0 : Byte)).length = 18 ∧ RejectedAt .strict (List.replicate 18 0) 6 0) ∧
    ∃ (ms : List (List Byte)) (bs : List Byte), ms.length = 3 ∧ (∀ m ∈ ms, Mismatch State.reset.crcPolicy m) ∧
      Mismatch State.reset.crcPolicy bs ∧
      Answers (withAnswers (List.replicate 4 .ok) (ms.map ReadAnswer.ok ++ [.ok bs]) 3) ms [.ok] [.ok bs] 0 := by
  refine ⟨⟨received_received _, by decide, .inl rfl⟩,
    ⟨received_received _, by decide, rfl, by decide, by decide +kernel, by decide⟩, ?_⟩
  obtain ⟨m, hm⟩ : ∃ m, Mismatch .acceptAlways m := zero_or_one_mismatches.elim (fun h => ⟨_, h⟩) (fun h => ⟨_, h⟩)
  refine ⟨List.replicate 3 m, m, rfl, fun m' h => ?_, hm, ⟨rfl, rfl, rfl⟩⟩
  rw [List.eq_of_mem_replicate h]
  exact hm

end Sys2Proof.Tests
end

section
/-! PROOFS. The state after reset (10_state.md R23): the byte spaces, word registers and CRC flags hold no value. -/

namespace Sys2Proof.Machine

@[simp] theorem Memory.read_nil (a : Nat) : Memory.read [] a = none := rfl

@[simp] theorem reset_tx_read (a : Nat) : State.reset.tx.read a = none := Memory.read_nil a

@[simp] theorem reset_rx_read (a : Nat) : State.reset.rx.read a = none := Memory.read_nil a

theorem reset_x_getElem? {k : Nat} (h : k < 6) : State.reset.x[k]? = some none :=
  Vector.getElem?_replicate_of_lt h

theorem reset_crcOk_getElem? {k : Nat} (h : k < 6) : State.reset.crcOk[k]? = some none :=
  Vector.getElem?_replicate_of_lt h

/-- Settles O43: the single registers by the definition of the reset state, the spaces and the vectors by the lemmas above. -/
theorem resetLeavesDefaults : Obligations.ResetLeavesDefaults := by
  unfold Obligations.ResetLeavesDefaults
  exact ⟨rfl, rfl, rfl, rfl, rfl, fun _ => reset_x_getElem?, rfl, reset_tx_read, reset_rx_read, rfl, rfl, rfl,
    fun _ => reset_crcOk_getElem?, rfl⟩

end Sys2Proof.Machine
end

section
/-! PROOFS. What one step can do, said once (10_state.md R13, 20_memory.md R40); what it appends to the trace (20_memory.md R31). -/

namespace Sys2Proof.Machine

/-- All that one step can lead to: the reset event, nothing without a request, a request taken in IDLE, or a running command
that goes on. -/
inductive Stepped (s : State) : State → Prop where
  | reset (hr : s.resetRequested = true) : Stepped s (resetBlock s)
  | quiet (hr : s.resetRequested = false) (hp : s.phase = .idle) (hq : s.requests = []) : Stepped s s
  | accepted (r : Request) (rest : List Request) (i : Instr) (c : Command) (t : State) (hr : s.resetRequested = false)
      (hp : s.phase = .idle) (hq : s.requests = r :: rest) (hi : Request.instr r = .ok i) (hc : commandOf i = some c)
      (h : runPhases c Config.phasesPerStep (accept i { s with requests := rest }) = .next t) : Stepped s t
  | other (r : Request) (rest : List Request) (i : Instr) (t : State) (hr : s.resetRequested = false)
      (hp : s.phase = .idle) (hq : s.requests = r :: rest) (hi : Request.instr r = .ok i) (hc : commandOf i = none)
      (h : exec i { s with requests := rest } = .next t) : Stepped s t
  | resumed (i : Instr) (c : Command) (t : State) (hr : s.resetRequested = false) (hp : s.phase ≠ .idle)
      (ho : s.op = some i) (hc : commandOf i = some c) (h : runPhases c Config.phasesPerStep s = .next t) : Stepped s t

/-- A command requested in IDLE is accepted and run. -/
theorem exec_command_idle {i : Instr} {c : Command} {s : State} (hc : commandOf i = some c) (hp : s.phase = .idle) :
    exec i s = runPhases c Config.phasesPerStep (accept i s) := by
  rw [exec_command hc, request, whenIdle_idle hp]

theorem resume_next {s t : State} (h : resume s = .next t) :
    ∃ i c, s.op = some i ∧ commandOf i = some c ∧ runPhases c Config.phasesPerStep s = .next t := by
  unfold resume at h
  split at h
  · cases h
  · rename_i i ho
    split at h
    · cases h
    · rename_i c hc
      exact ⟨i, c, ho, hc, h⟩

theorem step_next {s t : State} (h : step s = .next t) : Stepped s t := by
  unfold step at h
  split at h
  · rename_i hr
    cases h
    exact .reset hr
  · rename_i hr
    have hr : s.resetRequested = false := by simpa using hr
    split at h
    · rename_i hp
      split at h
      · rename_i hq
        cases h
        exact .quiet hr hp hq
      · rename_i r rest hq
        split at h
        · cases h
        · rename_i i hi
          cases hc : commandOf i with
          | some c =>
            rw [exec_command_idle (s := { s with requests := rest }) hc hp] at h
            exact .accepted r rest i c t hr hp hq hi hc h
          | none => exact .other r rest i t hr hp hq hi hc h
    · rename_i hp
      obtain ⟨i, c, ho, hc, h⟩ := resume_next h
      exact .resumed i c t hr hp ho hc h

/-! ### The configuration and the trace over a command -/

@[simp] theorem afterDelay_trace (c : Command) (s : State) : (afterDelay c s).trace = s.trace := by
  unfold afterDelay
  split <;> rfl

@[simp] theorem afterDelay_devAddr (c : Command) (s : State) : (afterDelay c s).devAddr = s.devAddr := by
  unfold afterDelay
  split <;> rfl

@[simp] theorem afterWrite_trace (c : Command) (s : State) : (afterWrite c s).trace = s.trace := by
  unfold afterWrite
  split
  · rfl
  · exact afterDelay_trace c s

@[simp] theorem afterWrite_devAddr (c : Command) (s : State) : (afterWrite c s).devAddr = s.devAddr := by
  unfold afterWrite
  split
  · rfl
  · exact afterDelay_devAddr c s

/-- The one event a phase of the command `c` can append from `s`: a write of the frame in `tx`, a read of the bytes the command
asks for, both to the configured address (R31, R33), or a wait. -/
inductive PhaseEvent (c : Command) (s : State) : Event → Prop where
  | write (bytes : List Byte) (a : WriteAnswer) (hp : s.phase = .write) (hm : memRead .tx 0 s.txLen s = .ok bytes) :
      PhaseEvent c s (.write s.devAddr bytes a)
  | read (a : ReadAnswer) (hp : s.phase = .read) (hl : ∀ bytes, a = .ok bytes → bytes.length ≤ c.asked) :
      PhaseEvent c s (.read s.devAddr c.asked a)
  | wait (w : Wait) (hp : s.phase = .delay) : PhaseEvent c s (.wait w)

theorem PhaseEvent.to_devAddr {c : Command} {s : State} {e : Event} (h : PhaseEvent c s e) : e.to s.devAddr = true := by
  cases h with
  | write => exact beq_self_eq_true _
  | read => exact beq_self_eq_true _
  | wait => rfl

theorem Course.devAddr {i : Instr} {c : Command} {s t : State} (h : Course i c s t) : t.devAddr = s.devAddr := by
  cases h with
  | sent => exact afterWrite_devAddr c _
  | waited | passed => exact afterDelay_devAddr c _
  | _ => rfl

theorem Course.trace {i : Instr} {c : Command} {s t : State} (h : Course i c s t) :
    t.trace = s.trace ∨ ∃ e, PhaseEvent c s e ∧ t.trace = s.trace ++ [e] := by
  cases h with
  | notSent bytes rest hp hm => exact .inr ⟨_, .write bytes .busError hp hm, rfl⟩
  | sent bytes rest hp hm => exact .inr ⟨_, .write bytes .ok hp hm, afterWrite_trace c _⟩
  | backedOff w k hp => exact .inr ⟨_, .wait w hp, rfl⟩
  | waited w k hp => exact .inr ⟨_, .wait w hp, afterDelay_trace c _⟩
  | passed => exact .inl (afterDelay_trace c s)
  | notHeard rest hp => exact .inr ⟨_, .read .busError hp nofun, rfl⟩
  | heard bytes rest hp =>
    refine .inr ⟨_, .read (.ok (bytes.take c.asked)) hp fun bs hbs => ?_, rfl⟩
    cases hbs
    exact List.length_take_le c.asked bytes
  | rejected | checked | encoded | decoded | ended => exact .inl rfl

/-! ### The events a step appends -/

/-- `t` stands later than `s`: its trace is that of `s` and then events that all satisfy `P`. -/
def Appends (P : Event → Prop) (s t : State) : Prop := ∃ es, t.trace = s.trace ++ es ∧ ∀ e ∈ es, P e

theorem Appends.of_trace_eq {P : Event → Prop} {s t : State} (h : t.trace = s.trace) : Appends P s t :=
  ⟨[], by rw [h, List.append_nil], nofun⟩

theorem Appends.append_event {P : Event → Prop} {s t u : State} (h : Appends P s t) {e : Event} (he : P e)
    (hu : u.trace = t.trace ++ [e]) : Appends P s u := by
  obtain ⟨es, ht, hes⟩ := h
  refine ⟨es ++ [e], by rw [hu, ht, List.append_assoc], fun e' he' => ?_⟩
  rcases List.mem_append.mp he' with h' | h'
  · exact hes e' h'
  · exact List.mem_singleton.mp h' ▸ he

/-- One phase appends at most one event, and that goes to the configured address, which the phase keeps. -/
theorem Course.appends {i : Instr} {c : Command} {s t u : State} (h : Course i c t u) (ha : t.devAddr = s.devAddr)
    (ht : Appends (fun e => e.to s.devAddr = true) s t) : Appends (fun e => e.to s.devAddr = true) s u := by
  rcases h.trace with heq | ⟨e, he, hu⟩
  · obtain ⟨es, htr, hes⟩ := ht
    exact ⟨es, heq.trans htr, hes⟩
  · exact ht.append_event (ha ▸ he.to_devAddr) hu

/-- Over any number of phases of a command every transaction goes to the configured address (R31). -/
theorem runPhases_appends {i : Instr} {c : Command} (hc : commandOf i = some c) {n : Nat} {s t : State}
    (h : runPhases c n s = .next t) : Appends (fun e => e.to s.devAddr = true) s t :=
  (runPhases_keeps hc (P := fun u => u.devAddr = s.devAddr ∧ Appends (fun e => e.to s.devAddr = true) s u)
    (fun _ _ ⟨ha, ht⟩ hcourse => ⟨hcourse.devAddr.trans ha, hcourse.appends ha ht⟩)
    ⟨rfl, .of_trace_eq rfl⟩ h).2

/-- An operation that is no command makes no transaction (R97, R125). -/
theorem exec_trace_of_no_command {i : Instr} {s t : State} (hc : commandOf i = none) (hp : s.phase = .idle)
    (h : exec i s = .next t) : t.trace = s.trace := by
  by_cases hcfg : ∃ a p, i = .configure a p
  · obtain ⟨a, p, rfl⟩ := hcfg
    rcases exec_configure hp h with ⟨-, rfl⟩ | ⟨-, rfl⟩ <;> rfl
  · obtain ⟨x', ok, crc, b, tx', len, rs, -, -, -, rfl⟩ :=
      exec_internal hc (fun a p hi => hcfg ⟨a, p, hi⟩) hp h
    rfl

/-- The reset event appends nothing, so its change of the address does not matter here (R190). -/
theorem Stepped.appends {s t : State} (h : Stepped s t) : Appends (fun e => e.to s.devAddr = true) s t := by
  cases h with
  | reset => exact .of_trace_eq (resetBlock_trace s)
  | quiet => exact .of_trace_eq rfl
  | accepted r rest i c t hr hp hq hi hc h =>
    exact runPhases_appends (s := accept i { s with requests := rest }) hc h
  | other r rest i t hr hp hq hi hc h =>
    exact .of_trace_eq (exec_trace_of_no_command (s := { s with requests := rest }) hc hp h)
  | resumed i c t hr hp ho hc h => exact runPhases_appends hc h

theorem devAddrLegal_iff {a : DevAddr} : devAddrLegal a = true ↔ a = 0x64 ∨ a = 0x65 := by
  simp [devAddrLegal, Config.devAddrDefault, Config.devAddrAlt]

/-- Settles O53: the address is legal by the invariant; the events are those of the phases the step runs. -/
theorem onlyTheConfiguredAddressIsUsed : Obligations.OnlyTheConfiguredAddressIsUsed := by
  unfold Obligations.OnlyTheConfiguredAddressIsUsed
  intro s t hinv h
  exact ⟨devAddrLegal_iff.mp hinv.legalAddr, (step_next h).appends⟩

end Sys2Proof.Machine
end

section
/-! PROOFS. The CRC unit (40_crc8.md R70 to R75): the value functions in the wording of the rules, and what each of the unit's
operations does in IDLE. -/

namespace Sys2Proof

/-- R70: the bit tested is bit 7 of the value before the shift. -/
theorem crcBitStep_eq_ite_getLsbD (r : Byte) :
    crcBitStep r = if r.getLsbD 7 then (r <<< 1) ^^^ 0x31 else r <<< 1 := by
  rw [crcBitStep, BitVec.msb_eq_getLsbD_last, Config.crcPoly]

theorem crcBitSteps_eq_iterate (n : Nat) (r : Byte) : crcBitSteps n r = crcBitStep^[n] r := by
  induction n generalizing r with
  | zero => rfl
  | succ n ih => rw [crcBitSteps_succ, ih, Function.iterate_succ_apply]

/-- R71: the byte is absorbed whole, then eight bit steps follow. -/
theorem crcByteStep_eq_iterate (r b : Byte) : crcByteStep r b = crcBitStep^[8] (r ^^^ b) := crcBitSteps_eq_iterate 8 _

/-- R73: from 0xFF, each byte in list order is absorbed and stepped eight times. -/
theorem crc8_eq_foldl_iterate (bytes : List Byte) :
    crc8 bytes = bytes.foldl (fun r b => crcBitStep^[8] (r ^^^ b)) 0xFF := by
  rw [crc8, Config.crcInitValue, funext₂ crcByteStep_eq_iterate]

namespace Machine

/-! ### The unit's operations in IDLE -/

theorem exec_crcBitStep_idle {s : State} (hp : s.phase = .idle) :
    exec .crcBitStep s = if s.bitcnt = 0 then .fault .crcStepNotOwed else .next (crcBitOp s) := by
  simp only [exec, execCrcBitStep, whenIdle_idle hp]

theorem exec_crcByteStep_idle {s : State} (hp : s.phase = .idle) (b : Byte) :
    exec (.crcByteStep b) s = if s.bitcnt = 0 then .next (crcByteOp b s) else .fault .crcByteNotTaken := by
  simp only [exec, execCrcByteStep, whenIdle_idle hp]

theorem exec_crcInit_idle {s : State} (hp : s.phase = .idle) : exec .crcInit s = .next (crcInitOp s) := by
  simp only [exec, execCrcInit, whenIdle_idle hp]

/-- The CRC of the bytes is left in `crc` and handed over (R73). -/
theorem exec_crc8_idle {s : State} (hp : s.phase = .idle) (bytes : List Byte) :
    exec (.crc8 bytes) s =
      .next { s with crc := crc8 bytes, bitcnt := 0, results := s.results ++ [.ok (.byte (crc8 bytes))] } := by
  simp only [exec, execCrc8, whenIdle_idle hp, crc8Op_eq, deliver]

/-- `crc_word` is `crc8` over the two bytes of the word, high byte first (R74). -/
theorem exec_crcWord (w : Word) (s : State) : exec (.crcWord w) s = exec (.crc8 [highByte w, lowByte w]) s := rfl

/-- The CRC of the two data bytes is left in `crc`; whether it is the received byte is handed over (R75). -/
theorem exec_crcCheck_idle {s : State} (hp : s.phase = .idle) (hi lo c : Byte) :
    exec (.crcCheck hi lo c) s =
      .next { s with crc := crc8 [hi, lo], bitcnt := 0, results := s.results ++ [.ok (.bit (crcCheck hi lo c))] } := by
  simp only [exec, execCrcCheck, whenIdle_idle hp, crc8Op_eq, deliver, crcCheck]

/-! ### The statements -/

/-- Settles O5: the operation hands over `crc8`, which is the fold of eight bit steps per byte. -/
theorem crc8FoldsByteStepsFromOnes : Obligations.Crc8FoldsByteStepsFromOnes := by
  unfold Obligations.Crc8FoldsByteStepsFromOnes
  intro s bytes hp
  rw [exec_crc8_idle hp, crc8_eq_foldl_iterate]

/-- Settles O6: `crc_word` is `crc8` over the word's two bytes; the check hands over the comparison. -/
theorem crcWordAndCheckUseHighByteFirst : Obligations.CrcWordAndCheckUseHighByteFirst := by
  unfold Obligations.CrcWordAndCheckUseHighByteFirst
  constructor
  · intro s w hp
    rw [exec_crcWord, exec_crc8_idle hp, highByte, lowByte]
  · intro s hi lo c hp
    rw [exec_crcCheck_idle hp, crcCheck, beq_eq_decide]

/-- Settles O1: a step is owed, so the fault of `bitcnt = 0` is out, and the unit's bit step tests bit 7. -/
theorem crcBitStepShiftsThenFeedsBack : Obligations.CrcBitStepShiftsThenFeedsBack := by
  unfold Obligations.CrcBitStepShiftsThenFeedsBack
  intro s hp hb
  rw [exec_crcBitStep_idle hp, if_neg hb.ne', crcBitOp, crcBitStep_eq_ite_getLsbD]

/-- Settles O3: no step is owed, so the byte is taken; its eight bit steps are those of the value `crc ^ b`. -/
theorem crcByteStepAbsorbsThenStepsEightTimes : Obligations.CrcByteStepAbsorbsThenStepsEightTimes := by
  unfold Obligations.CrcByteStepAbsorbsThenStepsEightTimes
  intro s b hp hb
  rw [exec_crcByteStep_idle hp, if_pos hb, crcByteOp_eq, crcByteStep_eq_iterate]

/-- Settles O4: in IDLE the operation is the load of `CRC_INIT`. -/
theorem crcInitLoadsOnes : Obligations.CrcInitLoadsOnes := by
  unfold Obligations.CrcInitLoadsOnes
  intro s hp
  rw [exec_crcInit_idle hp, crcInitOp, Config.crcInitValue]

end Machine

end Sys2Proof
end

section
/-! PROOFS. The frame codec's encoders (41_frame_codec.md R90 to R92): where each byte of a frame stands, what `tx` holds after a
frame was written over it, and what each encoder does in IDLE. -/

namespace Sys2Proof

/-! ### The bytes of a frame -/

/-- Every word gives three bytes, so triple `k` of the words begins at byte `3k` (R53). -/
theorem flatMap_encodeTriple_getElem? {ws : List Word} {k j : Nat} {w : Word} (hw : ws[k]? = some w) (hj : j < 3) :
    (ws.flatMap encodeTriple)[3 * k + j]? = (encodeTriple w)[j]? := by
  induction ws generalizing k with
  | nil => cases hw
  | cons v vs ih =>
    rw [List.flatMap_cons]
    cases k with
    | zero =>
      obtain rfl : v = w := Option.some.inj hw
      rw [Nat.mul_zero, Nat.zero_add]
      exact List.getElem?_append_left hj
    | succ k =>
      rw [List.getElem?_append_right (by rw [Machine.encodeTriple_length]; omega), Machine.encodeTriple_length,
        show 3 * (k + 1) + j - 3 = 3 * k + j by omega]
      exact ih hw

/-- Behind the two command bytes, triple `k` of a frame begins at byte `2+3k` (R92). -/
theorem encodeFrame_getElem?_triple (cmd : Word) {ws : List Word} {k j : Nat} {w : Word} (hw : ws[k]? = some w)
    (hj : j < 3) : (encodeFrame cmd ws)[2 + 3 * k + j]? = (encodeTriple w)[j]? := by
  rw [← flatMap_encodeTriple_getElem? hw hj, encodeFrame, Nat.add_assoc,
    List.getElem?_append_right (Nat.le_add_right 2 _)]
  exact congrArg _ (Nat.add_sub_cancel_left 2 _)

namespace Machine

/-! ### A space after a write from index 0 on -/

theorem Memory.read_writeBytes_of_getElem? {bs : List Byte} {a : Nat} {b : Byte} (h : bs[a]? = some b) (m : Memory) :
    (m.writeBytes 0 bs).read a = some b := by
  obtain ⟨ha, -⟩ := List.getElem?_eq_some_iff.mp h
  rw [Memory.read_writeBytes, if_pos (by omega), Nat.sub_zero, h]

theorem Memory.read_writeBytes_of_length_le {bs : List Byte} {a : Nat} (h : bs.length ≤ a) (m : Memory) :
    (m.writeBytes 0 bs).read a = m.read a := by
  rw [Memory.read_writeBytes, if_neg (by omega)]

/-- Where a frame was written from index 0 on, byte `j` of triple `k` reads as the byte of word `k`'s triple (R92). -/
theorem Memory.read_writeBytes_encodeFrame_triple (m : Memory) (cmd : Word) {ws : List Word} {k j : Nat} {w : Word} {b : Byte}
    (hw : ws[k]? = some w) (hj : j < 3) (hb : (encodeTriple w)[j]? = some b) :
    (m.writeBytes 0 (encodeFrame cmd ws)).read (2 + 3 * k + j) = some b :=
  Memory.read_writeBytes_of_getElem? ((encodeFrame_getElem?_triple cmd hw hj).trans hb) m

/-! ### The encoders in IDLE -/

theorem exec_encodeCommand_idle {s : State} (hp : s.phase = .idle) (cmd : Word) :
    exec (.encodeCommand cmd) s = .next (deliver (.ok (.bytes (Sys2Proof.encodeCommand cmd))) s) := by
  simp only [exec, execEncodeCommand, whenIdle_idle hp]

theorem exec_encodeNarrow_idle {s : State} (hp : s.phase = .idle) (c : Byte) :
    exec (.encodeNarrow c) s = .next (deliver (.ok (.bytes (Sys2Proof.encodeNarrow c))) s) := by
  simp only [exec, execEncodeNarrow, whenIdle_idle hp]

/-- Words loaded from `x[0]` on are in those registers and can be read back; every other register is as before, and there is
none from number 6 on. -/
theorem loadWords_zero_eq (ws : List Word) (s : State) (h : ws.length ≤ Config.numWordRegs) :
    ∃ x', loadWords ws 0 s = .ok { s with x := x' } ∧ readWords ws.length 0 { s with x := x' } = .ok ws ∧
      ∀ k, x'[k]? = if k < ws.length then some (ws[k]?) else s.x[k]? := by
  obtain ⟨x', hload, hx⟩ := loadWords_eq ws 0 s (by omega)
  have hx' (k : Nat) : x'[k]? = if k < ws.length then some (ws[k]?) else s.x[k]? := by
    by_cases hk : k < Config.numWordRegs
    · simpa using hx k hk
    · have hk6 : 6 ≤ k := Nat.le_of_not_lt hk
      rw [if_neg (by omega), Vector.getElem?_eq_none hk6, Vector.getElem?_eq_none hk6]
  refine ⟨x', hload, readWords_eq ws 0 _ fun j hj => ?_, hx'⟩
  show x'[0 + j]? = _
  rw [Nat.zero_add, hx', if_pos hj]

/-- A frame that fits goes to `tx` from index 0 on and is handed over; its words are in `x`, and besides the CRC unit nothing
else changes (R92). -/
theorem exec_encodeFrame_idle {s : State} (hp : s.phase = .idle) (cmd : Word) {ws : List Word}
    (hn : ws.length ≤ Config.maxWords) :
    ∃ x' c b, exec (.encodeFrame cmd ws) s =
        .next { s with x := x', crc := c, bitcnt := b, tx := s.tx.writeBytes 0 (encodeFrame cmd ws),
                       txLen := 2 + 3 * ws.length, results := s.results ++ [.ok (.bytes (encodeFrame cmd ws))] } ∧
      ∀ k, x'[k]? = if k < ws.length then some (ws[k]?) else s.x[k]? := by
  obtain ⟨x', hload, hread, hx⟩ := loadWords_zero_eq ws s (hn.trans (by decide))
  obtain ⟨c, b, -, hop⟩ := encodeFrameOp_eq cmd ws _ hread hn
  have hmem := memRead_tx_writeBytes { s with x := x', txLen := 2 + 3 * ws.length, crc := c, bitcnt := b }
    (encodeFrame cmd ws) (encodeFrame_length cmd ws).symm
  refine ⟨x', c, b, ?_, hx⟩
  have hfits : frameFits ws = true := decide_eq_true hn
  simp only [exec, execEncodeFrame, whenIdle_idle hp, hfits, if_true, encodeFrameRun, hload, hop, hmem, outcome, deliver]

/-! ### The statements -/

/-- Settles O12: the operations hand over the bytes of R90 and R91 and do nothing else. -/
theorem commandBytesHighByteFirst : Obligations.CommandBytesHighByteFirst := by
  unfold Obligations.CommandBytesHighByteFirst
  constructor
  · intro s cmd hp
    rw [exec_encodeCommand_idle hp, Sys2Proof.encodeCommand, highByte, lowByte, deliver]
  · intro s c hp
    rw [exec_encodeNarrow_idle hp, Sys2Proof.encodeNarrow, deliver]

/-- Settles O13: `tx` holds the frame from index 0 on, so its bytes read as the bytes of the frame, which are the command bytes
and then the triples. -/
theorem encodeFrameWritesTriples : Obligations.EncodeFrameWritesTriples := by
  unfold Obligations.EncodeFrameWritesTriples
  intro s cmd ws hp hn
  obtain ⟨x', c, b, hexec, hx⟩ := exec_encodeFrame_idle hp cmd hn
  refine ⟨_, hexec, rfl, Memory.read_writeBytes_of_getElem? rfl s.tx, Memory.read_writeBytes_of_getElem? rfl s.tx,
    fun k w hw => ⟨s.tx.read_writeBytes_encodeFrame_triple cmd (j := 0) hw (by omega) rfl, ?_, ?_⟩, fun a ha => ?_, ?_, hx⟩
  · rw [show 3 + 3 * k = 2 + 3 * k + 1 by omega]
    exact s.tx.read_writeBytes_encodeFrame_triple cmd hw (by omega) rfl
  · rw [show 4 + 3 * k = 2 + 3 * k + 2 by omega]
    exact s.tx.read_writeBytes_encodeFrame_triple cmd hw (by omega) rfl
  · exact Memory.read_writeBytes_of_length_le ((encodeFrame_length cmd ws).trans_le ha) s.tx
  · exact memRead_tx_writeBytes { s with txLen := 2 + 3 * ws.length } (encodeFrame cmd ws) (encodeFrame_length cmd ws).symm

end Machine

end Sys2Proof
end

section
/-! PROOFS. How far a requested command has run (10_state.md R13, 42_commands.md R110): the shared course of the commands from IDLE
to the point where the environment has answered, said once for all of them, and what the decoder of R93 answers. -/

namespace Sys2Proof.Machine

open Sys2Proof.Claims

/-! ### What the decoder answers -/

theorem decodeOutcome_of_short {bs : List Byte} {m : Nat} (policy : CrcPolicy) (h : bs.length < 3 * m) :
    decodeOutcome m policy bs = .error (.decodeError (.shortResponse bs.length (3 * m))) := by
  rw [decodeOutcome.eq_def, if_pos h]

theorem firstBadAt_eq_none {bs : List Byte} {m : Nat} (h : ∀ k, k < m → tripleOkAt bs k = true) :
    firstBadAt bs m = none := by
  rw [firstBadAt, List.find?_range_eq_none]
  intro k hk
  simp [h k hk]

/-- The least failing triple is the one that fails while all before it pass (R93). -/
theorem firstBadAt_eq_some {bs : List Byte} {m k : Nat} (hk : k < m) (hbad : tripleOkAt bs k = false)
    (hleast : ∀ j, j < k → tripleOkAt bs j = true) : firstBadAt bs m = some k := by
  rw [firstBadAt, List.find?_range_eq_some]
  exact ⟨by simp [hbad], List.mem_range.mpr hk, fun j hj => by simp [hleast j hj]⟩

theorem decodeOutcome_of_accepted {policy : CrcPolicy} {bs : List Byte} {m : Nat} (hl : 3 * m ≤ bs.length)
    (h : Accepted policy bs m) : decodeOutcome m policy bs = .ok ((List.range m).map (wordAt bs)) := by
  rw [decodeOutcome.eq_def, if_neg (Nat.not_lt.mpr hl)]
  cases policy with
  | acceptAlways => rfl
  | strict =>
    obtain hp | hok := h
    · cases hp
    · simp only [firstBadAt_eq_none hok]

theorem decodeOutcome_of_rejectedAt {policy : CrcPolicy} {bs : List Byte} {m k : Nat} (hl : 3 * m ≤ bs.length)
    (h : RejectedAt policy bs m k) : decodeOutcome m policy bs = .error (.decodeError (.crcMismatch k)) := by
  obtain ⟨rfl, hk, hbad, hleast⟩ := h
  rw [decodeOutcome.eq_def, if_neg (Nat.not_lt.mpr hl)]
  simp only [firstBadAt_eq_some hk hbad hleast]

/-! ### How far a requested command has run -/

/-- The request of `i` in `s` comes down to a run of at most `m` more phases of `c` from a state with `P`. -/
def Reaches (i : Instr) (c : Command) (s : State) (m : Nat) (P : State → Prop) : Prop :=
  ∃ t, exec i s = runPhases c m t ∧ P t

/-- A command stands in DECODE with these bytes received. -/
def Responded (u : State) (frame : List Byte) (i : Instr) (n : Nat) (bs : List Byte) (t : State) : Prop :=
  t.Received bs ∧ AtPhase u frame i n .decode t

/-- A command whose arguments fail their check ends with that error and with nothing sent (R162). -/
theorem exec_rejected {i : Instr} {c : Command} {s : State} {e : OpError} (hc : commandOf i = some c)
    (he : c.check = .error e) (hp : s.phase = .idle) : exec i s = .next (finish (.err e) s) := by
  rw [exec_command hc, request_rejected he hp]

/-- A command whose arguments pass comes to WRITE with its own frame in `tx` (R13, R50 to R54). -/
theorem reaches_write {i : Instr} {c : Command} {s : State} {frame : List Byte} (hc : commandOf i = some c)
    (hok : c.check = .ok i.payload) (hf : frameOf c.code i.payload = frame) (hp : s.phase = .idle) :
    Reaches i c s 30 (AtPhase s frame i 1 .write) := by
  obtain ⟨t, ht, hat⟩ := request_to_write hok (payload_length hc) (payload_le hc) hp i
  exact ⟨t, (exec_command hc s).trans ht, hf ▸ hat⟩

section
variable {i : Instr} {c : Command} {s u : State} {m n : Nat} {frame : List Byte}

/-- One more phase of the run. -/
theorem Reaches.step {P Q : State → Prop} (h : Reaches i c s (m + 1) P)
    (hmoves : ∀ t, P t → ∃ t', phaseStep c t = .moved t' ∧ Q t') : Reaches i c s m Q := by
  obtain ⟨t, ht, hP⟩ := h
  obtain ⟨t', hmoved, hQ⟩ := hmoves t hP
  exact ⟨t', ht.trans (runPhases_moved hmoved m), hQ⟩

/-- A run that comes to DONE ends with the result that stands there (R168, R169). -/
theorem Reaches.finishes {r : OpResult} (h : Reaches i c s (m + 1) (AtDone u r)) : exec i s = .next (finish r u) := by
  obtain ⟨t, ht, hdone⟩ := h
  exact ht.trans (hdone.run c m)

/-- A run that comes to a phase that waits stops there (U7). -/
theorem Reaches.waits {P : State → Prop} (h : Reaches i c s (m + 1) P) (hwaits : ∀ t, P t → phaseStep c t = .waiting t) :
    ∃ t, exec i s = .next t ∧ P t := by
  obtain ⟨t, ht, hP⟩ := h
  exact ⟨t, ht.trans (runPhases_waiting (hwaits t hP) m), hP⟩

/-! ### WRITE, DELAY and READ, answered -/

theorem AtPhase.results {p : Phase} {t : State} (h : AtPhase u frame i n p t) : t.results = u.results := by
  simpa [State.outside] using congrArg State.results h.outside

theorem AtPhase.trace {p : Phase} {t : State} (h : AtPhase u frame i n p t) : t.trace = u.trace := by
  simpa [State.outside] using congrArg State.trace h.outside

/-- A write answered with `BusError` ends the command (R161). -/
theorem Reaches.notSent (h : Reaches i c s (m + 2) (AtPhase u frame i n .write)) {ws : List WriteAnswer}
    (ha : u.writeAnswers = .busError :: ws) :
    exec i s = .next (finish (.err (.busError .write)) (u.wrote frame .busError ws)) :=
  (h.step fun _ ht => ht.write_error ha).finishes

/-- A write answered with `Ok` ends a command that has no wait and no response. -/
theorem Reaches.sent (h : Reaches i c s (m + 2) (AtPhase u frame i n .write)) {ws : List WriteAnswer}
    (ha : u.writeAnswers = .ok :: ws) (hw : c.wait = none) (hr : c.asked = 0) :
    exec i s = .next (finish (.ok .unit) (u.wrote frame .ok ws)) :=
  (h.step fun _ ht => ht.write_ok_done ha hw hr).finishes

/-- A write answered with `Ok` leads straight to READ where the command has a response and no wait (R110). -/
theorem Reaches.sentToRead (h : Reaches i c s (m + 1) (AtPhase u frame i n .write)) {ws : List WriteAnswer}
    (ha : u.writeAnswers = .ok :: ws) (hw : c.wait = none) (hr : c.asked ≠ 0) :
    Reaches i c s m (AtPhase (u.wrote frame .ok ws) frame i n .read) :=
  h.step fun _ ht => ht.write_ok_read ha hw hr

/-- A command whose wait is not over stays in DELAY, its write made and no result given (U7, R201, R202). -/
theorem Reaches.pending (h : Reaches i c s (m + 1) (AtPhase u frame i n .delay)) (hk : u.waitsOver = 0) {w : Wait}
    (hb : c.backoff = none) (hw : c.wait = some w) :
    ∃ t, exec i s = .next t ∧ t.phase = .delay ∧ t.op = some i ∧ t.results = u.results ∧ t.trace = u.trace := by
  obtain ⟨t, ht, hat⟩ := h.waits fun _ ht => ht.delay_waits hk (.inr ⟨hb, hw⟩)
  exact ⟨t, ht, hat.phase, hat.op, hat.results, hat.trace⟩

/-- A read answered with `BusError` ends the command (R161). -/
theorem Reaches.notHeard (h : Reaches i c s (m + 2) (AtPhase u frame i n .read)) {rs : List ReadAnswer}
    (ha : u.readAnswers = .busError :: rs) :
    exec i s = .next (finish (.err (.busError .read)) (u.heard c.asked .busError rs)) :=
  (h.step fun _ ht => ht.read_error ha).finishes

/-- A read answered with no more bytes than were asked for leads to DECODE with just those bytes (R33, R110). -/
theorem Reaches.responded (h : Reaches i c s (m + 1) (AtPhase u frame i n .read)) {rs : List ReadAnswer} {bs : List Byte}
    (ha : u.readAnswers = .ok bs :: rs) (hl : bs.length ≤ c.asked) :
    Reaches i c s m (Responded (u.heard c.asked (.ok bs) rs) frame i n bs) := by
  refine h.step fun t ht => ?_
  obtain ⟨t', hmoved, hrec, hat⟩ := ht.read_ok (c := c) ha
  rw [List.take_of_length_le hl] at hrec hat
  exact ⟨t', hmoved, hrec, hat⟩

/-! ### DECODE of a triple-format response -/

/-- An error of the decoder ends the command at once (R93, R163). -/
theorem Reaches.decoderError {bs : List Byte} (h : Reaches i c s (m + 2) (Responded u frame i n bs)) {k : Nat}
    {f : List Word → State → Progress} (hd : c.decode = fun t => decodeThen k t f) (hk : k ≤ Config.numWordRegs)
    {e : OpError} (he : decodeOutcome k u.crcPolicy bs = .error e) : exec i s = .next (finish (.err e) u) := by
  refine Reaches.finishes (m := m) (h.step fun t ⟨hrec, hat⟩ => ?_)
  obtain ⟨t', hat', hdec⟩ := hat.decodeThen_eq hrec hk f
  rw [he] at hdec
  exact ⟨raise e t', by rw [phaseStep, hat.phase, hd]; exact hdec, rfl, rfl, hat'.outside⟩

/-- With the words decoded the command's own test comes next (R93). -/
theorem Reaches.decoded {bs : List Byte} (h : Reaches i c s (m + 1) (Responded u frame i n bs)) {k : Nat}
    {f : List Word → State → Progress} (hd : c.decode = fun t => decodeThen k t f) (hk : k ≤ Config.numWordRegs)
    {words : List Word} (hwords : decodeOutcome k u.crcPolicy bs = .ok words) {Q : State → Prop}
    (htest : ∀ t, AtPhase u frame i n .decode t → ∃ t', f words t = .moved t' ∧ Q t') : Reaches i c s m Q := by
  refine h.step fun t ⟨hrec, hat⟩ => ?_
  obtain ⟨t', hat', hdec⟩ := hat.decodeThen_eq hrec hk f
  rw [hwords] at hdec
  obtain ⟨t'', hf, hQ⟩ := htest t' hat'
  exact ⟨t'', by rw [phaseStep, hat.phase, hd]; exact hdec.trans hf, hQ⟩

/-- Whatever the test raises or answers in DECODE stands in DONE as the result (R168). -/
theorem AtPhase.atDone_raise {p : Phase} {t : State} (h : AtPhase u frame i n p t) (e : OpError) :
    AtDone u (.err e) (raise e t) := ⟨rfl, rfl, h.outside⟩

theorem AtPhase.atDone_answer {p : Phase} {t : State} (h : AtPhase u frame i n p t) (v : Value) :
    AtDone u (.ok v) (answer v t) := ⟨rfl, rfl, h.outside⟩

end

end Sys2Proof.Machine
end

section
/-! PROOFS. The commands without retries (42_commands.md R112 to R125): for each its frame and its own test, on top of the shared
course. -/

namespace Sys2Proof.Machine

open Sys2Proof.Claims

/-! ### Write-only commands -/

theorem commandOf_of_mem_plainWrites {i : Instr} {bytes : List Byte} (h : (i, bytes) ∈ plainWrites) :
    ∃ code, commandOf i = some (writeOnly code none) ∧ i.payload = [] ∧ frameOf code [] = bytes := by
  simp only [plainWrites, List.mem_cons, Prod.mk.injEq, List.not_mem_nil, or_false] at h
  rcases h with ⟨rfl, rfl⟩ | ⟨rfl, rfl⟩ | ⟨rfl, rfl⟩ | ⟨rfl, rfl⟩ | ⟨rfl, rfl⟩ | ⟨rfl, rfl⟩ <;> exact ⟨_, rfl, rfl, rfl⟩

theorem commandOf_of_mem_settledWrites {i : Instr} {bytes : List Byte} (h : (i, bytes) ∈ settledWrites) :
    ∃ code, commandOf i = some (writeOnly code (some .settleCont)) ∧ i.payload = [] ∧ frameOf code [] = bytes := by
  simp only [settledWrites, List.mem_cons, Prod.mk.injEq, List.not_mem_nil, or_false] at h
  rcases h with ⟨rfl, rfl⟩ | ⟨rfl, rfl⟩ <;> exact ⟨_, rfl, rfl, rfl⟩

theorem reaches_write_of_writeOnly {i : Instr} {code : CommandCode} {wait : Option Wait} {bytes : List Byte} {s : State}
    (hc : commandOf i = some (writeOnly code wait)) (hpay : i.payload = []) (hf : frameOf code [] = bytes)
    (hp : s.phase = .idle) : Reaches i (writeOnly code wait) s 30 (AtPhase s bytes i 1 .write) :=
  reaches_write hc (by rw [hpay, writeOnly]) (by rw [hpay]; exact hf) hp

/-- Settles O23: each of the six is a write-only command without a wait, which ends with the answer to its write. -/
theorem plainCommandsWriteOnce : Obligations.PlainCommandsWriteOnce := by
  unfold Obligations.PlainCommandsWriteOnce
  intro i bytes hmem s rest hp
  obtain ⟨code, hc, hpay, hf⟩ := commandOf_of_mem_plainWrites hmem
  have hwrite := reaches_write_of_writeOnly hc hpay hf hp
  exact ⟨fun ha => hwrite.sent ha rfl rfl, fun ha => hwrite.notSent ha⟩

/-- Settles O24: after the write comes DELAY, which ends the command when the wait is over and keeps it while it is not. -/
theorem startAndStopSettle : Obligations.StartAndStopSettle := by
  unfold Obligations.StartAndStopSettle
  intro i bytes hmem s rest hp
  obtain ⟨code, hc, hpay, hf⟩ := commandOf_of_mem_settledWrites hmem
  have hwrite := reaches_write_of_writeOnly hc hpay hf hp
  refine ⟨fun ha => hwrite.notSent ha, fun ha => ?_⟩
  have hdelay := hwrite.step fun _ ht => ht.write_ok_delay ha rfl
  exact ⟨fun k hk => (hdelay.step fun _ ht => ht.delay_done hk rfl rfl rfl).finishes, fun hk => hdelay.pending hk rfl rfl⟩

/-! ### The compensation commands -/

theorem temperatureInRange_iff {t : Rat} : temperatureInRange t = true ↔ 10 ≤ t ∧ t ≤ 40 := by
  simp [temperatureInRange]

theorem humidityInRange_iff {h : Rat} : humidityInRange h = true ↔ 20 ≤ h ∧ h ≤ 80 := by
  simp [humidityInRange]

theorem pressureInRange_iff {p : Rat} : pressureInRange p = true ↔ 400 ≤ p ∧ p ≤ 1100 := by
  simp [pressureInRange]

theorem targetInRange_iff {g : Word} : targetInRange g = true ↔ g.toNat ≤ 32000 := decide_eq_true_iff

/-- Settles O26: the first check that fails ends the command, and with both passed it ends with the answer to its write. -/
theorem rhtCompensationChecksThenWrites : Obligations.RhtCompensationChecksThenWrites := by
  unfold Obligations.RhtCompensationChecksThenWrites
  intro s t h rest hp
  have hwrite (ht : 10 ≤ t ∧ t ≤ 40) (hh : 20 ≤ h ∧ h ≤ 80) :
      Reaches (.setRhtCompensation t h) (rhtCommand t h) s 30
        (AtPhase s (encodeFrame 0xE000 [tempToRaw t, rhToRaw h]) (.setRhtCompensation t h) 1 .write) :=
    reaches_write rfl (by simp [rhtCommand, rhtCheck, temperatureInRange_iff.mpr ht, humidityInRange_iff.mpr hh, Instr.payload])
      rfl hp
  refine ⟨fun ht => exec_rejected (c := rhtCommand t h) rfl ?_ hp, fun ht hh => exec_rejected (c := rhtCommand t h) rfl ?_ hp,
    fun ht hh ha => (hwrite ht hh).sent ha rfl rfl, fun ht hh ha => (hwrite ht hh).notSent ha⟩
  · simp [rhtCommand, rhtCheck, mt temperatureInRange_iff.mp ht]
  · simp [rhtCommand, rhtCheck, temperatureInRange_iff.mpr ht, mt humidityInRange_iff.mp hh]

/-- Settles O27: a failing check ends the command, and with it passed it ends with the answer to its write. -/
theorem pressureCompensationChecksThenWrites : Obligations.PressureCompensationChecksThenWrites := by
  unfold Obligations.PressureCompensationChecksThenWrites
  intro s p rest hp
  have hwrite (hr : 400 ≤ p ∧ p ≤ 1100) :
      Reaches (.setPressureCompensation p) (pressureCommand p) s 30
        (AtPhase s (encodeFrame 0xE016 [pressureToRaw p]) (.setPressureCompensation p) 1 .write) :=
    reaches_write rfl (by simp [pressureCommand, pressureCheck, pressureInRange_iff.mpr hr, Instr.payload]) rfl hp
  refine ⟨fun hr => exec_rejected (c := pressureCommand p) rfl ?_ hp, fun hr ha => (hwrite hr).sent ha rfl rfl,
    fun hr ha => (hwrite hr).notSent ha⟩
  simp [pressureCommand, pressureCheck, mt pressureInRange_iff.mp hr]

/-! ### The commands with a response -/

/-- Settles O25: the read of twelve bytes follows the write at once; the four words make the sample. -/
theorem readMeasurementDecodesTwelveBytes : Obligations.ReadMeasurementDecodesTwelveBytes := by
  unfold Obligations.ReadMeasurementDecodesTwelveBytes
  intro s ws rs hp
  have hwrite : Reaches .readMeasurement readMeasurementCommand s 30 (AtPhase s [0xEC, 0x05] .readMeasurement 1 .write) :=
    reaches_write rfl rfl rfl hp
  have hread (ha : s.writeAnswers = .ok :: ws) := hwrite.sentToRead ha rfl (by decide)
  refine ⟨fun ha => hwrite.notSent ha, fun ha hr => (hread ha).notHeard hr, fun ha bs hr =>
    ⟨fun hl => ?_, fun hl hacc => ?_, fun k hl hrej => ?_⟩⟩
  · exact ((hread ha).responded hr hl.le).decoderError rfl (by decide) (decodeOutcome_of_short _ hl)
  · exact (((hread ha).responded hr hl.le).decoded rfl (by decide) (decodeOutcome_of_accepted hl.ge hacc)
      fun t ht => ⟨_, rfl, ht.atDone_answer _⟩).finishes
  · exact ((hread ha).responded hr hl.le).decoderError rfl (by decide) (decodeOutcome_of_rejectedAt hl.ge hrej)

/-- DECODE of `factory_reset` on fewer than two bytes (R121). -/
theorem factoryResetDecode_of_short {s : State} {bs : List Byte} (hr : s.Received bs) (hl : bs.length < 2) :
    factoryResetDecode s = .moved (raise (.operationFailed (.shortResponse bs.length)) s) := by
  rw [factoryResetDecode, decodeRawWordOp_eq s bs hr, if_pos hl]

/-- DECODE of `factory_reset` on two bytes tests their word for zero (R121, R94). -/
theorem factoryResetDecode_of_pair {u t : State} {frame : List Byte} {i : Instr} {n : Nat} {hi lo : Byte}
    (ht : Responded u frame i n [hi, lo] t) :
    ∃ t', factoryResetDecode t = .moved t' ∧
      AtDone u (if (hi ++ lo : Word) = 0x0000 then .ok .unit else .err (.operationFailed (.nonZeroAck (hi ++ lo)))) t' := by
  obtain ⟨hrec, hat⟩ := ht
  rw [factoryResetDecode, decodeRawWordOp_eq t _ hrec, if_neg (by simp)]
  by_cases hw : (hi ++ lo : Word) = 0x0000
  · rw [if_pos hw]
    exact ⟨_, if_pos hw, rfl, rfl, hat.outside⟩
  · rw [if_neg hw]
    exact ⟨_, if_neg hw, rfl, rfl, hat.outside⟩

/-- Settles O28: the read of two bytes follows the write at once; DECODE tests their word for zero and asks no policy. -/
theorem factoryResetTestsForZero : Obligations.FactoryResetTestsForZero := by
  unfold Obligations.FactoryResetTestsForZero
  intro s ws rs hp
  have hwrite : Reaches .factoryReset factoryResetCommand s 30 (AtPhase s [0x36, 0x32] .factoryReset 1 .write) :=
    reaches_write rfl rfl rfl hp
  have hread (ha : s.writeAnswers = .ok :: ws) := hwrite.sentToRead ha rfl (by decide)
  refine ⟨fun ha => hwrite.notSent ha, fun ha hr => (hread ha).notHeard hr, fun ha bs hr => ⟨fun hl => ?_, ?_⟩⟩
  · refine (((hread ha).responded hr hl.le).step fun t ⟨hrec, hat⟩ => ⟨_, ?_, hat.atDone_raise _⟩).finishes
    rw [phaseStep, hat.phase]
    exact factoryResetDecode_of_short hrec hl
  · rintro hi lo rfl
    have hend := (((hread ha).responded hr (le_refl 2)).step fun t ht => by
      rw [phaseStep, ht.2.phase]
      exact factoryResetDecode_of_pair ht).finishes
    exact ⟨fun hw => by rw [hend, if_pos hw]; rfl, fun hw => by rw [hend, if_neg hw]; rfl⟩

theorem accepted_triple {policy : CrcPolicy} {hi lo c : Byte} (h : policy = .acceptAlways ∨ crc8 [hi, lo] = c) :
    Accepted policy [hi, lo, c] 1 := by
  refine h.imp_right fun hc k hk => ?_
  obtain rfl : k = 0 := by omega
  exact beq_iff_eq.mpr hc

theorem rejectedAt_triple {policy : CrcPolicy} {hi lo c : Byte} (hs : policy = .strict) (h : crc8 [hi, lo] ≠ c) :
    RejectedAt policy [hi, lo, c] 1 0 :=
  ⟨hs, Nat.one_pos, beq_eq_false_iff_ne.mpr h, nofun⟩

/-- Settles O29: the read of three bytes follows the wait; the CRC test of the decoder comes before the test of the value. -/
theorem forcedRecalibrationReturnsCorrection : Obligations.ForcedRecalibrationReturnsCorrection := by
  unfold Obligations.ForcedRecalibrationReturnsCorrection
  intro s g ws rs hp
  have hwrite (hg : g.toNat ≤ 32000) :
      Reaches (.forcedRecalibration g) (recalibrationCommand g) s 30
        (AtPhase s (encodeFrame 0x362F [g]) (.forcedRecalibration g) 1 .write) :=
    reaches_write rfl (by simp [recalibrationCommand, recalibrationCheck, targetInRange_iff.mpr hg, Instr.payload]) rfl hp
  refine ⟨fun hg => exec_rejected (c := recalibrationCommand g) rfl ?_ hp, fun hg ha => (hwrite hg).notSent ha,
    fun hg ha => ?_⟩
  · simp [recalibrationCommand, recalibrationCheck, mt targetInRange_iff.mp (Nat.not_le.mpr hg)]
  have hdelay := (hwrite hg).step fun _ ht => ht.write_ok_delay ha rfl
  refine ⟨fun hk => hdelay.pending hk rfl rfl, fun k hk => ?_⟩
  have hread := hdelay.step fun _ ht => ht.delay_read hk rfl rfl (Nat.succ_ne_zero 2)
  refine ⟨fun hr => hread.notHeard hr, fun bs hr => ⟨fun hl => ?_, ?_⟩⟩
  · exact (hread.responded hr hl.le).decoderError rfl (by decide) (decodeOutcome_of_short _ hl)
  rintro hi lo c rfl
  have hresp := hread.responded hr (le_refl 3)
  refine ⟨fun hs hc => ?_, fun hacc => ⟨fun hv => ?_, fun hz ho => ?_⟩⟩
  · exact hresp.decoderError rfl (by decide) (decodeOutcome_of_rejectedAt (le_refl 3) (rejectedAt_triple hs hc))
  · exact (hresp.decoded rfl (by decide) (decodeOutcome_of_accepted (le_refl 3) (accepted_triple hacc))
      fun t ht => ⟨_, if_pos hv, ht.atDone_raise _⟩).finishes
  · exact (hresp.decoded rfl (by decide) (decodeOutcome_of_accepted (le_refl 3) (accepted_triple hacc))
      fun t ht => ⟨_, if_neg (not_or.mpr ⟨hz, ho⟩), ht.atDone_answer _⟩).finishes

/-! ### configure -/

theorem exec_configure_idle {s : State} (hp : s.phase = .idle) (a : DevAddr) (policy : CrcPolicy) :
    exec (.configure a policy) s =
      if devAddrLegal a then .next (finish (.ok .unit) { s with devAddr := a, crcPolicy := policy })
      else .next (finish (.err (.invalidArgument (.devAddr a))) s) := by
  rw [exec, execConfigure, whenIdle_idle hp]

/-- Settles O31: in IDLE the address decides; outside IDLE no request is accepted. -/
theorem configureSetsBothOrNeither : Obligations.ConfigureSetsBothOrNeither := by
  unfold Obligations.ConfigureSetsBothOrNeither
  intro s a policy
  refine ⟨fun hp ha => ?_, fun hp h64 h65 => ?_, fun hp => ?_⟩
  · rw [exec_configure_idle hp, if_pos (devAddrLegal_iff.mpr ha)]
  · rw [exec_configure_idle hp, if_neg (mt devAddrLegal_iff.mp (not_or.mpr ⟨h64, h65⟩))]
  · rw [exec, execConfigure, whenIdle_busy hp]

end Sys2Proof.Machine
end

section
/-! PROOFS. `identify` (42_commands.md R111, 45_host_conversions.md R149): one attempt on top of the shared course, and the induction
over the attempts that mismatched. -/

namespace Sys2Proof.Machine

open Sys2Proof.Claims

/-! ### The environment over the mismatching attempts -/

theorem failedAttempts_concat (a : DevAddr) (ms : List (List Byte)) (bs : List Byte) :
    failedAttempts a (ms ++ [bs]) =
      failedAttempts a ms ++ [.write a identifyBytes .ok, .read a 18 (.ok bs), .wait .identBackoff] := by
  simp [failedAttempts]

theorem afterAttempts_nil {s : State} {ws : List WriteAnswer} {rs : List ReadAnswer} {k : Nat} (h : Answers s [] ws rs k) :
    afterAttempts s [] ws rs k = s := by
  obtain ⟨hws, hrs, hk⟩ := h
  simp only [List.length_nil, List.replicate_zero, List.nil_append, List.map_nil, Nat.zero_add] at hws hrs hk
  simp [afterAttempts, failedAttempts, ← hws, ← hrs, ← hk]

/-- One more mismatching attempt is a write, a read and the backoff (R111). -/
theorem afterAttempts_concat (s : State) (ms : List (List Byte)) (bs : List Byte) (ws : List WriteAnswer)
    (rs : List ReadAnswer) (k : Nat) :
    afterAttempts s (ms ++ [bs]) ws rs k =
      (((afterAttempts s ms (.ok :: ws) (.ok bs :: rs) (k + 1)).wrote identifyBytes .ok ws).heard 18 (.ok bs) rs).waited
        .identBackoff k := by
  simp [afterAttempts, failedAttempts_concat, State.wrote, State.heard, State.waited]

theorem answers_concat {s : State} {ms : List (List Byte)} {bs : List Byte} {ws : List WriteAnswer} {rs : List ReadAnswer}
    {k : Nat} (h : Answers s (ms ++ [bs]) ws rs k) : Answers s ms (.ok :: ws) (.ok bs :: rs) (k + 1) := by
  obtain ⟨hws, hrs, hk⟩ := h
  refine ⟨?_, ?_, ?_⟩
  · simpa [List.replicate_succ'] using hws
  · simpa using hrs
  · simp at hk
    omega

/-! ### The test of one attempt -/

/-- `x[0] ++ x[1]` are bytes 0, 1, 3 and 4 of the response (R149). -/
theorem identityOf_wordAt (bs : List Byte) : identityOf (wordAt bs 0) (wordAt bs 1) = identityIn bs := by
  show ((bs.getD 0 0 ++ bs.getD 1 0 : Word) ++ (bs.getD 3 0 ++ bs.getD 4 0 : Word) : BitVec 32) =
    (bs.getD 0 0 ++ bs.getD 1 0 ++ bs.getD 3 0 ++ bs.getD 4 0 : BitVec 32)
  generalize bs.getD 0 0 = b0, bs.getD 1 0 = b1, bs.getD 3 0 = b3, bs.getD 4 0 = b4
  exact (BitVec.append_assoc (x₁ := b0 ++ b1) (x₂ := b3) (x₃ := b4)).symm

/-- The test of `identify`: a match, or any identity on the fifth attempt, is the result; another identity goes to the backoff
of the next attempt (R111). -/
theorem identifyWords_eq (bs : List Byte) {n : Nat} {t : State} (hn : t.attempt = some n) :
    identifyWords ((List.range 6).map (wordAt bs)) t = .moved
      (if identityIn bs = Config.expectedId ∨ n = 5 then
        answer (.identity (identityIn bs)) (setIdMatch (identityIn bs) t)
      else { setIdMatch (identityIn bs) t with attempt := some (n + 1), phase := .delay }) := by
  show identifyWords (wordAt bs 0 :: wordAt bs 1 :: _) t = _
  simp only [identifyWords, identityOf_wordAt, setIdMatch_attempt, hn, setIdMatch_idMatch, Option.some.injEq, beq_iff_eq,
    Config.identAttempts, ite_or, apply_ite Progress.moved]

section
variable {u : State} {bs : List Byte} {n : Nat} {t : State}

theorem identifyWords_returns (ht : AtPhase u identifyBytes .identify n .decode t)
    (h : identityIn bs = Config.expectedId ∨ n = 5) :
    ∃ t', identifyWords ((List.range 6).map (wordAt bs)) t = .moved t' ∧ AtDone u (.ok (.identity (identityIn bs))) t' := by
  rw [identifyWords_eq bs ht.attempt, if_pos h]
  exact ⟨_, rfl, rfl, rfl, ht.outside⟩

theorem identifyWords_retries (ht : AtPhase u identifyBytes .identify n .decode t)
    (h : identityIn bs ≠ Config.expectedId) (hn : n ≠ 5) :
    ∃ t', identifyWords ((List.range 6).map (wordAt bs)) t = .moved t' ∧
      AtPhase u identifyBytes .identify (n + 1) .delay t' := by
  rw [identifyWords_eq bs ht.attempt, if_neg (not_or.mpr ⟨h, hn⟩)]
  exact ⟨_, rfl, rfl, ht.frame, ht.op, rfl, ht.bitcnt, ht.outside⟩

end

/-! ### The attempts -/

section
variable {s u : State} {m n k : Nat} {ws : List WriteAnswer} {rs : List ReadAnswer} {bs : List Byte}

/-- A mismatching attempt before the fifth leads over the backoff to the write of the next one. -/
theorem Reaches.identify_retries
    (h : Reaches .identify identifyCommand s (m + 4) (AtPhase u identifyBytes .identify n .write))
    (ha : u.writeAnswers = .ok :: ws) (hr : u.readAnswers = .ok bs :: rs) (hk : u.waitsOver = k + 1)
    (hm : Mismatch u.crcPolicy bs) (hn : n ≠ 5) :
    Reaches .identify identifyCommand s m
      (AtPhase (((u.wrote identifyBytes .ok ws).heard 18 (.ok bs) rs).waited .identBackoff k) identifyBytes .identify
        (n + 1) .write) := by
  obtain ⟨hl, hacc, hne⟩ := hm
  have hresponded := (h.sentToRead ha rfl (by decide)).responded hr hl.le
  have hdelay := hresponded.decoded rfl (by decide) (decodeOutcome_of_accepted hl.ge hacc)
    fun _ ht => identifyWords_retries ht hne hn
  exact hdelay.step fun _ ht => ht.delay_write hk rfl

end

/-- After fewer than five mismatching attempts `identify` stands before the write of the next one; each took four phases. -/
theorem reaches_attempt {s : State} (hp : s.phase = .idle) (ms : List (List Byte)) {ws : List WriteAnswer}
    {rs : List ReadAnswer} {k m : Nat} (hlen : ms.length ≤ 4) (hms : ∀ b ∈ ms, Mismatch s.crcPolicy b)
    (hans : Answers s ms ws rs k) (hfuel : m + 4 * ms.length = 30) :
    Reaches .identify identifyCommand s m
      (AtPhase (afterAttempts s ms ws rs k) identifyBytes .identify (ms.length + 1) .write) := by
  induction ms using List.reverseRecOn generalizing ws rs k m with
  | nil =>
    obtain rfl : m = 30 := hfuel
    rw [afterAttempts_nil hans]
    exact reaches_write rfl rfl rfl hp
  | append_singleton ms bs ih =>
    rw [List.length_append, List.length_singleton] at hlen hfuel ⊢
    rw [afterAttempts_concat]
    have hbefore := ih (m := m + 4) (by omega) (fun b hb => hms b (List.mem_append_left _ hb)) (answers_concat hans) (by omega)
    exact hbefore.identify_retries rfl rfl rfl (hms bs (by simp)) (by omega)

/-- Settles O30: the mismatching attempts lead to the write of the next one, and what that one is answered ends the command. -/
theorem identifyRetriesMismatchesOnly : Obligations.IdentifyRetriesMismatchesOnly := by
  unfold Obligations.IdentifyRetriesMismatchesOnly
  intro s ms bs ws rs k hp hlen hms
  obtain ⟨m, hm⟩ : ∃ m, m + 4 + 4 * ms.length = 30 := ⟨26 - 4 * ms.length, by omega⟩
  have hread {ws rs} (hans : Answers s ms (.ok :: ws) rs k) :=
    (reaches_attempt hp ms hlen hms hans hm).sentToRead rfl rfl (by decide)
  refine ⟨fun hans => ?_, fun hans => ?_, fun hans hl => ?_, fun j hans hl hrej => ?_, fun hans hl hacc hlast => ?_⟩
  · exact (reaches_attempt hp ms hlen hms hans hm).notSent rfl
  · exact (hread hans).notHeard rfl
  · exact ((hread hans).responded rfl hl.le).decoderError rfl (by decide) (decodeOutcome_of_short _ hl)
  · exact ((hread hans).responded rfl hl.le).decoderError rfl (by decide) (decodeOutcome_of_rejectedAt hl.ge hrej)
  · exact (((hread hans).responded rfl hl.le).decoded rfl (by decide) (decodeOutcome_of_accepted hl.ge hacc)
      fun _ ht => identifyWords_returns ht (hlast.imp_right (congrArg (· + 1)))).finishes

end Sys2Proof.Machine
end

section
/-! PROOFS. The conversions from raw codes to physical values (45_host_conversions.md R140, R141): the formula for every raw code,
and what it gives at the least and the greatest one. -/

namespace Sys2Proof

/-- R140. -/
theorem tempFromRaw_eq (raw : Word) : tempFromRaw raw = -45 + 175 * (raw.toNat : Rat) / 65535 := rfl

/-- R141. -/
theorem rhFromRaw_eq (raw : Word) : rhFromRaw raw = -6 + 125 * (raw.toNat : Rat) / 65535 := rfl

/-- The greatest raw code is the divisor of both formulas, so there they give the offset plus the whole span. -/
theorem toNat_greatestRaw : (0xFFFF : Word).toNat = 65535 := rfl

/-- Settles O32: the formulas hold for every raw code, and at the two ends their fraction is 0 and 1. -/
theorem rawCodesToPhysicalValues : Obligations.RawCodesToPhysicalValues := by
  unfold Obligations.RawCodesToPhysicalValues
  refine ⟨fun raw => ⟨tempFromRaw_eq raw, rhFromRaw_eq raw⟩, ?_, ?_, ?_, ?_⟩
  · norm_num [tempFromRaw_eq]
  · norm_num [tempFromRaw_eq, toNat_greatestRaw]
  · norm_num [rhFromRaw_eq]
  · norm_num [rhFromRaw_eq, toNat_greatestRaw]

end Sys2Proof
end

section
/-! PROOFS. `InvalidArgument` (60_exceptions.md R162): CHECK and `configure` raise it for an argument that fails, and nothing else
does. -/

namespace Sys2Proof.Machine

open Sys2Proof.Claims

/-- The result an operation ends with is the last one the host has. -/
theorem eq_of_finish_results_eq {r r' : OpResult} {old : List OpResult} {s : State}
    (h : (finish r s).results = old ++ [r']) : r = r' :=
  List.singleton_inj.mp (List.append_inj' h rfl).2

/-- CHECK fails with `InvalidArgument` only, for an argument of the instruction (R145 to R147, R162). -/
theorem check_error_refused {i : Instr} {c : Command} {e : OpError} (hc : commandOf i = some c) (he : c.check = .error e) :
    ∃ a, e = .invalidArgument a ∧ Refused i a := by
  cases i <;> cases hc
  case setRhtCompensation t h =>
    simp only [rhtCommand, rhtCheck] at he
    split at he
    · next ht => cases he; exact ⟨.temperature t, rfl, rfl, by simpa [← temperatureInRange_iff] using ht⟩
    · split at he
      · next hh => cases he; exact ⟨.humidity h, rfl, rfl, by simpa [← humidityInRange_iff] using hh⟩
      · cases he
  case setPressureCompensation p =>
    simp only [pressureCommand, pressureCheck] at he
    split at he
    · next hp => cases he; exact ⟨.pressure p, rfl, rfl, by simpa [← pressureInRange_iff] using hp⟩
    · cases he
  case forcedRecalibration g =>
    simp only [recalibrationCommand, recalibrationCheck] at he
    split at he
    · next hg =>
      cases he
      exact ⟨.targetPpm g, rfl, rfl, Nat.not_le.mp (by simpa [← targetInRange_iff] using hg)⟩
    · cases he
  all_goals cases he

/-! ### A command whose arguments pass -/

/-- No `InvalidArgument` stands in DONE or has been handed over after the results `old`. -/
structure NoArgumentError (old : List OpResult) (t : State) : Prop where
  result : ∀ a, t.result ≠ some (.err (.invalidArgument a))
  results : ∀ a, t.results ≠ old ++ [.err (.invalidArgument a)]

section
variable {old : List OpResult} {i : Instr} {c : Command} {s t : State}

theorem NoArgumentError.accept (i : Instr) (s : State) : NoArgumentError s.results (accept i s) :=
  ⟨nofun, fun a => by simp⟩

theorem NoArgumentError.answer (h : NoArgumentError old s) (v : Value) : NoArgumentError old (answer v s) :=
  ⟨nofun, h.results⟩

theorem NoArgumentError.afterDelay (h : NoArgumentError old s) (c : Command) : NoArgumentError old (afterDelay c s) := by
  unfold Machine.afterDelay
  split
  · exact h.answer .unit
  · exact ⟨h.result, h.results⟩

theorem NoArgumentError.afterWrite (h : NoArgumentError old s) (c : Command) : NoArgumentError old (afterWrite c s) := by
  unfold Machine.afterWrite
  split
  · exact ⟨h.result, h.results⟩
  · exact h.afterDelay c

/-- What DONE hands over is the result that stood there. -/
theorem NoArgumentError.finish (h : NoArgumentError old s) {r : OpResult} (hr : s.result = some r) :
    NoArgumentError old (finish r s) :=
  ⟨nofun, fun a hrs => h.result a (hr.trans (congrArg some (eq_of_finish_results_eq hrs)))⟩

/-- After a check that passed, no phase brings up `InvalidArgument` (R162). -/
theorem Course.keeps_noArgumentError {ws : List Word} (hok : c.check = .ok ws) (hcourse : Course i c s t)
    (h : NoArgumentError old s) : NoArgumentError old t := by
  cases hcourse with
  | rejected e hp hc => cases hok.symm.trans hc
  | notSent | notHeard => exact ⟨nofun, h.results⟩
  | sent bytes rest => exact NoArgumentError.afterWrite (s := s.wrote bytes .ok rest) ⟨h.result, h.results⟩ c
  | waited w k => exact NoArgumentError.afterDelay (s := s.waited w k) ⟨h.result, h.results⟩ c
  | passed => exact h.afterDelay c
  | decoded x' ok crc b id p n r hp hb hd =>
    refine ⟨fun a hr => ?_, h.results⟩
    cases hd with
    | value v => cases hr
    | error e he ha => cases hr; exact ha a rfl
    | again n hi hn h5 => exact h.result a hr
  | ended r hp hr => exact h.finish hr
  | checked | encoded | backedOff | heard => exact ⟨h.result, h.results⟩

/-- A command ends with `InvalidArgument` only where its check failed (R162). -/
theorem exec_command_invalidArgument {a : Argument} (hc : commandOf i = some c) (hp : s.phase = .idle)
    (h : exec i s = .next t) (hres : t.results = s.results ++ [.err (.invalidArgument a)]) :
    Refused i a ∧ t = finish (.err (.invalidArgument a)) s := by
  cases hcheck : c.check with
  | error e =>
    obtain rfl : finish (.err e) s = t := Host.Outcome.next.inj ((exec_rejected hc hcheck hp).symm.trans h)
    obtain rfl : e = .invalidArgument a := OpResult.err.inj (eq_of_finish_results_eq hres)
    obtain ⟨a', heq, hrefused⟩ := check_error_refused hc hcheck
    cases heq
    exact ⟨hrefused, rfl⟩
  | ok ws =>
    rw [exec_command_idle hc hp] at h
    have hnone : NoArgumentError s.results t :=
      runPhases_keeps hc (fun _ _ hs hcourse => hcourse.keeps_noArgumentError hcheck hs) (.accept i s) h
    exact absurd hres (hnone.results a)

end

/-! ### The operations that are no commands -/

/-- `configure` ends with `InvalidArgument` only for an address that is not legal (R125). -/
theorem exec_configure_invalidArgument {b : DevAddr} {policy : CrcPolicy} {s t : State} {a : Argument} (hp : s.phase = .idle)
    (h : exec (.configure b policy) s = .next t) (hres : t.results = s.results ++ [.err (.invalidArgument a)]) :
    Refused (.configure b policy) a ∧ t = finish (.err (.invalidArgument a)) s := by
  rcases exec_configure hp h with ⟨-, rfl⟩ | ⟨hb, rfl⟩
  · cases eq_of_finish_results_eq hres
  · cases eq_of_finish_results_eq hres
    exact ⟨⟨rfl, not_or.mp (mt devAddrLegal_iff.mpr (Bool.eq_false_iff.mp hb))⟩, rfl⟩

/-- The codec raises no `InvalidArgument` by itself (R93, R121). -/
theorem raisedBy_invalidArgument (a : Argument) (i : Instr) : (OpError.invalidArgument a).raisedBy i = false := by
  cases i <;> rfl

/-- What an operation of the CRC unit or of the codec hands over is no `InvalidArgument`. -/
theorem HandsOver.ne_invalidArgument {i : Instr} {old rs : List OpResult} (h : HandsOver i old rs) (a : Argument) :
    rs ≠ old ++ [.err (.invalidArgument a)] := by
  intro hrs
  cases h with
  | nothing => simp at hrs
  | value v => cases List.append_cancel_left hrs
  | error e he =>
    cases List.append_cancel_left hrs
    rw [raisedBy_invalidArgument] at he
    cases he

/-! ### Every operation -/

/-- An operation that ends with `InvalidArgument` names an argument that fails, and did nothing but end (R162). -/
theorem exec_invalidArgument {i : Instr} {s t : State} {a : Argument} (hp : s.phase = .idle) (h : exec i s = .next t)
    (hres : t.results = s.results ++ [.err (.invalidArgument a)]) :
    Refused i a ∧ t = finish (.err (.invalidArgument a)) s := by
  cases hc : commandOf i with
  | some c => exact exec_command_invalidArgument hc hp h hres
  | none =>
    by_cases hcfg : ∃ b policy, i = .configure b policy
    · obtain ⟨b, policy, rfl⟩ := hcfg
      exact exec_configure_invalidArgument hp h hres
    · obtain ⟨x', ok, crc, n, tx', len, rs, -, hrs, -, rfl⟩ := exec_internal hc (fun b policy hi => hcfg ⟨b, policy, hi⟩) hp h
      exact absurd hres (hrs.ne_invalidArgument a)

/-- Settles O40: the operation did nothing but end, and its end leaves the trace and the answers alone. -/
theorem invalidArgumentMakesNoTransaction : Obligations.InvalidArgumentMakesNoTransaction := by
  unfold Obligations.InvalidArgumentMakesNoTransaction
  intro i s t a hp h hres
  obtain ⟨hrefused, rfl⟩ := exec_invalidArgument hp h hres
  exact ⟨hrefused, rfl, rfl, rfl⟩

end Sys2Proof.Machine
end

section
/-! PROOFS. A busy block (70_reset_and_hazards.md R208, R209): it accepts no request, and outside IDLE nothing but the reset event
writes the configuration. -/

namespace Sys2Proof.Machine

/-! ### What the host sets -/

/-- The parts of the state the host sets: the configuration (R11) and the requests to come (R8). -/
def State.setByHost (s : State) : DevAddr × CrcPolicy × List Request := (s.devAddr, s.crcPolicy, s.requests)

theorem setByHost_eq_iff {s t : State} :
    t.setByHost = s.setByHost ↔ t.devAddr = s.devAddr ∧ t.crcPolicy = s.crcPolicy ∧ t.requests = s.requests := by
  rw [State.setByHost, State.setByHost, Prod.mk.injEq, Prod.mk.injEq]

@[simp] theorem afterDelay_setByHost (c : Command) (s : State) : (afterDelay c s).setByHost = s.setByHost := by
  unfold afterDelay
  split <;> rfl

@[simp] theorem afterWrite_setByHost (c : Command) (s : State) : (afterWrite c s).setByHost = s.setByHost := by
  unfold afterWrite
  split
  · rfl
  · exact afterDelay_setByHost c s

/-- No phase of a command writes what the host sets (R17). -/
theorem Course.setByHost {i : Instr} {c : Command} {s t : State} (h : Course i c s t) : t.setByHost = s.setByHost := by
  cases h with
  | sent => exact afterWrite_setByHost c _
  | waited | passed => exact afterDelay_setByHost c _
  | _ => rfl

theorem runPhases_setByHost {i : Instr} {c : Command} (hc : commandOf i = some c) {n : Nat} {s t : State}
    (h : runPhases c n s = .next t) : t.setByHost = s.setByHost :=
  runPhases_keeps hc (P := fun u => u.setByHost = s.setByHost) (fun _ _ hs hcourse => hcourse.setByHost.trans hs) rfl h

/-! ### Requests outside IDLE -/

/-- Outside IDLE no operation has an effect: each is guarded by the test for IDLE (R208). -/
theorem exec_busy {s : State} (hp : s.phase ≠ .idle) (i : Instr) : exec i s = .next s := by
  cases hc : commandOf i with
  | some c => rw [exec_command hc, request, whenIdle_busy hp]
  | none =>
    cases i <;> cases hc
    all_goals simp only [exec, execCrcBitStep, execCrcByteStep, execCrcInit, execCrc8, execCrcWord, execCrcCheck,
      execEncodeCommand, execEncodeNarrow, execEncodeFrame, execDecodeWords, execDecodeRawWord, execConfigure,
      whenIdle_busy hp]

/-- Outside IDLE a step is the reset event or goes on with the running command, and neither takes a request. -/
theorem Stepped.requests_of_busy {s t : State} (h : Stepped s t) (hp : s.phase ≠ .idle) : t.requests = s.requests := by
  cases h with
  | reset => exact resetBlock_requests s
  | quiet _ hidle | accepted _ _ _ _ _ _ hidle | other _ _ _ _ _ hidle => exact absurd hidle hp
  | resumed i c t hr hp ho hc h => exact (setByHost_eq_iff.mp (runPhases_setByHost hc h)).2.2

/-- Settles O42: every operation is guarded by the test for IDLE, and a step outside IDLE takes no request. -/
theorem busyBlockAcceptsNothing : Obligations.BusyBlockAcceptsNothing := by
  unfold Obligations.BusyBlockAcceptsNothing
  exact ⟨fun i _ hp => exec_busy hp i, fun _ _ hp h => (step_next h).requests_of_busy hp⟩

/-! ### The configuration over a step -/

/-- The narrow half of the command map holds commands only (R58). -/
theorem decodeNarrowCode_isCommand {code : Byte} {bytes left : List Byte} {i : Instr}
    (h : decodeNarrowCode code bytes = .ok (i, left)) : i.isCommand = true := by
  revert h
  fun_cases decodeNarrowCode code bytes
  all_goals rintro ⟨⟩
  all_goals rfl

/-- The wide half of the command map holds commands only (R58). -/
theorem decodeWideCode_isCommand {code : Word} {bytes left : List Byte} {i : Instr}
    (h : decodeWideCode code bytes = .ok (i, left)) : i.isCommand = true := by
  revert h
  fun_cases decodeWideCode code bytes
  all_goals rintro ⟨⟩
  all_goals rfl

/-- A frame names a command; no other operation has a wire form (R58). -/
theorem decode_isCommand {tag : Tag} {bytes left : List Byte} {i : Instr} (h : decode tag bytes = .ok (i, left)) :
    i.isCommand = true := by
  revert h
  fun_cases decode tag bytes
  · exact decodeNarrowCode_isCommand
  · nofun
  · exact decodeWideCode_isCommand
  · nofun

/-- `configure` has no wire form, so the host asks for it by name only (R58, R125). -/
theorem eq_call_of_instr_configure {r : Request} {a : DevAddr} {p : CrcPolicy} (h : r.instr = .ok (.configure a p)) :
    r = .call (.configure a p) := by
  cases r with
  | call i => exact congrArg Request.call (Except.ok.inj h)
  | frame tag bytes =>
    simp only [Request.instr] at h
    split at h
    · cases h
    · next hd =>
      cases h
      cases decode_isCommand hd

/-- Without a reset due, the configuration changes only where the step runs `configure` (R17, R209). -/
theorem Stepped.configuration {s t : State} (h : Stepped s t) (hr : s.resetRequested = false)
    (hcfg : s.phase = .idle → ∀ a p rest, s.requests ≠ .call (.configure a p) :: rest) :
    t.devAddr = s.devAddr ∧ t.crcPolicy = s.crcPolicy := by
  cases h with
  | reset hdue => cases hdue.symm.trans hr
  | quiet => exact ⟨rfl, rfl⟩
  | accepted r rest i c t hr hp hq hi hc h => exact (setByHost_eq_iff.mp (runPhases_setByHost hc h)).imp_right And.left
  | other r rest i t hr hp hq hi hc h =>
    have hne (a p) (hi' : i = .configure a p) : False :=
      hcfg hp a p rest (eq_call_of_instr_configure (hi' ▸ hi) ▸ hq)
    obtain ⟨x', ok, crc, b, tx', len, rs, -, -, -, rfl⟩ := exec_internal (s := { s with requests := rest }) hc hne hp h
    exact ⟨rfl, rfl⟩
  | resumed i c t hr hp ho hc h => exact (setByHost_eq_iff.mp (runPhases_setByHost hc h)).imp_right And.left

/-- Settles O55: of all a step can do, the reset event and `configure` are left out by the hypotheses, and nothing else writes the
configuration. -/
theorem configurationStandsStill : Obligations.ConfigurationStandsStill := by
  unfold Obligations.ConfigurationStandsStill
  exact fun _ _ h hr hcfg => (step_next h).configuration hr hcfg

end Sys2Proof.Machine
end

section
/-! PROOFS. The invariant of the machine (10_state.md R11, R13, R15, R16; 60_exceptions.md R160): the buffers' part and the running
command's part, what every phase of a command keeps of them, and the invariant over a step. -/

namespace Sys2Proof.Machine

/-! ### What stands after a write or a wait -/

theorem afterDelay_eq (c : Command) (s : State) :
    c.asked = 0 ∧ afterDelay c s = answer .unit s ∨ c.asked ≠ 0 ∧ afterDelay c s = { s with phase := .read } := by
  unfold afterDelay
  split
  · next h => exact .inl ⟨h, rfl⟩
  · next h => exact .inr ⟨h, rfl⟩

theorem afterWrite_eq (c : Command) (s : State) :
    c.wait.isSome = true ∧ afterWrite c s = { s with phase := .delay } ∨ c.wait = none ∧ afterWrite c s = afterDelay c s := by
  unfold afterWrite
  split
  · next h => exact .inl ⟨by rw [h]; rfl, rfl⟩
  · next h => exact .inr ⟨h, rfl⟩

theorem afterDelay_shape (c : Command) (s : State) : ∃ p r, afterDelay c s = { s with phase := p, result := r } := by
  unfold afterDelay
  split <;> exact ⟨_, _, rfl⟩

/-- What follows a write leaves everything but the phase and the result alone. -/
theorem afterWrite_shape (c : Command) (s : State) : ∃ p r, afterWrite c s = { s with phase := p, result := r } := by
  unfold afterWrite
  split
  · exact ⟨_, _, rfl⟩
  · exact afterDelay_shape c s

/-! ### The buffers -/

/-- The part of the invariant that speaks of the byte spaces and of the CRC unit (R15, R16, R30). -/
structure Stored (s : State) : Prop where
  txWf : s.tx.wf
  rxWf : s.rx.wf
  bitcnt : s.bitcnt ≤ 8
  txLen : s.txLen ≤ Config.txCap
  rxLen : s.rxLen ≤ Config.rxCap
  txFilled : ∀ k, k < s.txLen → (s.tx.read k).isSome
  txInside : ∀ k, Config.txCap ≤ k → s.tx.read k = none
  rxFilled : ∀ k, (s.rx.read k).isSome ↔ k < s.rxLen

/-- The byte spaces and their lengths. -/
def State.spaces (s : State) : Memory × Nat × Memory × Nat := (s.tx, s.txLen, s.rx, s.rxLen)

theorem Stored.of_spaces_eq {s t : State} (h : Stored s) (hs : t.spaces = s.spaces) (hb : t.bitcnt ≤ 8) : Stored t := by
  simp only [State.spaces, Prod.mk.injEq] at hs
  obtain ⟨htx, htl, hrx, hrl⟩ := hs
  constructor
  case bitcnt => exact hb
  case txWf => exact htx ▸ h.txWf
  case rxWf => exact hrx ▸ h.rxWf
  case txLen => exact htl ▸ h.txLen
  case rxLen => exact hrl ▸ h.rxLen
  case txFilled => rw [htx, htl]; exact h.txFilled
  case txInside => rw [htx]; exact h.txInside
  case rxFilled => rw [hrx, hrl]; exact h.rxFilled

/-- Empty spaces, as reset, the acceptance of a request and the end of an operation leave them (R21, R23). -/
theorem Stored.of_empty {s : State} (hs : s.spaces = ([], 0, [], 0)) (hb : s.bitcnt = 0) : Stored s :=
  Stored.of_spaces_eq (s := State.reset)
    ⟨.nil, .nil, Nat.zero_le 8, Nat.zero_le _, Nat.zero_le _, nofun, fun _ _ => rfl, fun k => by simp [State.reset]⟩ hs
    (hb.trans_le (Nat.zero_le 8))

/-- A frame that fits, written from index 0 on (R92). -/
theorem Stored.of_frame {s t : State} (h : Stored s) {frame : List Byte} (hl : frame.length ≤ Config.txCap)
    (hs : t.spaces = (s.tx.writeBytes 0 frame, frame.length, s.rx, s.rxLen)) (hb : t.bitcnt ≤ 8) : Stored t := by
  refine Stored.of_spaces_eq (s := { s with tx := s.tx.writeBytes 0 frame, txLen := frame.length }) ?_ hs hb
  refine ⟨Memory.wf_writeBytes h.txWf 0 frame, h.rxWf, h.bitcnt, hl, h.rxLen, fun k hk => ?_, fun k hk => ?_, h.rxFilled⟩
  · have hk : k < frame.length := hk
    simp [Memory.read_writeBytes, hk]
  · exact (Memory.read_writeBytes_of_length_le (hl.trans hk) s.tx).trans (h.txInside k hk)

/-- A response that fits, loaded into `rx` (R110). -/
theorem Stored.of_response {s t : State} (h : Stored s) {bs : List Byte} (hl : bs.length ≤ Config.rxCap)
    (hs : t.spaces = (s.tx, s.txLen, Memory.ofBytes bs, bs.length)) (hb : t.bitcnt ≤ 8) : Stored t := by
  refine Stored.of_spaces_eq (s := rxLoad bs s) ?_ hs hb
  refine ⟨h.txWf, Memory.wf_ofBytes bs, h.bitcnt, h.txLen, hl, h.txFilled, h.txInside, fun k => ?_⟩
  rw [(received_rxLoad bs s).2 k]
  simp [rxLoad]

theorem asked_le {i : Instr} {c : Command} (hc : commandOf i = some c) : c.asked ≤ Config.rxCap := by
  cases i <;> cases hc <;> exact Nat.le_of_ble_eq_true rfl

/-- Every phase of a command keeps the buffers' part of the invariant. -/
theorem Course.stored {i : Instr} {c : Command} {s t : State} (hc : commandOf i = some c) (h : Course i c s t)
    (hs : Stored s) : Stored t := by
  cases h with
  | rejected | checked | notSent | backedOff | notHeard => exact hs.of_spaces_eq rfl hs.bitcnt
  | sent bytes rest =>
    obtain ⟨p, r, heq⟩ := afterWrite_shape c (s.wrote bytes .ok rest)
    rw [heq]
    exact hs.of_spaces_eq rfl hs.bitcnt
  | waited w k =>
    obtain ⟨p, r, heq⟩ := afterDelay_shape c (s.waited w k)
    rw [heq]
    exact hs.of_spaces_eq rfl hs.bitcnt
  | passed =>
    obtain ⟨p, r, heq⟩ := afterDelay_shape c s
    rw [heq]
    exact hs.of_spaces_eq rfl hs.bitcnt
  | encoded frame crc b hp hb hf hl hb8 => exact hs.of_frame hl rfl (hb8 hs.bitcnt)
  | heard bytes rest =>
    exact hs.of_response ((List.length_take_le c.asked bytes).trans (asked_le hc)) rfl hs.bitcnt
  | decoded x' ok crc b id p n r hp hb => exact hs.of_spaces_eq rfl (hb hs.bitcnt)
  | ended => exact .of_empty rfl rfl

/-! ### The running command -/

/-- What holds at each point of a run of the command `c` of `i`: the buffers' part of the invariant and, until the run is over,
that of the running command. -/
structure InRun (i : Instr) (c : Command) (s : State) : Prop where
  stored : Stored s
  op : s.phase ≠ .idle → s.op = some i
  running : s.phase ≠ .idle → Running i c s

section
variable {i : Instr} {c : Command} {s t : State}

/-- A command that has just been accepted (R13, R21). -/
theorem InRun.accept (i : Instr) (c : Command) (s : State) : InRun i c (accept i s) where
  stored := .of_empty rfl rfl
  op _ := rfl
  running _ := ⟨⟨1, rfl, by decide, by decide⟩, nofun, nofun, nofun, nofun⟩

/-- In WRITE, DELAY, READ and DECODE the frame stays in `tx`. -/
theorem Running.of_frame (ha : ∃ n, t.attempt = some n ∧ 1 ≤ n ∧ n ≤ Config.identAttempts)
    (hp : t.phase = .write ∨ t.phase = .delay ∨ t.phase = .read ∨ t.phase = .decode)
    (hf : ∃ tag bytes, encode i = some (tag, bytes) ∧ memRead .tx 0 t.txLen t = .ok bytes)
    (hr : t.phase = .read ∨ t.phase = .decode → c.asked ≠ 0) : Running i c t where
  attempt := ha
  payload h := by simp [h] at hp
  frame _ := hf
  response := hr
  result h := by simp [h] at hp

/-- In DONE nothing but the result is read. -/
theorem Running.of_result (ha : ∃ n, t.attempt = some n ∧ 1 ≤ n ∧ n ≤ Config.identAttempts) (hp : t.phase = .done)
    {r : OpResult} (hr : t.result = some r) (he : ∀ e, r = .err e → e.tabledFor t.crcPolicy i = true) : Running i c t where
  attempt := ha
  payload h := by simp [hp] at h
  frame h := by simp [hp] at h
  response h := by simp [hp] at h
  result _ := ⟨r, hr, he⟩

theorem Running.afterDelay (h : Running i c s)
    (hp : s.phase = .write ∨ s.phase = .delay ∨ s.phase = .read ∨ s.phase = .decode) : Running i c (afterDelay c s) := by
  rcases afterDelay_eq c s with ⟨-, heq⟩ | ⟨hasked, heq⟩ <;> rw [heq]
  · exact .of_result h.attempt rfl rfl nofun
  · exact .of_frame h.attempt (.inr (.inr (.inl rfl))) (h.frame hp) fun _ => hasked

theorem Running.afterWrite (h : Running i c s)
    (hp : s.phase = .write ∨ s.phase = .delay ∨ s.phase = .read ∨ s.phase = .decode) : Running i c (afterWrite c s) := by
  rcases afterWrite_eq c s with ⟨-, heq⟩ | ⟨-, heq⟩ <;> rw [heq]
  · exact .of_frame h.attempt (.inr (.inl rfl)) (h.frame hp) (by simp)
  · exact h.afterDelay hp

/-- Transactions and waits change nothing a running command reads of the block. -/
theorem Running.of_environment (h : Running i c s) (ws : List WriteAnswer) (rs : List ReadAnswer) (k : Nat)
    (tr : List Event) : Running i c { s with writeAnswers := ws, readAnswers := rs, waitsOver := k, trace := tr } where
  attempt := h.attempt
  payload hp := by
    rw [← h.payload hp]
    exact readWords_congr _ _ rfl
  frame := h.frame
  response := h.response
  result := h.result

/-- Every phase of a command leaves the next one what it reads, and an error only where R160 allows it. -/
theorem Course.running (hc : commandOf i = some c) (h : Course i c s t) (hs : Running i c s) (hp : t.phase ≠ .idle) :
    Running i c t := by
  obtain ⟨n, hn, h1, h5⟩ := hs.attempt
  cases h with
  | rejected e hphase he =>
    exact .of_result ⟨n, hn, h1, h5⟩ rfl rfl fun e' h' => OpResult.err.inj h' ▸ check_error_tabled hc he _
  | checked x' hphase he hr => exact ⟨⟨n, hn, h1, h5⟩, fun _ => hr, nofun, nofun, nofun⟩
  | encoded frame crc b hphase hb hf =>
    obtain ⟨tag, htag⟩ := encode_frameOf hc
    rw [← hf (hs.payload hphase)] at htag
    exact .of_frame ⟨n, hn, h1, h5⟩ (.inl rfl)
      ⟨tag, frame, htag, memRead_tx_writeBytes
        { s with txLen := frame.length, crc := crc, bitcnt := b, phase := .write } frame rfl⟩ (by simp)
  | notSent bytes rest hphase =>
    exact .of_result ⟨n, hn, h1, h5⟩ rfl rfl fun e he => OpResult.err.inj he ▸ write_error_tabled hc _
  | sent bytes rest hphase => exact (hs.of_environment rest _ _ _).afterWrite (.inl hphase)
  | backedOff w k hphase =>
    exact .of_frame ⟨n, hn, h1, h5⟩ (.inl rfl) (hs.frame (.inr (.inl hphase))) (by simp)
  | waited w k hphase => exact (hs.of_environment _ _ k _).afterDelay (.inr (.inl hphase))
  | passed hphase => exact hs.afterDelay (.inr (.inl hphase))
  | notHeard rest hphase =>
    exact .of_result ⟨n, hn, h1, h5⟩ rfl rfl fun e he =>
      OpResult.err.inj he ▸ read_error_tabled hc (hs.response (.inl hphase)) _
  | heard bytes rest hphase =>
    exact .of_frame ⟨n, hn, h1, h5⟩ (.inr (.inr (.inr rfl))) (hs.frame (.inr (.inr (.inl hphase))))
      fun _ => hs.response (.inl hphase)
  | decoded x' ok crc b id p m r hphase hb hd =>
    cases hd with
    | value v => exact .of_result ⟨n, hn, h1, h5⟩ rfl rfl nofun
    | error e he => exact .of_result ⟨n, hn, h1, h5⟩ rfl rfl fun e' h' => OpResult.err.inj h' ▸ he
    | again m hi hm hlast =>
      obtain rfl : m = n := Option.some.inj (hm.symm.trans hn)
      exact .of_frame ⟨m + 1, rfl, by omega, by omega⟩ (.inr (.inl rfl)) (hs.frame (.inr (.inr (.inr hphase)))) (by simp)
  | ended => exact absurd rfl hp

/-- The latched operation stays until the end of the operation wipes it out (R13, R21). -/
theorem Course.op (h : Course i c s t) : t.phase = .idle ∨ t.op = s.op := by
  cases h with
  | ended => exact .inl rfl
  | sent bytes rest =>
    obtain ⟨p, r, heq⟩ := afterWrite_shape c (s.wrote bytes .ok rest)
    rw [heq]
    exact .inr rfl
  | waited w k =>
    obtain ⟨p, r, heq⟩ := afterDelay_shape c (s.waited w k)
    rw [heq]
    exact .inr rfl
  | passed =>
    obtain ⟨p, r, heq⟩ := afterDelay_shape c s
    rw [heq]
    exact .inr rfl
  | _ => exact .inr rfl

/-- No phase starts in IDLE (R13). -/
theorem Course.phase_ne_idle (h : Course i c s t) : s.phase ≠ .idle := by
  cases h <;> simp_all

theorem Course.inRun (hc : commandOf i = some c) (h : Course i c s t) (hs : InRun i c s) : InRun i c t where
  stored := h.stored hc hs.stored
  op hp := (h.op.resolve_left hp).trans (hs.op h.phase_ne_idle)
  running hp := h.running hc (hs.running h.phase_ne_idle) hp

theorem runPhases_inRun (hc : commandOf i = some c) {n : Nat} (hs : InRun i c s) (h : runPhases c n s = .next t) :
    InRun i c t :=
  runPhases_keeps hc (fun _ _ hs hcourse => hcourse.inRun hc hs) hs h

end

/-! ### The invariant over a step -/

theorem Inv.stored {s : State} (h : Inv s) : Stored s :=
  ⟨h.txWf, h.rxWf, h.bitcnt, h.txLen, h.rxLen, h.txFilled, h.txInside, h.rxFilled⟩

theorem Inv.of_stored {s : State} (ha : devAddrLegal s.devAddr = true) (hs : Stored s)
    (hrun : s.phase ≠ .idle → ∃ i c, s.op = some i ∧ commandOf i = some c ∧ Running i c s) : Inv s :=
  ⟨ha, hs.txWf, hs.rxWf, hs.bitcnt, hs.txLen, hs.rxLen, hs.txFilled, hs.txInside, hs.rxFilled, hrun⟩

theorem Inv.of_idle {s : State} (ha : devAddrLegal s.devAddr = true) (hs : Stored s) (hp : s.phase = .idle) : Inv s :=
  .of_stored ha hs fun hne => absurd hp hne

theorem Inv.of_inRun {i : Instr} {c : Command} {s : State} (hc : commandOf i = some c)
    (ha : devAddrLegal s.devAddr = true) (hs : InRun i c s) : Inv s :=
  .of_stored ha hs.stored fun hp => ⟨i, c, hs.op hp, hc, hs.running hp⟩

/-- A block with the invariant that runs `i` stands in a run of it. -/
theorem Inv.inRun {i : Instr} {c : Command} {s : State} (h : Inv s) (hp : s.phase ≠ .idle) (ho : s.op = some i)
    (hc : commandOf i = some c) : InRun i c s := by
  obtain ⟨i', c', ho', hc', hrun⟩ := h.running hp
  obtain rfl : i' = i := Option.some.inj (ho'.symm.trans ho)
  obtain rfl : c' = c := Option.some.inj (hc'.symm.trans hc)
  exact ⟨h.stored, fun _ => ho, fun _ => hrun⟩

theorem runPhases_devAddr {i : Instr} {c : Command} (hc : commandOf i = some c) {n : Nat} {s t : State}
    (h : runPhases c n s = .next t) : t.devAddr = s.devAddr :=
  (setByHost_eq_iff.mp (runPhases_setByHost hc h)).1

/-- An operation that is no command stays in IDLE and keeps the invariant (R97, R125). -/
theorem Inv.exec_of_no_command {i : Instr} {s t : State} (hinv : Inv s) (hc : commandOf i = none) (hp : s.phase = .idle)
    (h : exec i s = .next t) : Inv t := by
  by_cases hcfg : ∃ a p, i = .configure a p
  · obtain ⟨a, p, rfl⟩ := hcfg
    rcases exec_configure hp h with ⟨ha, rfl⟩ | ⟨-, rfl⟩
    · exact .of_idle ha (.of_empty rfl rfl) rfl
    · exact .of_idle hinv.legalAddr (.of_empty rfl rfl) rfl
  · obtain ⟨x', ok, crc, b, tx', len, rs, hb, -, htx, rfl⟩ := exec_internal hc (fun a p hi => hcfg ⟨a, p, hi⟩) hp h
    refine .of_idle hinv.legalAddr ?_ hp
    rcases htx with ⟨rfl, rfl⟩ | ⟨frame, hl, rfl, rfl⟩
    · exact hinv.stored.of_spaces_eq rfl (hb hinv.bitcnt)
    · exact hinv.stored.of_frame hl rfl (hb hinv.bitcnt)

theorem Stepped.inv {s t : State} (h : Stepped s t) (hinv : Inv s) : Inv t := by
  cases h with
  | reset => exact .of_idle rfl (.of_empty rfl rfl) rfl
  | quiet => exact hinv
  | accepted r rest i c t hr hp hq hi hc h =>
    refine .of_inRun hc ?_ (runPhases_inRun hc (.accept i c _) h)
    rw [runPhases_devAddr hc h]
    exact hinv.legalAddr
  | other r rest i t hr hp hq hi hc h =>
    have hrest : Inv { s with requests := rest } :=
      .of_idle hinv.legalAddr (hinv.stored.of_spaces_eq rfl hinv.bitcnt) hp
    exact hrest.exec_of_no_command hc hp h
  | resumed i c t hr hp ho hc h =>
    refine .of_inRun hc ?_ (runPhases_inRun hc (hinv.inRun hp ho hc) h)
    rw [runPhases_devAddr hc h]
    exact hinv.legalAddr

/-- Settles O47: the address is the default one, and in IDLE with empty spaces nothing more is asked. -/
theorem resetSatisfiesTheInvariant : Obligations.ResetSatisfiesTheInvariant := by
  unfold Obligations.ResetSatisfiesTheInvariant
  exact .of_idle rfl (.of_empty rfl rfl) rfl

/-- Settles O48: the phases of a command keep the invariant one by one, and every other step leaves the block in IDLE. -/
theorem everyStepKeepsTheInvariant : Obligations.EveryStepKeepsTheInvariant := by
  unfold Obligations.EveryStepKeepsTheInvariant
  exact fun _ _ hinv h => (step_next h).inv hinv

end Sys2Proof.Machine
end

section
/-! PROOFS. What a run of a command does to the outside (20_memory.md R31, R33, 60_exceptions.md R160): which events it adds to the
trace, and that it never stops. -/

namespace Sys2Proof.Machine

/-! ### The events of the commands -/

/-- What may be seen of a command on the bus: a write of the frame of one of the fourteen, or a read of as many bytes as one of
them asks (R37, R60). -/
def Event.OfCommand : Event → Prop
  | .write _ bytes _ => (∃ i tag, i.isCommand = true ∧ encode i = some (tag, bytes)) ∧ bytes.length ∈ [1, 2, 5, 8]
  | .read _ n ans => n ∈ [2, 3, 12, 18] ∧ ∀ bytes, ans = .ok bytes → bytes.length ≤ n
  | .wait _ => True

theorem encode_length_mem {i : Instr} {tag : Tag} {bytes : List Byte} (h : encode i = some (tag, bytes)) :
    bytes.length ∈ [1, 2, 5, 8] := by
  cases i <;> cases h <;> simp [encodeNarrow, encodeFrame_length, Instr.payload]

section
variable {i : Instr} {c : Command} {s t : State}

theorem isCommand_of_commandOf (hc : commandOf i = some c) : i.isCommand = true := by
  rw [← commandOf_isSome, hc]
  rfl

theorem commandOf_of_isCommand (h : i.isCommand = true) : ∃ c, commandOf i = some c :=
  Option.isSome_iff_exists.mp ((commandOf_isSome i).trans h)

theorem asked_mem (hc : commandOf i = some c) (h : c.asked ≠ 0) : c.asked ∈ [2, 3, 12, 18] := by
  cases i <;> cases hc
  case identify => simp [identifyCommand]
  case readMeasurement => simp [readMeasurementCommand]
  case factoryReset => simp [factoryResetCommand]
  case forcedRecalibration => simp [recalibrationCommand]
  all_goals exact absurd rfl h

/-- In WRITE `tx` holds the frame of the running command, and READ asks what that command asks (R57). -/
theorem PhaseEvent.ofCommand {e : Event} (hc : commandOf i = some c) (hs : InRun i c s) (h : PhaseEvent c s e) :
    e.OfCommand := by
  cases h with
  | write bytes a hp hm =>
    obtain ⟨tag, frame, henc, hframe⟩ := (hs.running (by simp [hp])).frame (.inl hp)
    obtain rfl : frame = bytes := Except.ok.inj (hframe.symm.trans hm)
    exact ⟨⟨i, tag, isCommand_of_commandOf hc, henc⟩, encode_length_mem henc⟩
  | read a hp hl => exact ⟨asked_mem hc ((hs.running (by simp [hp])).response (.inl hp)), hl⟩
  | wait => trivial

/-- What is true of every event a phase can append is true of all a run appends. -/
theorem runPhases_appends_of_inRun {P : Event → Prop} (hc : commandOf i = some c)
    (hP : ∀ u e, InRun i c u → PhaseEvent c u e → P e) {n : Nat} (hs : InRun i c s) (h : runPhases c n s = .next t) :
    Appends P s t := by
  refine (runPhases_keeps hc (P := fun u => InRun i c u ∧ Appends P s u) (fun u v ⟨hu, ha⟩ hcourse => ?_)
    ⟨hs, .of_trace_eq rfl⟩ h).2
  refine ⟨hcourse.inRun hc hu, ?_⟩
  rcases hcourse.trace with heq | ⟨e, he, hv⟩
  · obtain ⟨es, htr, hes⟩ := ha
    exact ⟨es, heq.trans htr, hes⟩
  · exact ha.append_event (hP u e hu he) hv

theorem runPhases_appends_ofCommand (hc : commandOf i = some c) {n : Nat} (hs : InRun i c s)
    (h : runPhases c n s = .next t) : Appends Event.OfCommand s t :=
  runPhases_appends_of_inRun hc (fun _ _ hu he => he.ofCommand hc hu) hs h

theorem Stepped.appends_ofCommand (h : Stepped s t) (hinv : Inv s) : Appends Event.OfCommand s t := by
  cases h with
  | reset => exact .of_trace_eq (resetBlock_trace s)
  | quiet => exact .of_trace_eq rfl
  | accepted r rest i c t hr hp hq hi hc h => 
    exact runPhases_appends_ofCommand (s := accept i { s with requests := rest }) hc (.accept i c _) h
  | other r rest i t hr hp hq hi hc h =>
    exact .of_trace_eq (exec_trace_of_no_command (s := { s with requests := rest }) hc hp h)
  | resumed i c t hr hp ho hc h => exact runPhases_appends_ofCommand hc (hinv.inRun hp ho hc) h

end

/-- Settles O54: the events are those of the phases the step runs, and in each phase the frame and the count are those of the
running command. -/
theorem onlyCommandFramesReachTheBus : Obligations.OnlyCommandFramesReachTheBus := by
  unfold Obligations.OnlyCommandFramesReachTheBus
  intro s t hinv h
  obtain ⟨es, htr, hes⟩ := (step_next h).appends_ofCommand hinv
  exact ⟨es, htr, fun a bytes ans he => hes _ he, fun a n ans he => (hes _ he).1, fun a n bytes he => (hes _ he).2 bytes rfl⟩

/-! ### No phase stops -/

/-- The bytes below `rx_len` are what was received (R16). -/
theorem Stored.received {s : State} (h : Stored s) : ∃ bs, s.Received bs := by
  refine ⟨(List.range s.rxLen).map fun k => (s.rx.read k).getD 0, by simp, fun k => ?_⟩
  by_cases hk : k < s.rxLen
  · obtain ⟨b, hb⟩ := Option.isSome_iff_exists.mp ((h.rxFilled k).mpr hk)
    simp [hk, hb]
  · have hnone : s.rx.read k = none := by simpa [hk] using h.rxFilled k
    simp [hk, hnone]

/-- The words that are handed on are those of the triples received (R93). -/
theorem eq_of_decodeOutcome_ok {m : Nat} {policy : CrcPolicy} {bs : List Byte} {ws : List Word}
    (h : decodeOutcome m policy bs = .ok ws) : ws = (List.range m).map (wordAt bs) := by
  rw [decodeOutcome.eq_def] at h
  split at h
  · cases h
  · split at h
    · exact (Except.ok.inj h).symm
    · split at h
      · cases h
      · exact (Except.ok.inj h).symm

/-- DECODE of a triple-format response moves on when the command's own test of the words does (R93). -/
theorem decodeThen_moves {m : Nat} {k : List Word → State → Progress} {s : State} {bs : List Byte} (hr : s.Received bs)
    (hm : m ≤ Config.numWordRegs)
    (hk : ∀ u, u.attempt = s.attempt → ∃ t, k ((List.range m).map (wordAt bs)) u = .moved t) :
    ∃ t, decodeThen m s k = .moved t := by
  obtain ⟨u, he, hu, -, -⟩ := decodeWordsOp_eq m s.crcPolicy s bs hr hm
  rw [decodeThen, he]
  cases ho : decodeOutcome m s.crcPolicy bs with
  | error e => exact ⟨raise e u, rfl⟩
  | ok ws =>
    obtain rfl := eq_of_decodeOutcome_ok ho
    exact hk u (by rw [hu])

/-- DECODE of a command with a response moves on, whatever was received. -/
theorem decode_moved {i : Instr} {c : Command} {s : State} (hc : commandOf i = some c) (ha : c.asked ≠ 0)
    {bs : List Byte} (hr : s.Received bs) {n : Nat} (hn : s.attempt = some n) : ∃ t, c.decode s = .moved t := by
  cases i <;> cases hc
  case identify => exact decodeThen_moves hr (by decide) fun u hu => ⟨_, identifyWords_eq bs (hu.trans hn)⟩
  case readMeasurement => exact decodeThen_moves hr (by decide) fun u _ => ⟨_, rfl⟩
  case forcedRecalibration g =>
    exact decodeThen_moves hr (by decide) fun u _ => ⟨_, (apply_ite Progress.moved _ _ _).symm⟩
  case factoryReset =>
    show ∃ t, factoryResetDecode s = .moved t
    rw [factoryResetDecode, decodeRawWordOp_eq s bs hr]
    by_cases hl : bs.length < 2
    · rw [if_pos hl]
      exact ⟨_, rfl⟩
    · rw [if_neg hl]
      exact ⟨_, (apply_ite Progress.moved _ _ _).symm⟩
  all_goals exact absurd rfl ha

section
variable {i : Instr} {c : Command} {s : State}

/-- CHECK finds room for the payload words in `x` (R12, R16). -/
theorem checkPhase_moves (hc : commandOf i = some c) : ∃ t, checkPhase c s = .moved t := by
  unfold checkPhase
  cases hcheck : c.check with
  | error e => exact ⟨_, rfl⟩
  | ok ws =>
    have hl : ws.length ≤ 2 := by
      rw [check_payload hc hcheck, payload_length hc]
      exact payload_le hc
    obtain ⟨x', hx, -⟩ := loadWords_readWords ws s (hl.trans (by decide))
    simp only [hx]
    exact ⟨_, rfl⟩

/-- ENCODE finds the payload in `x` and room for the frame in `tx` (R16, R92). -/
theorem encodePhase_moves (hc : commandOf i = some c) (hr : readWords c.payload 0 s = .ok i.payload) :
    ∃ t, encodePhase c s = .moved t := by
  unfold encodePhase
  cases c.code with
  | narrow b => exact ⟨_, rfl⟩
  | wide w =>
    rw [← payload_length hc] at hr ⊢
    obtain ⟨crc, b, -, he⟩ := encodeFrameOp_eq w i.payload s hr ((payload_length hc).trans_le (payload_le hc))
    simp only [he]
    exact ⟨_, rfl⟩

/-- No phase of a running command reads anything that holds no value (R22). -/
theorem phaseStep_ne_faulted (hc : commandOf i = some c) (hs : InRun i c s) (f : Fault) : phaseStep c s ≠ .faulted f := by
  intro h
  cases hp : s.phase with
  | idle => simp [phaseStep, hp] at h
  | check =>
    obtain ⟨t, ht⟩ := checkPhase_moves (s := s) hc
    simp [phaseStep, hp, ht] at h
  | encode =>
    obtain ⟨t, ht⟩ := encodePhase_moves hc ((hs.running (by simp [hp])).payload hp)
    simp [phaseStep, hp, ht] at h
  | write =>
    obtain ⟨tag, bytes, -, hm⟩ := (hs.running (by simp [hp])).frame (.inl hp)
    simp only [phaseStep, hp, writePhase, hm] at h
    split at h <;> cases h
  | delay =>
    simp only [phaseStep, hp, delayPhase] at h
    repeat' split at h
    all_goals cases h
  | read =>
    simp only [phaseStep, hp, readPhase] at h
    split at h <;> cases h
  | decode =>
    have hrun := hs.running (by simp [hp])
    obtain ⟨bs, hbs⟩ := hs.stored.received
    obtain ⟨n, hn, -⟩ := hrun.attempt
    obtain ⟨t, ht⟩ := decode_moved hc (hrun.response (.inr hp)) hbs hn
    simp [phaseStep, hp, ht] at h
  | done =>
    obtain ⟨r, hr, -⟩ := (hs.running (by simp [hp])).result hp
    simp [phaseStep, hp, donePhase, hr] at h

/-- A run of a command never stops. -/
theorem runPhases_answers (hc : commandOf i = some c) (n : Nat) (hs : InRun i c s) : ∃ t, runPhases c n s = .next t := by
  induction n generalizing s with
  | zero => exact ⟨s, rfl⟩
  | succ n ih =>
    cases h : phaseStep c s with
    | moved u =>
      rw [runPhases_moved h]
      exact ih ((phaseStep_course hc h).inRun hc hs)
    | waiting u => exact ⟨u, runPhases_waiting h n⟩
    | faulted f => exact absurd h (phaseStep_ne_faulted hc hs f)

/-- A command asked for in IDLE never stops, whatever the block held before. -/
theorem exec_command_answers (hc : commandOf i = some c) (hp : s.phase = .idle) : ∃ t, exec i s = .next t := by
  rw [exec_command_idle hc hp]
  exact runPhases_answers hc _ (.accept i c s)

/-- Each of the fifteen operations of the host answers in IDLE. -/
theorem exec_answers_of_isHostOperation (hi : i.IsHostOperation) (hp : s.phase = .idle) : ∃ t, exec i s = .next t := by
  rcases hi with hi | ⟨a, policy, rfl⟩
  · obtain ⟨c, hc⟩ := commandOf_of_isCommand hi
    exact exec_command_answers hc hp
  · rw [exec_configure_idle hp]
    split <;> exact ⟨_, rfl⟩

end

/-! ### The cases of a step -/

section
variable {s : State}

/-- The reset event comes first in a step (R190, log entry 21). -/
theorem step_reset (hr : s.resetRequested = true) : step s = .next (resetBlock s) := if_pos hr

/-- In IDLE without a request the block waits (R13). -/
theorem step_idle_quiet (hr : s.resetRequested = false) (hp : s.phase = .idle) (hq : s.requests = []) :
    step s = .next s := by
  simp [step, hr, hp, hq]

/-- In IDLE a request that names no operation is refused (R60, U14). -/
theorem step_idle_refused (hr : s.resetRequested = false) (hp : s.phase = .idle) {r : Request} {rest : List Request}
    (hq : s.requests = r :: rest) {e : DecodeReject} (he : r.instr = .error e) : step s = .refused (.undecodable e) := by
  simp [step, hr, hp, hq, he]

/-- In IDLE the operation the next request names is run (R13, R60). -/
theorem step_idle_exec (hr : s.resetRequested = false) (hp : s.phase = .idle) {r : Request} {rest : List Request}
    (hq : s.requests = r :: rest) {i : Instr} (hi : r.instr = .ok i) : step s = exec i { s with requests := rest } := by
  simp [step, hr, hp, hq, hi]

/-- Outside IDLE the running operation goes on (R40). -/
theorem step_busy (hr : s.resetRequested = false) (hp : s.phase ≠ .idle) : step s = resume s := by
  rw [step, if_neg (by simp [hr])]
  split
  · contradiction
  · rfl

theorem resume_command {i : Instr} {c : Command} (ho : s.op = some i) (hc : commandOf i = some c) :
    resume s = runPhases c Config.phasesPerStep s := by
  simp only [resume, ho, hc]

end

/-- Settles O49: in IDLE the request is one of the host's and answers; outside IDLE the invariant gives the running command what
each of its phases reads. -/
theorem hostOperationsNeverStop : Obligations.HostOperationsNeverStop := by
  unfold Obligations.HostOperationsNeverStop
  intro s hinv hnext
  cases hr : s.resetRequested with
  | true => exact ⟨_, step_reset hr⟩
  | false =>
    by_cases hp : s.phase = .idle
    · cases hq : s.requests with
      | nil => exact ⟨s, step_idle_quiet hr hp hq⟩
      | cons r rest =>
        obtain ⟨i, hi, hhost⟩ := hnext r rest hq
        rw [step_idle_exec hr hp hq hi]
        exact exec_answers_of_isHostOperation hhost hp
    · obtain ⟨i, c, ho, hc, hrun⟩ := hinv.running hp
      rw [step_busy hr hp, resume_command ho hc]
      exact runPhases_answers hc _ (hinv.inRun hp ho hc)

end Sys2Proof.Machine
end

section
/-! PROOFS. Phases, results and errors over a command (10_state.md R13, 20_memory.md R40, 60_exceptions.md R160): where one phase leads,
how a run hands over its result, which errors come about, and that an `Ok` needs every transaction answered `Ok`. -/

namespace Sys2Proof.Machine

open Sys2Proof.Claims

/-! ### Where one phase leads -/

@[simp] theorem afterDelay_phase (c : Command) (s : State) : (afterDelay c s).phase = c.afterWait := by
  unfold afterDelay Command.afterWait
  split <;> rfl

@[simp] theorem afterWrite_phase (c : Command) (s : State) :
    (afterWrite c s).phase = if c.wait.isSome then .delay else c.afterWait := by
  unfold afterWrite
  split
  · next h => simp [h]
  · next h => simp [h]

/-- A command that ends with nothing to wait for or to read ends with `Ok(())` (R13). -/
theorem afterDelay_result {c : Command} {s : State} (h : (afterDelay c s).phase = .done) :
    c.asked = 0 ∧ (afterDelay c s).result = some (.ok .unit) := by
  rcases afterDelay_eq c s with ⟨hasked, heq⟩ | ⟨-, heq⟩
  · exact ⟨hasked, heq ▸ rfl⟩
  · rw [heq] at h
    cases h

theorem afterWrite_result {c : Command} {s : State} (h : (afterWrite c s).phase = .done) :
    c.wait = none ∧ c.asked = 0 ∧ (afterWrite c s).result = some (.ok .unit) := by
  rcases afterWrite_eq c s with ⟨-, heq⟩ | ⟨hwait, heq⟩
  · rw [heq] at h
    cases h
  · rw [heq] at h ⊢
    exact ⟨hwait, afterDelay_result h⟩

section
variable {i : Instr} {c : Command} {s t : State}

theorem eq_identify_of_backoff (hc : commandOf i = some c) (h : c.backoff.isSome) : i = .identify := by
  cases i <;> cases hc
  case identify => rfl
  all_goals cases h

theorem Course.leadsTo (hc : commandOf i = some c) (h : Course i c s t) : s.phase.leadsTo c t.phase = true := by
  cases h with
  | sent bytes rest hp => simp [Phase.leadsTo, hp]
  | backedOff w k hp hw => simp [Phase.leadsTo, hp, hw]
  | waited w k hp hb => simp [Phase.leadsTo, hp, hb]
  | passed hp hb => simp [Phase.leadsTo, hp, hb]
  | decoded x' ok crc b id p n r hp hb hd =>
    cases hd with
    | again n hi =>
      subst hi
      cases hc
      simp [Phase.leadsTo, hp, identifyCommand]
    | value | error => simp [Phase.leadsTo, hp]
  | rejected _ hp | checked _ hp | encoded _ _ _ hp | notSent _ _ hp | notHeard _ hp | heard _ _ hp | ended _ hp =>
    simp [Phase.leadsTo, hp]

/-- CHECK ends a command early only with `InvalidArgument` (R162). -/
theorem Course.result_of_check (hc : commandOf i = some c) (h : Course i c s t) (hp : s.phase = .check)
    (hd : t.phase = .done) : ∃ a, t.result = some (.err (.invalidArgument a)) := by
  cases h with
  | rejected e _ he =>
    obtain ⟨a, rfl, -⟩ := check_error_refused hc he
    exact ⟨a, rfl⟩
  | checked => cases hd
  | _ => simp_all

/-- WRITE ends a command only with its own error, or where there is nothing to wait for or to read (R161). -/
theorem Course.result_of_write (h : Course i c s t) (hp : s.phase = .write) (hd : t.phase = .done) :
    t.result = some (.err (.busError .write)) ∨ c.wait = none ∧ c.asked = 0 ∧ t.result = some (.ok .unit) := by
  cases h with
  | notSent => exact .inl rfl
  | sent => exact .inr (afterWrite_result hd)
  | _ => simp_all

theorem Course.result_of_delay (h : Course i c s t) (hp : s.phase = .delay) (hd : t.phase = .done) :
    t.result = some (.ok .unit) := by
  cases h with
  | waited | passed => exact (afterDelay_result hd).2
  | backedOff => cases hd
  | _ => simp_all

/-- READ ends a command early only with its own error (R161). -/
theorem Course.result_of_read (h : Course i c s t) (hp : s.phase = .read) (hd : t.phase = .done) :
    t.result = some (.err (.busError .read)) := by
  cases h with
  | notHeard => rfl
  | heard => cases hd
  | _ => simp_all

end

/-- Settles O36: each case of the course of a phase is in the row of that phase. -/
theorem phasesFollowTheTable : Obligations.PhasesFollowTheTable := by
  unfold Obligations.PhasesFollowTheTable
  intro i c s t hc h
  have hcourse := phaseStep_course hc h
  exact ⟨hcourse.leadsTo hc, eq_identify_of_backoff hc, hcourse.result_of_check hc, hcourse.result_of_write,
    hcourse.result_of_delay, hcourse.result_of_read⟩

/-! ### The result of a run -/

section
variable {i : Instr} {c : Command} {s t : State}

theorem afterWrite_results (c : Command) (s : State) : (afterWrite c s).results = s.results := by
  obtain ⟨p, r, heq⟩ := afterWrite_shape c s
  rw [heq]

theorem afterDelay_results (c : Command) (s : State) : (afterDelay c s).results = s.results := by
  obtain ⟨p, r, heq⟩ := afterDelay_shape c s
  rw [heq]

theorem afterWait_ne_idle (c : Command) : c.afterWait ≠ .idle := by
  unfold Command.afterWait
  split <;> simp

/-- Only DONE hands a result over, and it leads to IDLE (R13, R168). -/
theorem Course.results (h : Course i c s t) :
    t.phase ≠ .idle ∧ t.results = s.results ∨ ∃ r, s.phase = .done ∧ s.result = some r ∧ t = finish r s := by
  cases h with
  | ended r hp hr => exact .inr ⟨r, hp, hr, rfl⟩
  | sent bytes rest =>
    refine .inl ⟨?_, afterWrite_results c _⟩
    rw [afterWrite_phase]
    split
    · simp
    · exact afterWait_ne_idle c
  | waited | passed => exact .inl ⟨(afterDelay_phase c _).trans_ne (afterWait_ne_idle c), afterDelay_results c _⟩
  | decoded x' ok crc b id p n r hp hb hd => cases hd <;> exact .inl ⟨nofun, rfl⟩
  | _ => exact .inl ⟨nofun, rfl⟩

/-- A command that was in a phase in `s` has got to `u`: it is still running and has handed over nothing, or it has ended with
one result, which is no error but one that R160 allows it. -/
structure HandedOver (i : Instr) (s u : State) : Prop where
  policy : u.crcPolicy = s.crcPolicy
  pending : u.phase ≠ .idle → u.results = s.results
  ended : u.phase = .idle → ∃ r, u.results = s.results ++ [r] ∧ ∀ e, r = .err e → e.tabledFor s.crcPolicy i = true

theorem HandedOver.refl (hp : s.phase ≠ .idle) : HandedOver i s s := ⟨rfl, fun _ => rfl, fun h => absurd h hp⟩

theorem HandedOver.course {u v : State} (h : HandedOver i s u) (hu : InRun i c u) (hcourse : Course i c u v) :
    HandedOver i s v := by
  have hpolicy : v.crcPolicy = u.crcPolicy := (setByHost_eq_iff.mp hcourse.setByHost).2.1
  refine ⟨hpolicy.trans h.policy, ?_, ?_⟩
  all_goals
    intro hv
    rcases hcourse.results with ⟨hne, heq⟩ | ⟨r, hp, hr, rfl⟩
  · exact heq.trans (h.pending hcourse.phase_ne_idle)
  · exact absurd rfl hv
  · exact absurd hv hne
  · obtain ⟨r', hr', he⟩ := (hu.running (by simp [hp])).result hp
    obtain rfl : r = r' := Option.some.inj (hr.symm.trans hr')
    refine ⟨r, ?_, fun e h' => h.policy ▸ he e h'⟩
    rw [finish_results, h.pending hcourse.phase_ne_idle]

theorem runPhases_handedOver (hc : commandOf i = some c) {n : Nat} (hs : InRun i c s) (hp : s.phase ≠ .idle)
    (h : runPhases c n s = .next t) : HandedOver i s t :=
  (runPhases_keeps hc (P := fun u => InRun i c u ∧ HandedOver i s u)
    (fun _ _ ⟨hu, ho⟩ hcourse => ⟨hcourse.inRun hc hu, ho.course hu hcourse⟩) ⟨hs, .refl hp⟩ h).2

/-- An error that has been handed over is one that R160 allows the command. -/
theorem HandedOver.tabled (h : HandedOver i s t) {e : OpError} (hres : t.results = s.results ++ [.err e]) :
    e.tabledFor s.crcPolicy i = true := by
  by_cases hp : t.phase = .idle
  · obtain ⟨r, hr, he⟩ := h.ended hp
    exact he e (List.singleton_inj.mp (List.append_cancel_left (hr.symm.trans hres)))
  · simp [h.pending hp] at hres

/-! ### The errors of the operations -/

theorem exec_command_tabled (hc : commandOf i = some c) (hp : s.phase = .idle) (h : exec i s = .next t) {e : OpError}
    (hres : t.results = s.results ++ [.err e]) : e.tabledFor s.crcPolicy i = true := by
  rw [exec_command_idle hc hp] at h
  exact (runPhases_handedOver hc (.accept i c s) nofun h).tabled hres

theorem exec_configure_tabled {a : DevAddr} {policy : CrcPolicy} (hp : s.phase = .idle)
    (h : exec (.configure a policy) s = .next t) {e : OpError} (hres : t.results = s.results ++ [.err e]) :
    e.tabledFor s.crcPolicy (.configure a policy) = true := by
  rcases exec_configure hp h with ⟨-, rfl⟩ | ⟨-, rfl⟩
  · cases eq_of_finish_results_eq hres
  · cases eq_of_finish_results_eq hres
    rfl

/-- An error handed over by an operation of the codec is one it raises on behalf of its caller (R93, R121). -/
theorem HandsOver.raisedBy {old rs : List OpResult} (h : HandsOver i old rs) {e : OpError} (hrs : rs = old ++ [.err e]) :
    e.raisedBy i = true := by
  cases h with
  | nothing => simp at hrs
  | value v => cases List.append_cancel_left hrs
  | error e' he =>
    cases List.append_cancel_left hrs
    exact he

theorem exec_internal_raisedBy (hi : ¬ i.IsHostOperation) (hp : s.phase = .idle) (h : exec i s = .next t) {e : OpError}
    (hres : t.results = s.results ++ [.err e]) : e.raisedBy i = true := by
  have hc : commandOf i = none := by
    rw [← Option.not_isSome_iff_eq_none, commandOf_isSome]
    exact fun h => hi (.inl h)
  obtain ⟨x', ok, crc, b, tx', len, rs, -, hrs, -, rfl⟩ := exec_internal hc (fun a p ha => hi (.inr ⟨a, p, ha⟩)) hp h
  exact hrs.raisedBy hres

/-- Settles O39: a command hands over what stood in DONE, where the invariant of the run allows only errors of the table; the
other operations hand over what they raise. -/
theorem onlyTheTabledErrorsOccur : Obligations.OnlyTheTabledErrorsOccur := by
  unfold Obligations.OnlyTheTabledErrorsOccur
  refine ⟨fun i s t e hp h hres => ⟨fun hi => ?_, fun hi => exec_internal_raisedBy hi hp h hres⟩,
    fun i s t e hinv hr hp ho h hres => ?_⟩
  · rcases hi with hi | ⟨a, policy, rfl⟩
    · obtain ⟨c, hc⟩ := commandOf_of_isCommand hi
      exact exec_command_tabled hc hp h hres
    · exact exec_configure_tabled hp h hres
  · obtain ⟨i', c, ho', hc, -⟩ := hinv.running hp
    obtain rfl : i' = i := Option.some.inj (ho'.symm.trans ho)
    rw [step_busy hr hp, resume_command ho hc] at h
    exact (runPhases_handedOver hc (hinv.inRun hp ho hc) hp h).tabled hres

/-! ### Ok means answered Ok -/

/-- What has not failed after a phase had not failed before it, and what the phase did was answered `Ok` (R40). -/
theorem Course.notFailed {u v : State} (hcourse : Course i c u v) (hv : NotFailed s v) :
    NotFailed s u ∧ (v.trace = u.trace ∨ ∃ e, e.answeredOk = true ∧ v.trace = u.trace ++ [e]) := by
  obtain ⟨hidle, hdone⟩ := hv
  have hu (hne : u.phase ≠ .done) : NotFailed s u :=
    ⟨fun h => absurd h hcourse.phase_ne_idle, fun h => absurd h hne⟩
  cases hcourse with
  | rejected _ hp | checked _ hp | encoded _ _ _ hp | decoded _ _ _ _ _ _ _ _ hp =>
    exact ⟨hu (by simp [hp]), .inl rfl⟩
  | notSent | notHeard =>
    obtain ⟨w, hw⟩ := hdone rfl
    cases hw
  | sent bytes rest hp => exact ⟨hu (by simp [hp]), .inr ⟨_, rfl, afterWrite_trace c _⟩⟩
  | backedOff w k hp => exact ⟨hu (by simp [hp]), .inr ⟨_, rfl, rfl⟩⟩
  | waited w k hp => exact ⟨hu (by simp [hp]), .inr ⟨_, rfl, afterDelay_trace c _⟩⟩
  | passed hp => exact ⟨hu (by simp [hp]), .inl (afterDelay_trace c u)⟩
  | heard bytes rest hp => exact ⟨hu (by simp [hp]), .inr ⟨_, rfl, rfl⟩⟩
  | ended r hp hr =>
    obtain ⟨w, hw⟩ := hidle rfl
    obtain rfl : r = .ok w := eq_of_finish_results_eq hw
    exact ⟨⟨fun h => by simp [hp] at h, fun _ => ⟨w, hr⟩⟩, .inl rfl⟩

theorem runPhases_answeredOk (hc : commandOf i = some c) {n : Nat} (h : runPhases c n s = .next t) {old : State}
    (hold : NotFailed old t) : Appends (fun e => e.answeredOk = true) s t := by
  refine runPhases_keeps hc (P := fun u => NotFailed old u → Appends (fun e => e.answeredOk = true) s u)
    (fun u v hu hcourse hv => ?_) (fun _ => .of_trace_eq rfl) h hold
  obtain ⟨hnf, hev⟩ := hcourse.notFailed hv
  rcases hev with heq | ⟨e, he, htr⟩
  · obtain ⟨es, hes, hall⟩ := hu hnf
    exact ⟨es, heq.trans hes, hall⟩
  · exact (hu hnf).append_event he htr

end

/-- Settles O41: a transaction that is not answered `Ok` leads to DONE with its error, and from there the command ends with it. -/
theorem okMeansEveryTransactionAnsweredOk : Obligations.OkMeansEveryTransactionAnsweredOk := by
  unfold Obligations.OkMeansEveryTransactionAnsweredOk
  refine ⟨fun i s t hi hp h hnf => ?_, fun s t hr hp h hnf => ?_⟩
  · obtain ⟨c, hc⟩ := commandOf_of_isCommand hi
    rw [exec_command_idle hc hp] at h
    exact runPhases_answeredOk (s := accept i s) hc h hnf
  · rw [step_busy hr hp] at h
    obtain ⟨i, c, ho, hc, h⟩ := resume_next h
    exact runPhases_answeredOk hc h hnf

end Sys2Proof.Machine
end

section
/-! PROOFS. How long a command runs (10_state.md R13, 42_commands.md R110, R111, 93_implementation_defined.md U7): every phase
brings the end nearer, so a step runs a command until it has ended or has to wait, and with enough answers
it ends. -/

namespace Sys2Proof.Machine

/-! ### The phases left -/

/-- A bound on the phases from `p` on, with `k` attempts to follow the present one: five for each attempt. The backoff comes before
the write of its attempt, the wait of another command after it. -/
def Phase.left (c : Command) (k : Nat) : Phase → Nat
  | .idle => 0
  | .done => 1
  | .decode => 2 + 5 * k
  | .read => 3 + 5 * k
  | .delay => (if c.backoff.isSome then 6 else 4) + 5 * k
  | .write => 5 + 5 * k
  | .encode => 6 + 5 * k
  | .check => 7 + 5 * k

/-- How many attempts can follow the present one (R111). -/
def attemptsToCome (s : State) : Nat := Config.identAttempts - s.attempt.getD 0

/-- A bound on the phases a running command still has before it. -/
def phasesLeft (c : Command) (s : State) : Nat := s.phase.left c (attemptsToCome s)

section
variable {i : Instr} {c : Command} {s t : State}

theorem idle_of_phasesLeft_eq_zero (h : phasesLeft c s = 0) : s.phase = .idle := by
  unfold phasesLeft at h
  cases hp : s.phase <;> simp [hp, Phase.left] at h
  case idle => rfl
  case delay => split at h <;> omega

/-- One step has phases enough for every command (log entry 28). -/
theorem phasesLeft_le (hs : InRun i c s) : phasesLeft c s ≤ Config.phasesPerStep := by
  unfold phasesLeft
  by_cases hp : s.phase = .idle
  · simp [hp, Phase.left]
  · obtain ⟨n, hn, h1, h5⟩ := (hs.running hp).attempt
    have hk : attemptsToCome s ≤ 4 := by
      rw [attemptsToCome, hn]
      show 5 - n ≤ 4
      omega
    generalize attemptsToCome s = k at hk
    show _ ≤ 32
    cases s.phase <;> simp only [Phase.left]
    case delay => split <;> omega
    all_goals omega

/-- A command with a wait after its write has no backoff (R110). -/
theorem backoff_eq_none_of_wait (hc : commandOf i = some c) (hw : c.wait.isSome = true) : c.backoff = none := by
  cases i <;> cases hc
  case identify => cases hw
  all_goals rfl

theorem left_afterWait_lt (c : Command) (k : Nat) : c.afterWait.left c k < 4 + 5 * k := by
  unfold Command.afterWait
  split
  all_goals simp only [Phase.left]
  all_goals omega

theorem afterWrite_attempt (c : Command) (s : State) : (afterWrite c s).attempt = s.attempt := by
  obtain ⟨p, r, heq⟩ := afterWrite_shape c s
  rw [heq]

theorem afterDelay_attempt (c : Command) (s : State) : (afterDelay c s).attempt = s.attempt := by
  obtain ⟨p, r, heq⟩ := afterDelay_shape c s
  rw [heq]

/-- A phase that keeps `attempt` brings the end nearer when the phase it leads to is nearer. -/
theorem phasesLeft_lt_of_attempt_eq (ha : t.attempt = s.attempt) (hp : ∀ k, t.phase.left c k < s.phase.left c k) :
    phasesLeft c t < phasesLeft c s := by
  rw [phasesLeft, phasesLeft, attemptsToCome, ha]
  exact hp _

/-- Every phase brings the end nearer. -/
theorem Course.phasesLeft_lt (hc : commandOf i = some c) (h : Course i c s t) (hs : Running i c s) :
    phasesLeft c t < phasesLeft c s := by
  cases h with
  | sent bytes rest hp =>
    refine phasesLeft_lt_of_attempt_eq (afterWrite_attempt c _) fun k => ?_
    rw [afterWrite_phase, hp]
    split
    · next hw => simp [Phase.left, backoff_eq_none_of_wait hc hw]
    · exact (left_afterWait_lt c k).trans (by simp [Phase.left])
  | backedOff w k hp hw =>
    exact phasesLeft_lt_of_attempt_eq rfl fun k => by simp [Phase.left, hp, hw]
  | waited w k hp hb =>
    exact phasesLeft_lt_of_attempt_eq (afterDelay_attempt c _) fun k => by
      simpa [hp, Phase.left, hb] using left_afterWait_lt c k
  | passed hp hb =>
    exact phasesLeft_lt_of_attempt_eq (afterDelay_attempt c _) fun k => by
      simpa [hp, Phase.left, hb] using left_afterWait_lt c k
  | decoded x' ok crc b id p m r hp hb hd =>
    cases hd with
    | again n hi hn hlast =>
      obtain ⟨n', hn', -, h5⟩ := hs.attempt
      obtain rfl : n = n' := Option.some.inj (hn.symm.trans hn')
      subst hi
      cases hc
      have hlt : n < 5 := Nat.lt_of_le_of_ne h5 hlast
      simp only [phasesLeft, attemptsToCome, hp, hn, Phase.left, identifyCommand, Option.isSome_some, if_true, Option.getD_some,
        Config.identAttempts]
      omega
    | value | error => exact phasesLeft_lt_of_attempt_eq rfl fun k => by simp only [hp, Phase.left]; omega
  | ended r hp => simp [phasesLeft, hp, Phase.left]
  | rejected _ hp | checked _ hp | encoded _ _ _ hp | notSent _ _ hp | notHeard _ hp | heard _ _ hp =>
    exact phasesLeft_lt_of_attempt_eq rfl fun k => by simp only [hp, Phase.left, raise_phase]; omega

/-! ### Where a run stops -/

/-- A run with phases enough stops only where the command waits. -/
theorem runPhases_stops (hc : commandOf i = some c) {n : Nat} (hs : InRun i c s) (hn : phasesLeft c s ≤ n)
    (h : runPhases c n s = .next t) : phaseStep c t = .waiting t := by
  induction n generalizing s with
  | zero =>
    cases h
    simp [phaseStep, idle_of_phasesLeft_eq_zero (Nat.le_zero.mp hn)]
  | succ n ih =>
    cases hstep : phaseStep c s with
    | moved u =>
      rw [runPhases_moved hstep] at h
      have hcourse := phaseStep_course hc hstep
      have hlt := hcourse.phasesLeft_lt hc (hs.running hcourse.phase_ne_idle)
      exact ih (hcourse.inRun hc hs) (by omega) h
    | waiting u =>
      obtain rfl : u = s := (phaseStep_waiting hc hstep).1
      rw [runPhases_waiting hstep] at h
      cases h
      exact hstep
    | faulted f => exact absurd hstep (phaseStep_ne_faulted hc hs f)

/-- With phases enough, more of them make no difference. -/
theorem runPhases_enough (hc : commandOf i = some c) {n m : Nat} (hs : InRun i c s) (hn : phasesLeft c s ≤ n)
    (hm : phasesLeft c s ≤ m) : runPhases c n s = runPhases c m s := by
  induction n generalizing s m with
  | zero =>
    have hp := idle_of_phasesLeft_eq_zero (Nat.le_zero.mp hn)
    rw [runPhases_idle hp, runPhases_idle hp]
  | succ n ih =>
    cases m with
    | zero =>
      have hp := idle_of_phasesLeft_eq_zero (Nat.le_zero.mp hm)
      rw [runPhases_idle hp, runPhases_idle hp]
    | succ m =>
      cases hstep : phaseStep c s with
      | moved u =>
        have hcourse := phaseStep_course hc hstep
        have hlt := hcourse.phasesLeft_lt hc (hs.running hcourse.phase_ne_idle)
        rw [runPhases_moved hstep, runPhases_moved hstep]
        exact ih (hcourse.inRun hc hs) (by omega) (by omega)
      | waiting u => rw [runPhases_waiting hstep, runPhases_waiting hstep]
      | faulted f => exact absurd hstep (phaseStep_ne_faulted hc hs f)

/-! ### Answers enough -/

/-- The answers to writes, the answers to reads and the ended waits that are always enough from a phase on, with `k` attempts to
come. With `retries` the command has a backoff, which stands before the write of its attempt; without, at most one wait, which
stands after its write. -/
def Phase.needs (retries : Bool) (k : Nat) : Phase → Nat × Nat × Nat
  | .idle | .done => (0, 0, 0)
  | .check | .encode | .write => (k + 1, k + 1, if retries then k else 1)
  | .delay => (if retries then k + 1 else k, k + 1, if retries then k + 1 else 1)
  | .read => (k, k + 1, if retries then k else 0)
  | .decode => (k, k, if retries then k else 0)

/-- The environment has so many answers and ended waits to come. -/
def State.Offers (s : State) (n : Nat × Nat × Nat) : Prop :=
  n.1 ≤ s.writeAnswers.length ∧ n.2.1 ≤ s.readAnswers.length ∧ n.2.2 ≤ s.waitsOver

/-- The environment has enough to come for the running command to end. -/
def Supplied (c : Command) (s : State) : Prop := s.Offers (s.phase.needs c.backoff.isSome (attemptsToCome s))

theorem Supplied.of_phase (hp : t.phase = .done ∨ t.phase = .idle) : Supplied c t := by
  rw [Supplied]
  rcases hp with hp | hp <;> rw [hp] <;> exact ⟨Nat.zero_le _, Nat.zero_le _, Nat.zero_le _⟩

/-- A phase that keeps `attempt` keeps the supply when what it leads to needs no more than it leaves. -/
theorem Supplied.of_attempt_eq (h : Supplied c s) (ha : t.attempt = s.attempt)
    (hp : ∀ k, s.Offers (s.phase.needs c.backoff.isSome k) → t.Offers (t.phase.needs c.backoff.isSome k)) :
    Supplied c t := by
  rw [Supplied, attemptsToCome, ha]
  exact hp _ h

theorem offers_afterDelay {r : Bool} {k : Nat} (h : t.Offers (Phase.read.needs r k)) :
    (afterDelay c t).Offers ((afterDelay c t).phase.needs r k) := by
  rcases afterDelay_eq c t with ⟨-, heq⟩ | ⟨-, heq⟩ <;> rw [heq]
  · exact ⟨Nat.zero_le _, Nat.zero_le _, Nat.zero_le _⟩
  · exact h

/-- Every phase uses up what it needs and leaves what the next one needs. -/
theorem Course.supplied (hc : commandOf i = some c) (h : Course i c s t) (hs : Running i c s) (hsup : Supplied c s) :
    Supplied c t := by
  cases h with
  | rejected | notSent | notHeard => exact .of_phase (.inl rfl)
  | ended => exact .of_phase (.inr rfl)
  | checked _ hp | encoded _ _ _ hp =>
    refine hsup.of_attempt_eq rfl fun k hk => ?_
    rw [hp] at hk
    exact hk
  | sent bytes rest hp hm ha =>
    refine hsup.of_attempt_eq (afterWrite_attempt c _) fun k hk => ?_
    simp only [State.Offers, hp, ha, Phase.needs, List.length_cons] at hk
    obtain ⟨hws, hrs, hwaits⟩ := hk
    rcases afterWrite_eq c (s.wrote bytes .ok rest) with ⟨hw, heq⟩ | ⟨-, heq⟩ <;> rw [heq]
    · rw [backoff_eq_none_of_wait hc hw] at hwaits ⊢
      exact ⟨Nat.le_of_succ_le_succ hws, hrs, hwaits⟩
    · refine offers_afterDelay ⟨Nat.le_of_succ_le_succ hws, hrs, hwaits.trans' ?_⟩
      simp only [Phase.needs]
      split <;> omega
  | backedOff w j hp hw hj =>
    refine hsup.of_attempt_eq rfl fun k hk => ?_
    simp only [State.Offers, hp, hw, hj, Phase.needs, Option.isSome_some, if_true] at hk
    obtain ⟨hws, hrs, hwaits⟩ := hk
    rw [hw]
    exact ⟨hws, hrs, Nat.le_of_succ_le_succ hwaits⟩
  | waited w j hp hb hw hj =>
    refine hsup.of_attempt_eq (afterDelay_attempt c _) fun k hk => ?_
    simp only [State.Offers, hp, hb, hj, Phase.needs, Option.isSome_none] at hk
    obtain ⟨hws, hrs, -⟩ := hk
    rw [hb]
    exact offers_afterDelay ⟨hws, hrs, Nat.zero_le _⟩
  | passed hp hb hw =>
    refine hsup.of_attempt_eq (afterDelay_attempt c _) fun k hk => ?_
    simp only [State.Offers, hp, hb, Phase.needs, Option.isSome_none] at hk
    obtain ⟨hws, hrs, -⟩ := hk
    rw [hb]
    exact offers_afterDelay ⟨hws, hrs, Nat.zero_le _⟩
  | heard bytes rest hp ha =>
    refine hsup.of_attempt_eq rfl fun k hk => ?_
    simp only [State.Offers, hp, ha, Phase.needs, List.length_cons] at hk
    obtain ⟨hws, hrs, hwaits⟩ := hk
    exact ⟨hws, Nat.le_of_succ_le_succ hrs, hwaits⟩
  | decoded x' ok crc b id p m r hp hb hd =>
    cases hd with
    | value | error => exact .of_phase (.inl rfl)
    | again n hi hn hlast =>
      obtain ⟨n', hn', -, h5⟩ := hs.attempt
      obtain rfl : n = n' := Option.some.inj (hn.symm.trans hn')
      subst hi
      cases hc
      have hk : attemptsToCome s = Config.identAttempts - (n + 1) + 1 := by
        rw [attemptsToCome, hn, Option.getD_some]
        omega
      rw [Supplied, hp, hk] at hsup
      exact hsup

/-- Where a supplied command waits it has ended. -/
theorem Supplied.idle_of_waiting (hc : commandOf i = some c) (h : Supplied c s) (hw : phaseStep c s = .waiting t) :
    s.phase = .idle := by
  obtain ⟨hws, hrs, hwaits⟩ := h
  rcases (phaseStep_waiting hc hw).2 with hp | ⟨hp, hnone⟩ | ⟨hp, hnone⟩ | ⟨hp, hnone⟩
  · exact hp
  · simp [hp, hnone, Phase.needs] at hws
  · simp only [hp, hnone, Phase.needs] at hwaits
    split at hwaits <;> omega
  · simp [hp, hnone, Phase.needs] at hrs

/-- A command with answers enough to come ends in IDLE, with one result. -/
theorem exec_command_ends (hc : commandOf i = some c) (hp : s.phase = .idle) (hs : Supplied c (accept i s)) :
    ∃ t r, exec i s = .next t ∧ t.phase = .idle ∧ t.results = s.results ++ [r] := by
  have hrun := InRun.accept i c s
  obtain ⟨t, ht⟩ := runPhases_answers hc Config.phasesPerStep hrun
  have hsup : InRun i c t ∧ Supplied c t :=
    runPhases_keeps hc (P := fun u => InRun i c u ∧ Supplied c u)
      (fun _ _ ⟨hu, hsu⟩ hcourse =>
        ⟨hcourse.inRun hc hu, hcourse.supplied hc (hu.running hcourse.phase_ne_idle) hsu⟩) ⟨hrun, hs⟩ ht
  have hidle := hsup.2.idle_of_waiting hc (runPhases_stops hc hrun (phasesLeft_le hrun) ht)
  obtain ⟨r, hr, -⟩ := (runPhases_handedOver hc hrun nofun ht).ended hidle
  exact ⟨t, r, (exec_command_idle hc hp).trans ht, hidle, hr⟩

end

/-- Settles O50: five attempts need at most five answers of each kind and four waits, and a run stops only where it has to wait. -/
theorem commandEndsWhenAnswered : Obligations.CommandEndsWhenAnswered := by
  unfold Obligations.CommandEndsWhenAnswered
  intro i s hi hp hws hrs hwaits
  obtain ⟨c, hc⟩ := commandOf_of_isCommand hi
  refine exec_command_ends hc hp ⟨hws, hrs, ?_⟩
  show (if c.backoff.isSome then 4 else 1) ≤ s.waitsOver
  split <;> omega

end Sys2Proof.Machine
end

section
/-! PROOFS. Two blocks that run the same command (10_state.md R21, 20_memory.md R40, 70_reset_and_hazards.md R206): what one block has behind
it, and what its environment answers later, changes no phase. -/

namespace Sys2Proof.Machine

/-! ### A block beside another -/

/-- What one block has more than another: results and events from before, answers and ended waits for later. -/
structure Besides where
  results : List OpResult
  trace : List Event
  writeAnswers : List WriteAnswer
  readAnswers : List ReadAnswer
  waitsOver : Nat

/-- What no phase of a command reads before it has written it (R14, R208). -/
structure Unread where
  crc : Byte
  freeCount : Nat
  requests : List Request
  resetRequested : Bool

def State.unread (s : State) : Unread := ⟨s.crc, s.freeCount, s.requests, s.resetRequested⟩

/-- The state with this besides what it has, and with these in the places that are not read. -/
def State.beside (s : State) (d : Besides) (h : Unread) : State :=
  { s with
    results := d.results ++ s.results, trace := d.trace ++ s.trace,
    writeAnswers := s.writeAnswers ++ d.writeAnswers, readAnswers := s.readAnswers ++ d.readAnswers,
    waitsOver := s.waitsOver + d.waitsOver,
    crc := h.crc, freeCount := h.freeCount, requests := h.requests, resetRequested := h.resetRequested }

/-- `v` is `u` with this besides. Where `exact` holds the places that are not read agree too. -/
def Alike (exact : Prop) (d : Besides) (u v : State) : Prop := ∃ h, (exact → h = u.unread) ∧ v = u.beside d h

section
variable {exact : Prop} {d : Besides} {u v t : State}

/-- An update that keeps the places that are not read, and reads nothing the two blocks differ in. -/
theorem Alike.map (hv : Alike exact d u v) (f : State → State) (hf : ∀ s d h, f (s.beside d h) = (f s).beside d h)
    (hu : ∀ s, (f s).unread = s.unread) : Alike exact d (f u) (f v) := by
  obtain ⟨h, he, rfl⟩ := hv
  exact ⟨h, fun hx => (he hx).trans (hu u).symm, hf u d h⟩

/-! ### The operations of the phases -/

theorem Alike.setX (hv : Alike exact d u v) {k : Nat} {w : Word} (ht : setX k w u = .ok t) :
    ∃ t', setX k w v = .ok t' ∧ Alike exact d t t' := by
  obtain ⟨h, he, rfl⟩ := hv
  unfold Machine.setX at ht ⊢
  split at ht
  · next hk =>
    cases ht
    exact ⟨_, if_pos hk, h, he, rfl⟩
  · cases ht

theorem Alike.loadWords (hv : Alike exact d u v) {ws : List Word} {k : Nat} (ht : loadWords ws k u = .ok t) :
    ∃ t', loadWords ws k v = .ok t' ∧ Alike exact d t t' := by
  induction ws generalizing k u v with
  | nil =>
    cases ht
    exact ⟨v, rfl, hv⟩
  | cons w ws ih =>
    rw [Machine.loadWords] at ht ⊢
    split at ht
    · cases ht
    · next u1 hu1 =>
      obtain ⟨v1, hv1, halike⟩ := hv.setX hu1
      rw [hv1]
      exact ih halike ht

theorem Alike.txWrite (hv : Alike exact d u v) {k : Nat} {bs : List Byte} (ht : txWrite k bs u = .ok t) :
    ∃ t', txWrite k bs v = .ok t' ∧ Alike exact d t t' := by
  obtain ⟨h, he, rfl⟩ := hv
  unfold Machine.txWrite at ht ⊢
  split at ht
  · next hk =>
    cases ht
    exact ⟨_, if_pos hk, h, he, rfl⟩
  · cases ht

/-- The CRC unit starts from 0xFF, whatever stood in `crc` (R72, R73). -/
theorem Alike.crc8Op (hv : Alike exact d u v) (bytes : List Byte) :
    Alike exact d (crc8Op bytes u) (crc8Op bytes v) := by
  obtain ⟨h, he, rfl⟩ := hv
  rw [crc8Op_eq, crc8Op_eq]
  refine ⟨{ h with crc := crc8 bytes }, fun hx => ?_, rfl⟩
  rw [he hx]
  rfl

theorem Alike.readX (hv : Alike exact d u v) (k : Nat) : readX k v = readX k u := by
  obtain ⟨h, he, rfl⟩ := hv
  rfl

theorem Alike.rxByte (hv : Alike exact d u v) (k : Nat) : rxByte k v = rxByte k u := by
  obtain ⟨h, he, rfl⟩ := hv
  rfl

theorem crc8Op_crc (bytes : List Byte) (s : State) : (crc8Op bytes s).crc = crc8 bytes := by
  rw [crc8Op_eq]

theorem Alike.encodeTriples (hv : Alike exact d u v) {n k : Nat} (ht : encodeTriples n k u = .ok t) :
    ∃ t', encodeTriples n k v = .ok t' ∧ Alike exact d t t' := by
  induction n generalizing k u v with
  | zero =>
    cases ht
    exact ⟨v, rfl, hv⟩
  | succ n ih =>
    rw [Machine.encodeTriples] at ht ⊢
    rw [hv.readX]
    split at ht
    · cases ht
    · next w hw =>
      simp only [crc8Op_crc] at ht ⊢
      split at ht
      · cases ht
      · next u1 hu1 =>
        obtain ⟨v1, hv1, halike⟩ := (hv.crc8Op _).txWrite hu1
        rw [hv1]
        exact ih halike ht

theorem Alike.encodeFrameOp (hv : Alike exact d u v) {cmd : Word} {n : Nat} (ht : encodeFrameOp cmd n u = .ok t) :
    ∃ t', encodeFrameOp cmd n v = .ok t' ∧ Alike exact d t t' := by
  unfold Machine.encodeFrameOp at ht ⊢
  split at ht
  · cases ht
  · next u1 hu1 =>
    obtain ⟨v1, hv1, halike1⟩ := hv.txWrite hu1
    rw [hv1]
    split at ht
    · cases ht
    · next u2 hu2 =>
      obtain ⟨v2, hv2, halike2⟩ := halike1.encodeTriples hu2
      cases ht
      simp only [hv2]
      exact ⟨_, rfl, halike2.map (fun s => { s with txLen := 2 + 3 * n }) (fun _ _ _ => rfl) fun _ => rfl⟩

theorem Alike.decodeTriples (hv : Alike exact d u v) {n k : Nat} (ht : decodeTriples n k u = .ok t) :
    ∃ t', decodeTriples n k v = .ok t' ∧ Alike exact d t t' := by
  induction n generalizing k u v with
  | zero =>
    cases ht
    exact ⟨v, rfl, hv⟩
  | succ n ih =>
    rw [Machine.decodeTriples] at ht ⊢
    simp only [hv.rxByte]
    split at ht
    · cases ht
    · split at ht
      · cases ht
      · split at ht
        · cases ht
        · split at ht
          · cases ht
          · next u1 hu1 =>
            obtain ⟨v1, hv1, halike⟩ := (hv.crc8Op _).setX hu1
            simp only [hv1]
            exact ih (halike.map (setCrcOk k _) (fun _ _ _ => rfl) fun _ => rfl) ht

/-- The test of the flags reads the flags only (R93). -/
theorem firstBadTriple_congr (n k : Nat) (h : t.crcOk = u.crcOk) : firstBadTriple n k t = firstBadTriple n k u := by
  induction n generalizing k with
  | zero => rfl
  | succ n ih => simp only [firstBadTriple, readCrcOk, h, ih]

theorem Alike.decodeWordsOp (hv : Alike exact d u v) {m : Nat} {policy : CrcPolicy} {r : Except OpError (List Word)}
    (ht : decodeWordsOp m policy u = .ok (t, r)) : ∃ t', decodeWordsOp m policy v = .ok (t', r) ∧ Alike exact d t t' := by
  have hlen : v.rxLen = u.rxLen := by
    obtain ⟨h, he, rfl⟩ := hv
    rfl
  unfold Machine.decodeWordsOp at ht ⊢
  rw [hlen]
  split at ht
  · next hlt =>
    cases ht
    exact ⟨v, if_pos hlt, hv⟩
  · next hlt =>
    rw [if_neg hlt]
    split at ht
    · cases ht
    · next u1 hu1 =>
      obtain ⟨v1, hv1, halike⟩ := hv.decodeTriples hu1
      have hflags (n k : Nat) : firstBadTriple n k v1 = firstBadTriple n k u1 := by
        obtain ⟨h, he, rfl⟩ := halike
        exact firstBadTriple_congr n k rfl
      have hwords (n k : Nat) : readWords n k v1 = readWords n k u1 := by
        obtain ⟨h, he, rfl⟩ := halike
        exact readWords_congr n k rfl
      simp only [hv1, hflags, hwords]
      split at ht
      · cases ht
      · split at ht
        · cases ht
        · cases ht
          exact ⟨v1, rfl, halike⟩

theorem Alike.decodeRawWordOp (hv : Alike exact d u v) {r : Except Nat Word} (ht : decodeRawWordOp u = .ok (t, r)) :
    ∃ t', decodeRawWordOp v = .ok (t', r) ∧ Alike exact d t t' := by
  have hlen : v.rxLen = u.rxLen := by
    obtain ⟨h, he, rfl⟩ := hv
    rfl
  unfold Machine.decodeRawWordOp at ht ⊢
  simp only [hlen, hv.rxByte]
  split at ht
  · next hlt =>
    cases ht
    exact ⟨v, if_pos hlt, hv⟩
  · next hlt =>
    rw [if_neg hlt]
    split at ht
    · cases ht
    · split at ht
      · cases ht
      · split at ht
        · cases ht
        · next u1 hu1 =>
          obtain ⟨v1, hv1, halike⟩ := hv.setX hu1
          cases ht
          simp only [hv1]
          exact ⟨v1, rfl, halike⟩

/-! ### The phases -/

theorem Alike.raise (hv : Alike exact d u v) (e : OpError) : Alike exact d (raise e u) (raise e v) :=
  hv.map (Machine.raise e) (fun _ _ _ => rfl) fun _ => rfl

theorem Alike.answer (hv : Alike exact d u v) (w : Value) : Alike exact d (answer w u) (answer w v) :=
  hv.map (Machine.answer w) (fun _ _ _ => rfl) fun _ => rfl

/-- A test of the decoded words that makes the same move in two alike blocks. -/
def SameMove (exact : Prop) (d : Besides) (k : State → Progress) : Prop :=
  ∀ {u v t : State}, Alike exact d u v → k u = .moved t → ∃ t', k v = .moved t' ∧ Alike exact d t t'

theorem sameMove_decodeThen {m : Nat} {k : List Word → State → Progress} (hk : ∀ ws, SameMove exact d (k ws)) :
    SameMove exact d fun s => decodeThen m s k := by
  intro u v t hv ht
  have hpolicy : v.crcPolicy = u.crcPolicy := by
    obtain ⟨h, he, rfl⟩ := hv
    rfl
  simp only [decodeThen, hpolicy] at ht ⊢
  split at ht
  · cases ht
  · next u1 e hu1 =>
    obtain ⟨v1, hv1, halike⟩ := hv.decodeWordsOp hu1
    cases ht
    simp only [hv1]
    exact ⟨_, rfl, halike.raise e⟩
  · next u1 ws hu1 =>
    obtain ⟨v1, hv1, halike⟩ := hv.decodeWordsOp hu1
    simp only [hv1]
    exact hk ws halike ht

/-- The test of `identify` on any words (R111): the identity is the result on a match or on the fifth attempt. -/
theorem identifyWords_cons (w0 w1 : Word) (ws : List Word) {n : Nat} (hn : u.attempt = some n) :
    identifyWords (w0 :: w1 :: ws) u = .moved
      (if identityOf w0 w1 = Config.expectedId ∨ n = 5 then
        answer (.identity (identityOf w0 w1)) (setIdMatch (identityOf w0 w1) u)
      else { setIdMatch (identityOf w0 w1) u with attempt := some (n + 1), phase := .delay }) := by
  have hflag : (setIdMatch (identityOf w0 w1) u).idMatch = some true ↔ identityOf w0 w1 = Config.expectedId := by simp
  simp only [identifyWords, setIdMatch_attempt, hn]
  by_cases hmatch : identityOf w0 w1 = Config.expectedId
  · rw [if_pos (hflag.mpr hmatch), if_pos (.inl hmatch)]
  · rw [if_neg (mt hflag.mp hmatch)]
    by_cases hlast : n = 5
    · rw [if_pos (show n = Config.identAttempts from hlast), if_pos (.inr hlast)]
    · rw [if_neg (show n ≠ Config.identAttempts from hlast), if_neg (not_or.mpr ⟨hmatch, hlast⟩)]

theorem sameMove_identifyWords (ws : List Word) : SameMove exact d (identifyWords ws) := by
  intro u v t hv ht
  have hattempt : v.attempt = u.attempt := by
    obtain ⟨h, he, rfl⟩ := hv
    rfl
  match ws with
  | [] | [_] => cases ht
  | w0 :: w1 :: ws =>
    cases hn : u.attempt with
    | none => simp [identifyWords, hn] at ht
    | some n =>
      rw [identifyWords_cons w0 w1 ws hn] at ht
      cases ht
      refine ⟨_, identifyWords_cons w0 w1 ws (hattempt.trans hn), ?_⟩
      have hid := hv.map (setIdMatch (identityOf w0 w1)) (fun _ _ _ => rfl) fun _ => rfl
      split
      · exact hid.answer _
      · exact hid.map (fun s => { s with attempt := some (n + 1), phase := .delay }) (fun _ _ _ => rfl) fun _ => rfl

theorem sameMove_measurementWords (ws : List Word) : SameMove exact d (measurementWords ws) := by
  intro u v t hv ht
  unfold measurementWords at ht ⊢
  split at ht
  · cases ht
    exact ⟨_, rfl, hv.answer _⟩
  · cases ht

theorem sameMove_correctionWords (ws : List Word) : SameMove exact d (correctionWords ws) := by
  intro u v t hv ht
  unfold correctionWords at ht ⊢
  split at ht
  · split at ht
    · next hw =>
      cases ht
      exact ⟨_, if_pos hw, hv.raise _⟩
    · next hw =>
      cases ht
      exact ⟨_, if_neg hw, hv.answer _⟩
  · cases ht

theorem sameMove_factoryResetDecode : SameMove exact d factoryResetDecode := by
  intro u v t hv ht
  unfold factoryResetDecode at ht ⊢
  split at ht
  · cases ht
  · next u1 got hu1 =>
    obtain ⟨v1, hv1, halike⟩ := hv.decodeRawWordOp hu1
    cases ht
    simp only [hv1]
    exact ⟨_, rfl, halike.raise _⟩
  · next u1 w hu1 =>
    obtain ⟨v1, hv1, halike⟩ := hv.decodeRawWordOp hu1
    simp only [hv1]
    split at ht
    · next hw =>
      cases ht
      exact ⟨_, if_pos hw, halike.answer _⟩
    · next hw =>
      cases ht
      exact ⟨_, if_neg hw, halike.raise _⟩

/-- DECODE of every command makes the same move in two alike blocks. -/
theorem sameMove_decode {i : Instr} {c : Command} (hc : commandOf i = some c) : SameMove exact d c.decode := by
  cases i <;> cases hc
  case identify => exact sameMove_decodeThen sameMove_identifyWords
  case readMeasurement => exact sameMove_decodeThen sameMove_measurementWords
  case forcedRecalibration => exact sameMove_decodeThen sameMove_correctionWords
  case factoryReset => exact sameMove_factoryResetDecode
  all_goals exact fun _ ht => nomatch ht

theorem Alike.checkPhase {c : Command} (hv : Alike exact d u v) (ht : checkPhase c u = .moved t) :
    ∃ t', checkPhase c v = .moved t' ∧ Alike exact d t t' := by
  unfold Machine.checkPhase at ht ⊢
  split at ht
  · cases ht
    exact ⟨_, rfl, hv.raise _⟩
  · split at ht
    · cases ht
    · next u1 hu1 =>
      obtain ⟨v1, hv1, halike⟩ := hv.loadWords hu1
      cases ht
      simp only [hv1]
      exact ⟨_, rfl, halike.map (fun s => { s with phase := .encode }) (fun _ _ _ => rfl) fun _ => rfl⟩

theorem Alike.encodePhase {c : Command} (hv : Alike exact d u v) (ht : encodePhase c u = .moved t) :
    ∃ t', encodePhase c v = .moved t' ∧ Alike exact d t t' := by
  unfold Machine.encodePhase at ht ⊢
  cases hcode : c.code with
  | narrow b =>
    simp only [hcode, encodeNarrowOp_eq] at ht ⊢
    cases ht
    exact ⟨_, rfl, hv.map (fun s => { s with tx := s.tx.writeBytes 0 (encodeNarrow b), txLen := 1, phase := .write })
      (fun _ _ _ => rfl) fun _ => rfl⟩
  | wide w =>
    simp only [hcode] at ht ⊢
    split at ht
    · cases ht
    · next u1 hu1 =>
      obtain ⟨v1, hv1, halike⟩ := hv.encodeFrameOp hu1
      cases ht
      simp only [hv1]
      exact ⟨_, rfl, halike.map (fun s => { s with phase := .write }) (fun _ _ _ => rfl) fun _ => rfl⟩

/-- An answered write: the answer is taken from the front and the event is put behind. -/
theorem Alike.wrote (hv : Alike exact d u v) (bytes : List Byte) (a : WriteAnswer) {rest : List WriteAnswer}
    (ha : u.writeAnswers = a :: rest) :
    v.writeAnswers = a :: (rest ++ d.writeAnswers) ∧
      Alike exact d (u.wrote bytes a rest) (v.wrote bytes a (rest ++ d.writeAnswers)) := by
  obtain ⟨h, he, rfl⟩ := hv
  refine ⟨congrArg (· ++ d.writeAnswers) ha, h, he, ?_⟩
  simp [State.beside, State.wrote]

theorem Alike.heard (hv : Alike exact d u v) (n : Nat) (a a' : ReadAnswer) {rest : List ReadAnswer}
    (ha : u.readAnswers = a :: rest) :
    v.readAnswers = a :: (rest ++ d.readAnswers) ∧
      Alike exact d (u.heard n a' rest) (v.heard n a' (rest ++ d.readAnswers)) := by
  obtain ⟨h, he, rfl⟩ := hv
  refine ⟨congrArg (· ++ d.readAnswers) ha, h, he, ?_⟩
  simp [State.beside, State.heard]

theorem Alike.waited (hv : Alike exact d u v) (w : Wait) {k : Nat} (hk : u.waitsOver = k + 1) :
    v.waitsOver = k + d.waitsOver + 1 ∧ Alike exact d (u.waited w k) (v.waited w (k + d.waitsOver)) := by
  obtain ⟨h, he, rfl⟩ := hv
  refine ⟨?_, h, he, ?_⟩
  · show u.waitsOver + d.waitsOver = _
    omega
  · simp [State.beside, State.waited]

theorem Alike.afterDelay (hv : Alike exact d u v) (c : Command) : Alike exact d (afterDelay c u) (afterDelay c v) := by
  refine hv.map (Machine.afterDelay c) (fun s d h => ?_) fun s => ?_
  all_goals
    unfold Machine.afterDelay
    split <;> rfl

theorem Alike.afterWrite (hv : Alike exact d u v) (c : Command) : Alike exact d (afterWrite c u) (afterWrite c v) := by
  unfold Machine.afterWrite
  split
  · exact hv.map (fun s => { s with phase := .delay }) (fun _ _ _ => rfl) fun _ => rfl
  · exact hv.afterDelay c

theorem Alike.finish (hv : Alike exact d u v) (r : OpResult) : Alike exact d (finish r u) (finish r v) := by
  obtain ⟨h, he, rfl⟩ := hv
  refine ⟨{ h with crc := Config.freeCrc h.freeCount, freeCount := h.freeCount + 1 }, fun hx => ?_, ?_⟩
  · rw [he hx]
    rfl
  · simp [State.beside, Machine.finish, deliver, State.blank]

theorem Alike.writePhase {c : Command} (hv : Alike exact d u v) (ht : writePhase c u = .moved t) :
    ∃ t', writePhase c v = .moved t' ∧ Alike exact d t t' := by
  have hread : memRead .tx 0 v.txLen v = memRead .tx 0 u.txLen u := by
    obtain ⟨h, he, rfl⟩ := hv
    rfl
  unfold Machine.writePhase busWrite at ht ⊢
  rw [hread]
  split at ht
  · cases ht
  · next bytes hbytes =>
    cases ha : u.writeAnswers with
    | nil => simp [ha] at ht
    | cons a rest =>
      obtain ⟨ha', halike⟩ := hv.wrote bytes a ha
      simp only [ha, ha'] at ht ⊢
      cases a with
      | busError =>
        cases ht
        exact ⟨_, rfl, halike.raise _⟩
      | ok =>
        cases ht
        exact ⟨_, rfl, halike.afterWrite c⟩

theorem Alike.delay (hv : Alike exact d u v) {w : Wait} (ht : delay w u = some t) :
    ∃ t', delay w v = some t' ∧ Alike exact d t t' := by
  cases hk : u.waitsOver with
  | zero => simp [Machine.delay, hk] at ht
  | succ k =>
    obtain ⟨hk', halike⟩ := hv.waited w hk
    simp only [Machine.delay, hk, hk'] at ht ⊢
    cases ht
    exact ⟨_, rfl, halike⟩

theorem Alike.delayPhase {c : Command} (hv : Alike exact d u v) (ht : delayPhase c u = .moved t) :
    ∃ t', delayPhase c v = .moved t' ∧ Alike exact d t t' := by
  unfold Machine.delayPhase at ht ⊢
  split at ht
  · split at ht
    · cases ht
    · next u1 hu1 =>
      obtain ⟨v1, hv1, halike⟩ := hv.delay hu1
      cases ht
      simp only [hv1]
      exact ⟨_, rfl, halike.map (fun s => { s with phase := .write }) (fun _ _ _ => rfl) fun _ => rfl⟩
  · split at ht
    · cases ht
    · next u1 hu1 =>
      obtain ⟨v1, hv1, halike⟩ := hv.delay hu1
      cases ht
      simp only [hv1]
      exact ⟨_, rfl, halike.afterDelay c⟩
  · cases ht
    exact ⟨_, rfl, hv.afterDelay c⟩

theorem Alike.readPhase {c : Command} (hv : Alike exact d u v) (ht : readPhase c u = .moved t) :
    ∃ t', readPhase c v = .moved t' ∧ Alike exact d t t' := by
  unfold Machine.readPhase busRead at ht ⊢
  cases ha : u.readAnswers with
  | nil => simp [ha] at ht
  | cons a rest =>
    obtain ⟨ha', halike⟩ := hv.heard c.asked a (a.atMost c.asked) ha
    simp only [ha, ha'] at ht ⊢
    cases a with
    | busError =>
      cases ht
      exact ⟨_, rfl, halike.raise _⟩
    | ok bytes =>
      cases ht
      exact ⟨_, rfl, halike.map (fun s => { rxLoad (bytes.take c.asked) s with phase := .decode }) (fun _ _ _ => rfl)
        fun _ => rfl⟩

theorem Alike.donePhase (hv : Alike exact d u v) (ht : donePhase u = .moved t) :
    ∃ t', donePhase v = .moved t' ∧ Alike exact d t t' := by
  have hresult : v.result = u.result := by
    obtain ⟨h, he, rfl⟩ := hv
    rfl
  unfold Machine.donePhase at ht ⊢
  rw [hresult]
  split at ht
  · cases ht
  · cases ht
    exact ⟨_, rfl, hv.finish _⟩

theorem Alike.phase_eq (hv : Alike exact d u v) : v.phase = u.phase := by
  obtain ⟨h, he, rfl⟩ := hv
  rfl

/-- Two alike blocks make the same move in every phase of a command. -/
theorem Alike.phaseStep {i : Instr} {c : Command} (hc : commandOf i = some c) (hv : Alike exact d u v)
    (ht : phaseStep c u = .moved t) : ∃ t', phaseStep c v = .moved t' ∧ Alike exact d t t' := by
  unfold Machine.phaseStep at ht ⊢
  rw [hv.phase_eq]
  split at ht
  · cases ht
  · exact hv.checkPhase ht
  · exact hv.encodePhase ht
  · exact hv.writePhase ht
  · exact hv.delayPhase ht
  · exact hv.readPhase ht
  · exact sameMove_decode hc hv ht
  · exact hv.donePhase ht

end

/-! ### Answers that come later -/

section
variable {i : Instr} {c : Command} {s t : State}

/-- With more to come and nothing else besides, an exactly alike block is the one with more to come. -/
theorem alike_later_iff {ws : List WriteAnswer} {rs : List ReadAnswer} {k : Nat} :
    Alike True ⟨[], [], ws, rs, k⟩ s t ↔ t = s.later ws rs k := by
  constructor
  · rintro ⟨h, he, rfl⟩
    rw [he trivial]
    rfl
  · rintro rfl
    exact ⟨s.unread, fun _ => rfl, rfl⟩

theorem phaseStep_later (hc : commandOf i = some c) (h : phaseStep c s = .moved t) (ws : List WriteAnswer)
    (rs : List ReadAnswer) (k : Nat) : phaseStep c (s.later ws rs k) = .moved (t.later ws rs k) := by
  obtain ⟨t', ht', halike⟩ := (alike_later_iff.mpr rfl).phaseStep hc h
  rw [ht', alike_later_iff.mp halike]

/-- What is still to come changes nothing a running command has. -/
theorem InRun.later (h : InRun i c s) (ws : List WriteAnswer) (rs : List ReadAnswer) (k : Nat) :
    InRun i c (s.later ws rs k) where
  stored := h.stored.of_spaces_eq rfl h.stored.bitcnt
  op := h.op
  running hp := (h.running hp).of_environment _ _ _ _

/-- A run that stopped goes on, once more has come, to where it would have got to with that there from the start. -/
theorem runPhases_later (hc : commandOf i = some c) {n : Nat} (hs : InRun i c s) (h : runPhases c n s = .next t)
    (ws : List WriteAnswer) (rs : List ReadAnswer) (k : Nat) :
    runPhases c Config.phasesPerStep (t.later ws rs k) = runPhases c Config.phasesPerStep (s.later ws rs k) := by
  induction n generalizing s with
  | zero =>
    cases h
    rfl
  | succ n ih =>
    cases hstep : phaseStep c s with
    | moved u =>
      rw [runPhases_moved hstep] at h
      have hcourse := phaseStep_course hc hstep
      have hu := hcourse.inRun hc hs
      have hlt : phasesLeft c (u.later ws rs k) < phasesLeft c (s.later ws rs k) :=
        show phasesLeft c u < phasesLeft c s from hcourse.phasesLeft_lt hc (hs.running hcourse.phase_ne_idle)
      have hle := phasesLeft_le (hs.later ws rs k)
      calc runPhases c Config.phasesPerStep (t.later ws rs k)
        _ = runPhases c Config.phasesPerStep (u.later ws rs k) := ih hu h
        _ = runPhases c 31 (u.later ws rs k) :=
          runPhases_enough hc (hu.later ws rs k) (phasesLeft_le (hu.later ws rs k)) (Nat.le_of_lt_succ (hlt.trans_le hle))
        _ = runPhases c Config.phasesPerStep (s.later ws rs k) :=
          (runPhases_moved (phaseStep_later hc hstep ws rs k) 31).symm
    | waiting u =>
      rw [runPhases_waiting hstep, (phaseStep_waiting hc hstep).1] at h
      cases h
      rfl
    | faulted f => exact absurd hstep (phaseStep_ne_faulted hc hs f)

/-- No phase touches the reset event that may be due. -/
theorem Course.resetRequested (h : Course i c s t) : t.resetRequested = s.resetRequested := by
  cases h with
  | sent bytes rest =>
    obtain ⟨p, r, heq⟩ := afterWrite_shape c (s.wrote bytes .ok rest)
    rw [heq]
    rfl
  | waited w k =>
    obtain ⟨p, r, heq⟩ := afterDelay_shape c (s.waited w k)
    rw [heq]
    rfl
  | passed =>
    obtain ⟨p, r, heq⟩ := afterDelay_shape c s
    rw [heq]
  | _ => rfl

/-- A step on a command that a run left waiting goes on with that run. -/
theorem step_later (hc : commandOf i = some c) {n : Nat} (hs : InRun i c s) (hr : s.resetRequested = false)
    (h : runPhases c n s = .next t) (hp : t.phase ≠ .idle) (ws : List WriteAnswer) (rs : List ReadAnswer) (k : Nat) :
    step (t.later ws rs k) = runPhases c Config.phasesPerStep (s.later ws rs k) := by
  have hrt : t.resetRequested = s.resetRequested :=
    runPhases_keeps hc (P := fun u => u.resetRequested = s.resetRequested)
      (fun _ _ hu hcourse => hcourse.resetRequested.trans hu) rfl h
  rw [step_busy (s := t.later ws rs k) (hrt.trans hr) hp,
    resume_command (s := t.later ws rs k) ((runPhases_inRun hc hs h).op hp) hc, runPhases_later hc hs h]

end

/-- Settles O52: what comes later changes no phase that does not wait for it, and there are phases enough either way. -/
theorem lateAnswersMakeNoDifference : Obligations.LateAnswersMakeNoDifference := by
  unfold Obligations.LateAnswersMakeNoDifference
  refine ⟨fun i s t ws rs k hi hp hr h hpt => ?_, fun s t ws rs k hinv hr hp h hpt => ?_⟩
  · obtain ⟨c, hc⟩ := commandOf_of_isCommand hi
    rw [exec_command_idle hc hp] at h
    rw [exec_command_idle (s := s.later ws rs k) hc hp]
    exact step_later (s := accept i s) hc (.accept i c s) hr h hpt ws rs k
  · rw [step_busy hr hp] at h
    obtain ⟨i, c, ho, hc, h⟩ := resume_next h
    rw [step_busy (s := s.later ws rs k) hr hp, resume_command (s := s.later ws rs k) ho hc]
    exact step_later hc (hinv.inRun hp ho hc) hr h hpt ws rs k

/-! ### What came before -/

section
variable {i : Instr} {c : Command} {exact : Prop} {d : Besides} {u v t : State}

/-- A phase that waits for an answer or for a wait to end has no course without it. -/
theorem Course.answered (h : Course i c u t) :
    (u.phase = .write → u.writeAnswers ≠ []) ∧ (u.phase = .read → u.readAnswers ≠ []) ∧
      (u.phase = .delay → u.waitsOver = 0 → c.backoff = none ∧ c.wait = none) := by
  cases h <;> simp_all

/-- With nothing more to come the alike block waits where the other one waits. -/
theorem Alike.waits (hc : commandOf i = some c) (hv : Alike exact d u v) (hin : InRun i c v)
    (hws : d.writeAnswers = []) (hrs : d.readAnswers = []) (hk : d.waitsOver = 0)
    (hu : Machine.phaseStep c u = .waiting t) : Machine.phaseStep c v = .waiting v := by
  cases hstep : Machine.phaseStep c v with
  | waiting w => rw [(phaseStep_waiting hc hstep).1]
  | faulted f => exact absurd hstep (phaseStep_ne_faulted hc hin f)
  | moved w =>
    exfalso
    have hcourse := phaseStep_course hc hstep
    obtain ⟨hwrite, hread, hdelay⟩ := hcourse.answered
    obtain ⟨h, -, rfl⟩ := hv
    rcases (phaseStep_waiting hc hu).2 with hp | ⟨hp, ha⟩ | ⟨hp, hk0⟩ | ⟨hp, ha⟩
    · exact hcourse.phase_ne_idle hp
    · exact hwrite hp (by simp [State.beside, ha, hws])
    · obtain ⟨hb, hw⟩ := hdelay hp (by simp [State.beside, hk0, hk])
      simp [Machine.phaseStep, hp, Machine.delayPhase, hb, hw] at hu
    · exact hread hp (by simp [State.beside, ha, hrs])

/-- Two alike blocks with the same answers to come make alike runs. -/
theorem Alike.run (hc : commandOf i = some c) (hv : Alike exact d u v) (hin : InRun i c v)
    (hws : d.writeAnswers = []) (hrs : d.readAnswers = []) (hk : d.waitsOver = 0) {n : Nat}
    (hu : runPhases c n u = .next t) : ∃ t', runPhases c n v = .next t' ∧ Alike exact d t t' := by
  induction n generalizing u v with
  | zero =>
    cases hu
    exact ⟨v, rfl, hv⟩
  | succ n ih =>
    cases hstep : Machine.phaseStep c u with
    | moved u1 =>
      rw [runPhases_moved hstep] at hu
      obtain ⟨v1, hv1, halike⟩ := hv.phaseStep hc hstep
      rw [runPhases_moved hv1]
      exact ih halike ((phaseStep_course hc hv1).inRun hc hin) hu
    | waiting u1 =>
      rw [runPhases_waiting hstep, (phaseStep_waiting hc hstep).1] at hu
      cases hu
      exact ⟨v, runPhases_waiting (hv.waits hc hin hws hrs hk hstep) n, hv⟩
    | faulted f =>
      rw [runPhases, hstep] at hu
      cases hu

/-- The state of the block in which the command was asked for, without what the host has seen of it before. -/
def State.withoutPast (s : State) : State := { s with results := [], trace := [] }

/-- A block that has just accepted the command is like one without a past that has the same configuration and the same to come. -/
theorem alike_accept {s s' : State} (ha : s.devAddr = s'.devAddr) (hp : s.crcPolicy = s'.crcPolicy)
    (hws : s.writeAnswers = s'.writeAnswers) (hrs : s.readAnswers = s'.readAnswers) (hk : s.waitsOver = s'.waitsOver) :
    Alike False ⟨s'.results, s'.trace, [], [], 0⟩ (accept i s.withoutPast) (accept i s') := by
  refine ⟨(accept i s').unread, nofun, ?_⟩
  simp [State.beside, accept, State.blank, State.withoutPast, State.unread, ha, hp, hws, hrs, hk]

/-- What a run of the command from a block without a past does, every block does that has the same configuration and the same
to come. -/
theorem exec_like {s s' : State} (hc : commandOf i = some c) (hp : s'.phase = .idle) (ha : s.devAddr = s'.devAddr)
    (hpol : s.crcPolicy = s'.crcPolicy) (hws : s.writeAnswers = s'.writeAnswers) (hrs : s.readAnswers = s'.readAnswers)
    (hk : s.waitsOver = s'.waitsOver)
    (ht : runPhases c Config.phasesPerStep (accept i s.withoutPast) = .next t) :
    ∃ t', exec i s' = .next t' ∧ t'.results = s'.results ++ t.results ∧ t'.trace = s'.trace ++ t.trace ∧
      t'.phase = t.phase ∧ t'.writeAnswers = t.writeAnswers ∧ t'.readAnswers = t.readAnswers ∧ t'.waitsOver = t.waitsOver := by
  obtain ⟨t', ht', h, -, rfl⟩ := (alike_accept ha hpol hws hrs hk).run hc (.accept i c s') rfl rfl rfl ht
  exact ⟨_, (exec_command_idle hc hp).trans ht', rfl, rfl, rfl, List.append_nil _, List.append_nil _, rfl⟩

end

/-- Settles O56: both blocks do what a block without a past does. -/
theorem outcomeDependsOnNothingEarlier : Obligations.OutcomeDependsOnNothingEarlier := by
  unfold Obligations.OutcomeDependsOnNothingEarlier
  intro i s s' hi hp hp' ha hpol hws hrs hk
  obtain ⟨c, hc⟩ := commandOf_of_isCommand hi
  obtain ⟨t, ht⟩ := runPhases_answers hc Config.phasesPerStep (.accept i c s.withoutPast)
  obtain ⟨t1, h1, hres1, htr1, hph1, hws1, hrs1, hk1⟩ := exec_like hc hp rfl rfl rfl rfl rfl ht
  obtain ⟨t2, h2, hres2, htr2, hph2, hws2, hrs2, hk2⟩ := exec_like hc hp' ha hpol hws hrs hk ht
  exact ⟨t1, t2, t.results, t.trace, h1, h2, hres1, hres2, htr1, htr2, hph1.trans hph2.symm, hws1.trans hws2.symm,
    hrs1.trans hrs2.symm, hk1.trans hk2.symm⟩

end Sys2Proof.Machine
end

section
/-! PROOFS. Commands left waiting (10_state.md R13, R18, 42_commands.md R111, 93_implementation_defined.md U7): WRITE without an answer,
and what `identify` shows after an attempt and in its backoff. -/

namespace Sys2Proof.Machine

open Sys2Proof.Claims

/-- Settles O51: with its arguments passed the command comes to WRITE with its own frame in `tx`, and there it waits. -/
theorem unansweredWriteIsPending : Obligations.UnansweredWriteIsPending := by
  unfold Obligations.UnansweredWriteIsPending
  intro i c s hc hok hp ha
  obtain ⟨t, ht, hat⟩ := (reaches_write hc hok rfl hp).waits fun _ ht => ht.write_waits ha
  obtain ⟨tag, henc⟩ := encode_frameOf hc
  exact ⟨t, ht, hat.phase, hat.op, hat.results, hat.trace, tag, _, henc, hat.frame⟩

/-! ### DECODE of identify -/

section
variable {s : State} {bs : List Byte} {n : Nat}

/-- DECODE of `identify` on a complete response: the decoder leaves the words and flags of the six triples; an error of it ends
the command, and else the test of the words follows (R93, R111). -/
theorem phaseStep_identify_decode (hp : s.phase = .decode) (hr : s.Received bs) (hl : bs.length = 18) :
    ∃ x' ok crc b,
      (∀ k, k < 6 → x'[k]? = some (some (wordAt bs k)) ∧ ok[k]? = some (some (tripleOkAt bs k))) ∧
      (∀ e, decodeOutcome 6 s.crcPolicy bs = .error e → phaseStep identifyCommand s =
        .moved (raise e { s with x := x', crcOk := ok, crc := crc, bitcnt := b })) ∧
      ∀ ws, decodeOutcome 6 s.crcPolicy bs = .ok ws → phaseStep identifyCommand s =
        identifyWords ws { s with x := x', crcOk := ok, crc := crc, bitcnt := b } := by
  obtain ⟨u, he, hu, -, hx⟩ := decodeWordsOp_eq 6 s.crcPolicy s bs hr (by decide)
  refine ⟨u.x, u.crcOk, u.crc, u.bitcnt, hx (by omega), fun e ho => ?_, fun ws ho => ?_⟩
  all_goals
    rw [← hu]
    simp only [phaseStep, hp, identifyCommand, decodeThen, he, ho]

end

/-- The clause of the statement about one accepted response. -/
theorem identify_decode_accepted {s : State} {bs : List Byte} {n : Nat} (hp : s.phase = .decode) (hr : s.Received bs)
    (hl : bs.length = 18) (hn : s.attempt = some n) (hacc : Accepted s.crcPolicy bs 6) :
    ∃ t, phaseStep identifyCommand s = .moved t ∧
      t = { s with x := t.x, crcOk := t.crcOk, crc := t.crc, bitcnt := t.bitcnt, idMatch := t.idMatch, phase := t.phase,
                   attempt := t.attempt, result := t.result } ∧
      (∀ k, k < 6 → t.x[k]? = some (some (wordAt bs k)) ∧ t.crcOk[k]? = some (some (tripleOkAt bs k))) ∧
      t.idMatch = some (decide (identityIn bs = Config.expectedId)) ∧
      (identityIn bs = Config.expectedId ∨ n = 5 →
        t.phase = .done ∧ t.attempt = some n ∧ t.result = some (.ok (.identity (identityIn bs)))) ∧
      (identityIn bs ≠ Config.expectedId → n ≠ 5 →
        t.phase = .delay ∧ t.attempt = some (n + 1) ∧ t.result = s.result) := by
  obtain ⟨x', ok, crc, b, hx, -, hok⟩ := phaseStep_identify_decode hp hr hl
  rw [hok _ (decodeOutcome_of_accepted hl.ge hacc),
    identifyWords_eq bs (t := { s with x := x', crcOk := ok, crc := crc, bitcnt := b }) hn]
  refine ⟨_, rfl, ?_⟩
  by_cases hend : identityIn bs = Config.expectedId ∨ n = 5
  · rw [if_pos hend]
    exact ⟨rfl, hx, congrArg some (beq_eq_decide _ _), fun _ => ⟨rfl, hn, rfl⟩,
      fun hne h5 => absurd hend (not_or.mpr ⟨hne, h5⟩)⟩
  · rw [if_neg hend]
    exact ⟨rfl, hx, congrArg some (beq_eq_decide _ _), fun h => absurd h hend, fun _ _ => ⟨rfl, rfl, rfl⟩⟩

/-- Left waiting for the backoff after a mismatch before the fifth attempt, `identify` shows the attempt to come and that the last
identity did not match. -/
theorem identifyWords_retries_idMatch {u t : State} {bs : List Byte} {n : Nat}
    (ht : AtPhase u identifyBytes .identify n .decode t) (h : identityIn bs ≠ Config.expectedId) (hn : n ≠ 5) :
    ∃ t', identifyWords ((List.range 6).map (wordAt bs)) t = .moved t' ∧
      AtPhase u identifyBytes .identify (n + 1) .delay t' ∧ t'.idMatch = some false := by
  obtain ⟨t', ht', hat⟩ := identifyWords_retries ht h hn
  refine ⟨t', ht', hat, ?_⟩
  rw [identifyWords_eq bs ht.attempt, if_neg (not_or.mpr ⟨h, hn⟩)] at ht'
  cases ht'
  exact congrArg some (beq_eq_false_iff_ne.mpr h)

/-- Settles O57: the decoder comes first and ends a rejected response; the test of the words sets `id_match` and leads to DONE or
to the backoff, where the command waits. -/
theorem identifyFlagsTheMatchAndCountsAttempts : Obligations.IdentifyFlagsTheMatchAndCountsAttempts := by
  unfold Obligations.IdentifyFlagsTheMatchAndCountsAttempts
  refine ⟨fun s bs n hp hr hl hn => ⟨identify_decode_accepted hp hr hl hn, fun k hrej => ?_⟩,
    fun s ms bs ws rs hp hlen hms hm hans => ?_⟩
  · obtain ⟨x', ok, crc, b, -, herr, -⟩ := phaseStep_identify_decode hp hr hl
    exact ⟨_, herr _ (decodeOutcome_of_rejectedAt hl.ge hrej), rfl, rfl, rfl, hn⟩
  · obtain ⟨hl, hacc, hne⟩ := hm
    obtain ⟨m, hfuel⟩ : ∃ m, m + 4 + 4 * ms.length = 30 := ⟨26 - 4 * ms.length, by omega⟩
    have hresponded := ((reaches_attempt hp ms (by omega) hms hans hfuel).sentToRead rfl rfl (by decide)).responded rfl hl.le
    have hdelay := hresponded.decoded rfl (by decide) (decodeOutcome_of_accepted hl.ge hacc)
      fun _ ht => identifyWords_retries_idMatch ht hne (by omega)
    obtain ⟨t, ht, hat, hid⟩ := hdelay.waits fun _ ht => ht.1.delay_waits rfl (.inl rfl)
    exact ⟨t, ht, hat.phase, hat.op, hat.attempt, hid, hat.results, hat.trace⟩

end Sys2Proof.Machine
end

section
/-! PROOFS. The algebra of the CRC (40_crc8.md R71, R76, R77, R79): the bit step is linear over XOR and one-to-one, and what follows for
the byte step, the serial unit, the residue and the count of words. -/

namespace Sys2Proof

/-! ### The bit step is linear and one-to-one -/

/-- What a bit step feeds back when this bit is shifted out (R70). -/
def feedback (top : Bool) : Byte := if top then Config.crcPoly else 0

theorem feedback_xor (p q : Bool) : feedback (p ^^ q) = feedback p ^^^ feedback q := by
  cases p <;> cases q <;> decide

theorem crcBitStep_eq_feedback (r : Byte) : crcBitStep r = r <<< 1 ^^^ feedback r.msb := by
  unfold crcBitStep feedback
  split <;> simp

theorem crcSerialBit_eq_feedback (r : Byte) (b : Bool) : crcSerialBit r b = r <<< 1 ^^^ feedback (r.msb ^^ b) := by
  unfold crcSerialBit feedback
  split <;> simp

theorem crcBitStep_xor (a b : Byte) : crcBitStep (a ^^^ b) = crcBitStep a ^^^ crcBitStep b := by
  rw [crcBitStep_eq_feedback, crcBitStep_eq_feedback, crcBitStep_eq_feedback, BitVec.msb_xor, feedback_xor,
    BitVec.shiftLeft_xor_distrib]
  ac_rfl

theorem crcBitSteps_xor (n : Nat) (a b : Byte) : crcBitSteps n (a ^^^ b) = crcBitSteps n a ^^^ crcBitSteps n b := by
  induction n generalizing a b with
  | zero => rfl
  | succ n ih => rw [crcBitSteps_succ, crcBitSteps_succ, crcBitSteps_succ, crcBitStep_xor, ih]

theorem eq_zero_of_crcBitStep_eq_zero : ∀ a : Byte, crcBitStep a = 0 → a = 0 := by decide

/-- A linear map that sends only 0 to 0 is one-to-one. -/
theorem crcBitStep_injective : Function.Injective crcBitStep := by
  intro a b h
  have hxor : crcBitStep (a ^^^ b) = 0 := by rw [crcBitStep_xor, h, BitVec.xor_self]; rfl
  exact BitVec.xor_eq_zero_iff.mp (eq_zero_of_crcBitStep_eq_zero _ hxor)

/-! ### The byte step -/

theorem crcByteStep_xor (r r' b b' : Byte) :
    crcByteStep (r ^^^ r') (b ^^^ b') = crcByteStep r b ^^^ crcByteStep r' b' := by
  rw [crcByteStep, crcByteStep, crcByteStep, ← crcBitSteps_xor]
  congr 1
  ac_rfl

theorem crcByteStep_injective (r : Byte) : Function.Injective (crcByteStep r) := by
  intro b b' h
  rw [crcByteStep_eq_iterate, crcByteStep_eq_iterate] at h
  exact (BitVec.xor_right_inj r).mp (crcBitStep_injective.iterate 8 h)

theorem crcByteStep_bijective (r : Byte) : Function.Bijective (crcByteStep r) :=
  Finite.injective_iff_bijective.mp (crcByteStep_injective r)

/-- The step gives zero exactly when the byte is what stands in the register (R77). -/
theorem crcByteStep_eq_zero_iff (r b : Byte) : crcByteStep r b = 0 ↔ r = b := by
  have hself : crcByteStep r r = 0 := by
    rw [crcByteStep_eq_of_xor, BitVec.xor_self]
    decide
  rw [← hself, (crcByteStep_injective r).eq_iff, eq_comm]

/-- Settles O7: the eight bit steps are one-to-one, and XOR with the register is too. -/
theorem crcByteStepIsOneToOne : Obligations.CrcByteStepIsOneToOne := by
  unfold Obligations.CrcByteStepIsOneToOne
  exact fun r => ⟨crcByteStep_bijective r, crcByteStep_eq_of_xor r⟩

/-- Settles O9: the third byte step gives zero exactly when its byte is the CRC of the first two. -/
theorem zeroResidueExactlyWhenCheckPasses : Obligations.ZeroResidueExactlyWhenCheckPasses := by
  unfold Obligations.ZeroResidueExactlyWhenCheckPasses
  intro hi lo c
  rw [crcCheck, beq_iff_eq]
  exact crcByteStep_eq_zero_iff _ c

/-! ### The serial unit -/

/-- A bit step of the XOR of register and data is a step of the serial unit on the top data bit, with the data moved on. -/
theorem crcBitStep_xor_data (r b : Byte) : crcBitStep (r ^^^ b) = crcSerialBit r b.msb ^^^ b <<< 1 := by
  rw [crcBitStep_eq_feedback, crcSerialBit_eq_feedback, BitVec.msb_xor, BitVec.shiftLeft_xor_distrib]
  ac_rfl

/-- After `n` bits the register of the serial unit and the rest of the data make up the register of the byte unit (R76). -/
theorem crcBitSteps_xor_data (n : Nat) (r b : Byte) :
    crcBitSteps n (r ^^^ b) =
      ((List.range n).map fun k => (b <<< k).msb).foldl crcSerialBit r ^^^ b <<< n := by
  induction n generalizing r b with
  | zero => simp
  | succ n ih =>
    rw [crcBitSteps_succ, crcBitStep_xor_data, ih, List.range_succ_eq_map, List.map_cons, List.foldl_cons, List.map_map,
      BitVec.shiftLeft_zero, ← BitVec.shiftLeft_add]
    simp only [Function.comp_def, Nat.succ_eq_add_one, ← BitVec.shiftLeft_add, Nat.add_comm 1]

theorem bitsMsbFirst_eq (b : Byte) : bitsMsbFirst b = (List.range 8).map fun k => (b <<< k).msb := by
  refine List.map_congr_left fun k hk => ?_
  have hk : k < 8 := List.mem_range.mp hk
  rw [BitVec.msb_eq_getLsbD_last, BitVec.getLsbD_shiftLeft]
  simp
  omega

theorem foldl_bitsMsbFirst (r b : Byte) : (bitsMsbFirst b).foldl crcSerialBit r = crcByteStep r b := by
  rw [crcByteStep, crcBitSteps_xor_data, ← bitsMsbFirst_eq, BitVec.shiftLeft_eq_zero (le_refl 8)]
  simp

/-- Settles O8: eight bits of a byte in the serial unit are one byte step. -/
theorem serialUnitEqualsByteUnit : Obligations.SerialUnitEqualsByteUnit := by
  unfold Obligations.SerialUnitEqualsByteUnit
  intro bytes
  rw [crcSerial, crc8, List.foldl_flatMap]
  simp only [foldl_bitsMsbFirst]

/-! ### The CRC of an XOR -/

theorem foldl_crcByteStep_xor (a b : List Byte) (h : a.length = b.length) (r r' r'' : Byte) :
    (List.zipWith (fun x y => x ^^^ y) a b).foldl crcByteStep (r ^^^ r' ^^^ r'') =
      a.foldl crcByteStep r ^^^ b.foldl crcByteStep r' ^^^ (List.replicate a.length 0).foldl crcByteStep r'' := by
  induction a generalizing b r r' r'' with
  | nil =>
    obtain rfl := List.length_eq_zero_iff.mp h.symm
    rfl
  | cons x a ih =>
    cases b with
    | nil => cases h
    | cons y b =>
      simp only [List.zipWith_cons_cons, List.length_cons, List.replicate_succ, List.foldl_cons]
      rw [← ih b (Nat.succ.inj h), ← crcByteStep_xor, ← crcByteStep_xor]
      congr 2
      exact BitVec.xor_zero.symm

/-- Settles O11: each byte step is linear, and 0xFF is the XOR of three times itself. -/
theorem crcIsAffineOverXor : Obligations.CrcIsAffineOverXor := by
  unfold Obligations.CrcIsAffineOverXor
  intro a b h
  rw [crc8, crc8, crc8, crc8, ← foldl_crcByteStep_xor a b h]
  rfl

/-! ### The words of a CRC value -/

theorem highByte_ofNat (n : Nat) : highByte (BitVec.ofNat 16 n) = BitVec.ofNat 8 (n / 256) := by
  apply BitVec.eq_of_toNat_eq
  simp [highByte, Nat.shiftRight_eq_div_pow]
  omega

theorem lowByte_ofNat (n : Nat) : lowByte (BitVec.ofNat 16 n) = BitVec.ofNat 8 n := by
  apply BitVec.eq_of_toNat_eq
  simp [lowByte]

theorem crcWord_ofNat (n : Nat) :
    crcWord (BitVec.ofNat 16 n) =
      crcByteStep (crcByteStep Config.crcInitValue (BitVec.ofNat 8 (n / 256))) (BitVec.ofNat 8 n) := by
  rw [crcWord, crc8_pair, highByte_ofNat, lowByte_ofNat]

theorem mod_eq_of_ofNat_eq {n n' : Nat} (h : BitVec.ofNat 8 n = BitVec.ofNat 8 n') : n % 256 = n' % 256 := by
  simpa using congrArg BitVec.toNat h

/-- Settles O10: each of the 256 high bytes has exactly one low byte that leads to the value. -/
theorem everyCrcValueHas256Words : Obligations.EveryCrcValueHas256Words := by
  unfold Obligations.EveryCrcValueHas256Words
  intro c
  rw [← Finset.card_range 256]
  refine Finset.card_bij (fun n _ => n / 256) (fun n hn => ?_) (fun n hn n' hn' heq => ?_) fun h hh => ?_
  · have hlt := Finset.mem_range.mp (Finset.mem_filter.mp hn).1
    exact Finset.mem_range.mpr (by omega)
  · have hcrc := (Finset.mem_filter.mp hn).2
    have hcrc' := (Finset.mem_filter.mp hn').2
    rw [← hcrc', crcWord_ofNat, crcWord_ofNat, heq] at hcrc
    have hmod := mod_eq_of_ofNat_eq (crcByteStep_injective _ hcrc)
    omega
  · have hh := Finset.mem_range.mp hh
    obtain ⟨lo, hlo⟩ := (crcByteStep_bijective (crcByteStep Config.crcInitValue (BitVec.ofNat 8 h))).2 c
    have hlt := lo.isLt
    refine ⟨256 * h + lo.toNat, Finset.mem_filter.mpr ⟨Finset.mem_range.mpr (by omega), ?_⟩, by omega⟩
    rw [crcWord_ofNat, show (256 * h + lo.toNat) / 256 = h by omega,
      show BitVec.ofNat 8 (256 * h + lo.toNat) = lo from BitVec.eq_of_toNat_eq (by simpa using hlt), hlo]

end Sys2Proof
end

section
/-! PROOFS. The frame codec (41_frame_codec.md R92 to R96): frames of any length, the CRC bytes of a frame, and the two decoders run by
themselves. -/

namespace Sys2Proof.Machine

open Sys2Proof.Claims

/-! ### Frames -/

/-- The CRC unit over word after word is left with the CRC of the last one (R92). -/
theorem crcOverWords_concat (ws : List Word) (w : Word) (s : State) :
    (ws ++ [w]).foldl (fun t w => crc8Op [highByte w, lowByte w] t) s =
      { s with crc := crc8 [highByte w, lowByte w], bitcnt := 0 } := by
  obtain ⟨crc, b, -, heq⟩ := crcOverWords_shape ws s
  rw [List.foldl_append, heq, List.foldl_cons, List.foldl_nil, crc8Op_eq]

theorem exec_encodeFrame_long {s : State} (hp : s.phase = .idle) (cmd : Word) {ws : List Word}
    (hn : Config.maxWords < ws.length) : exec (.encodeFrame cmd ws) s = .next (encodeLongFrame cmd ws s) := by
  have hfits : frameFits ws = false := decide_eq_false (Nat.not_le.mpr hn)
  simp [exec, execEncodeFrame, whenIdle_idle hp, hfits]

/-- Settles O14: three words do not fit `tx`, so the frame is only handed over, and the CRC unit has gone over every word. -/
theorem longFrameIsReturnedUnstored : Obligations.LongFrameIsReturnedUnstored := by
  unfold Obligations.LongFrameIsReturnedUnstored
  intro s cmd ws w hp hn
  have hlong : Config.maxWords < (ws ++ [w]).length := by
    rw [List.length_append, List.length_singleton]
    exact Nat.lt_succ_of_le hn
  rw [exec_encodeFrame_long hp cmd hlong, encodeLongFrame, crcOverWords_concat]
  rfl

/-- Settles O15: byte `4+3k` is the third of the triple of word `k`. -/
theorem frameLengthAndCrcBytes : Obligations.FrameLengthAndCrcBytes := by
  unfold Obligations.FrameLengthAndCrcBytes
  intro cmd ws
  refine ⟨encodeFrame_length cmd ws, fun k hi lo hk hhi hlo => ?_⟩
  have hbyte (j : Nat) (hj : j < 3) := encodeFrame_getElem?_triple cmd (List.getElem?_eq_getElem hk) hj
  have h0 := hbyte 0 (by omega)
  have h1 := hbyte 1 (by omega)
  have h2 := hbyte 2 (by omega)
  rw [show 2 + 3 * k + 1 = 3 + 3 * k by omega, hlo] at h1
  rw [show 2 + 3 * k + 2 = 4 + 3 * k by omega] at h2
  rw [Nat.add_zero, hhi] at h0
  rw [h2, Option.some.inj h0, Option.some.inj h1]
  rfl

/-! ### decode_words by itself -/

theorem exec_decodeWords_idle {s : State} (hp : s.phase = .idle) (m : Nat) (policy : CrcPolicy) :
    exec (.decodeWords m policy) s = outcome (decodeWordsRun m policy s) := by
  rw [exec, execDecodeWords, whenIdle_idle hp]

/-- What `decode_words` hands over: the words or the error (R93). -/
def handedOver : Except OpError (List Word) → OpResult
  | .error e => .err e
  | .ok ws => .ok (.words ws)

theorem decodeWordsRun_eq {m : Nat} {policy : CrcPolicy} {s u : State} {r : Except OpError (List Word)}
    (h : decodeWordsOp m policy s = .ok (u, r)) : decodeWordsRun m policy s = .ok (deliver (handedOver r) u) := by
  rw [decodeWordsRun, h]
  cases r <;> rfl

/-- On a complete response the state after the decoder is the one after its loop over the triples (R93). -/
theorem decodeTriples_of_decodeWordsOp {m : Nat} {policy : CrcPolicy} {s u : State} {r : Except OpError (List Word)}
    (h : decodeWordsOp m policy s = .ok (u, r)) (hl : ¬ s.rxLen < 3 * m) : decodeTriples m 0 s = .ok u := by
  rw [decodeWordsOp, if_neg hl] at h
  split at h
  · cases h
  · next u' hu' =>
    split at h
    · cases h
    · split at h
      · cases h
      · cases h
        exact hu'

section
variable {s : State} {m : Nat} {bs : List Byte}

/-- A short response is handed over as such, and nothing else is written (R93, log entry 29). -/
theorem exec_decodeWords_short (hp : s.phase = .idle) (policy : CrcPolicy) (hr : s.Received bs) (hl : bs.length < 3 * m) :
    exec (.decodeWords m policy) s =
      .next (deliver (.err (.decodeError (.shortResponse bs.length (3 * m)))) s) := by
  have hop : decodeWordsOp m policy s = .ok (s, .error (.decodeError (.shortResponse bs.length (3 * m)))) := by
    rw [decodeWordsOp, hr.1, if_pos hl]
  rw [exec_decodeWords_idle hp, decodeWordsRun_eq hop]
  rfl

/-- A complete response leaves its words and flags in the first `m` places of `x` and `crc_ok`, and what `decodeOutcome` says of the
bytes is handed over (R93). -/
theorem exec_decodeWords_complete (hp : s.phase = .idle) (policy : CrcPolicy) (hr : s.Received bs) (hm : m ≤ 6)
    (hl : 3 * m ≤ bs.length) :
    ∃ x' ok crc b, exec (.decodeWords m policy) s =
        .next (deliver (handedOver (decodeOutcome m policy bs)) { s with x := x', crcOk := ok, crc := crc, bitcnt := b }) ∧
      ∀ k, x'[k]? = (if k < m then some (some (wordAt bs k)) else s.x[k]?) ∧
        ok[k]? = if k < m then some (some (tripleOkAt bs k)) else s.crcOk[k]? := by
  obtain ⟨u, hop, hu, -, -⟩ := decodeWordsOp_eq m policy s bs hr hm
  have hloop := decodeTriples_of_decodeWordsOp hop (by rw [hr.1]; omega)
  obtain ⟨u', hloop', -, -, hx⟩ := decodeTriples_eq m 0 s bs hr (by omega) (by rwa [Nat.zero_add])
  obtain rfl : u' = u := Except.ok.inj (hloop'.symm.trans hloop)
  refine ⟨u'.x, u'.crcOk, u'.crc, u'.bitcnt, ?_, fun k => ?_⟩
  · rw [exec_decodeWords_idle hp, decodeWordsRun_eq hop, ← hu]
    rfl
  · by_cases hk : k < Config.numWordRegs
    · simpa using hx k hk
    · have hk6 : 6 ≤ k := Nat.le_of_not_lt hk
      simp [show ¬ k < m by omega, hk6]

end

/-- Settles O16: the state is that of the decoder, and what is handed over is what the bytes say. -/
theorem decodeWordsFollowsPolicy : Obligations.DecodeWordsFollowsPolicy := by
  unfold Obligations.DecodeWordsFollowsPolicy
  intro s m policy bs hp hr hm
  refine ⟨exec_decodeWords_short hp policy hr, fun hl => ?_⟩
  obtain ⟨x', ok, crc, b, hexec, hx⟩ := exec_decodeWords_complete hp policy hr hm hl
  refine ⟨_, hexec, rfl, fun k => (hx k).1, fun k => (hx k).2, fun hacc => ?_, fun k hrej => ?_⟩
  · rw [decodeOutcome_of_accepted hl hacc]
    rfl
  · rw [decodeOutcome_of_rejectedAt hl hrej]
    rfl

/-! ### Decoding what was encoded -/

section
variable {cmd : Word} {ws : List Word} {k : Nat} {w : Word}

/-- The triples of a frame stand behind its two command bytes. -/
theorem drop_encodeFrame (cmd : Word) (ws : List Word) : (encodeFrame cmd ws).drop 2 = ws.flatMap encodeTriple := rfl

theorem length_flatMap_encodeTriple (ws : List Word) : (ws.flatMap encodeTriple).length = 3 * ws.length := by
  have h := encodeFrame_length 0 ws
  rw [encodeFrame, List.length_append] at h
  exact Nat.add_left_cancel (n := 2) h

theorem getD_flatMap_encodeTriple (hw : ws[k]? = some w) {j : Nat} (hj : j < 3) :
    (ws.flatMap encodeTriple).getD (3 * k + j) 0 = (encodeTriple w).getD j 0 := by
  rw [List.getD_eq_getElem?_getD, List.getD_eq_getElem?_getD, flatMap_encodeTriple_getElem? hw hj]

theorem wordAt_flatMap_encodeTriple (hw : ws[k]? = some w) : wordAt (ws.flatMap encodeTriple) k = w := by
  have h0 := getD_flatMap_encodeTriple hw (j := 0) (by omega)
  rw [Nat.add_zero] at h0
  rw [wordAt, h0, getD_flatMap_encodeTriple hw (by omega)]
  exact joinBytes_high_low w

theorem tripleOkAt_flatMap_encodeTriple (hw : ws[k]? = some w) : tripleOkAt (ws.flatMap encodeTriple) k = true := by
  have h0 := getD_flatMap_encodeTriple hw (j := 0) (by omega)
  rw [Nat.add_zero] at h0
  rw [tripleOkAt, h0, getD_flatMap_encodeTriple hw (by omega), getD_flatMap_encodeTriple hw (by omega)]
  exact beq_self_eq_true _

theorem map_wordAt_flatMap_encodeTriple (ws : List Word) :
    (List.range ws.length).map (wordAt (ws.flatMap encodeTriple)) = ws := by
  refine List.ext_getElem (by simp) fun k hk hk' => ?_
  rw [List.getElem_map, List.getElem_range]
  exact wordAt_flatMap_encodeTriple (List.getElem?_eq_getElem hk')

end

/-- Settles O17: every triple of a frame passes its check and carries its word. -/
theorem decodingAnEncodedFrameGivesTheWords : Obligations.DecodingAnEncodedFrameGivesTheWords := by
  unfold Obligations.DecodingAnEncodedFrameGivesTheWords
  intro s cmd ws policy hp hn hr
  rw [drop_encodeFrame] at hr
  have hl := (length_flatMap_encodeTriple ws).ge
  obtain ⟨x', ok, crc, b, hexec, hx⟩ := exec_decodeWords_complete hp policy hr hn hl
  have hacc : Accepted policy (ws.flatMap encodeTriple) ws.length :=
    .inr fun k hk => tripleOkAt_flatMap_encodeTriple (List.getElem?_eq_getElem hk)
  rw [decodeOutcome_of_accepted hl hacc, map_wordAt_flatMap_encodeTriple] at hexec
  refine ⟨_, hexec, rfl, fun k hk => ?_⟩
  have hw := List.getElem?_eq_getElem hk
  obtain ⟨hxk, hokk⟩ := hx k
  rw [if_pos hk, wordAt_flatMap_encodeTriple hw] at hxk
  rw [if_pos hk, tripleOkAt_flatMap_encodeTriple hw] at hokk
  exact ⟨hxk.trans (congrArg some hw.symm), hokk⟩

/-! ### decode_raw_word by itself -/

/-- Settles O18: the first two bytes are the word; fewer are handed over as the error of `factory_reset`. -/
theorem decodeRawWordTakesTwoBytes : Obligations.DecodeRawWordTakesTwoBytes := by
  unfold Obligations.DecodeRawWordTakesTwoBytes
  intro s bs hp hr
  have hexec : exec .decodeRawWord s = outcome (decodeRawWordRun s) := by
    rw [exec, execDecodeRawWord, whenIdle_idle hp]
  rw [hexec, decodeRawWordRun, decodeRawWordOp_eq s bs hr]
  refine ⟨fun hl => ?_, ?_⟩
  · rw [if_pos hl]
    rfl
  · rintro hi lo rest rfl
    rw [if_neg (by simp)]
    rfl

end Sys2Proof.Machine
end

section
/-! PROOFS. The conversions from physical values to raw codes (45_host_conversions.md R142 to R144, R150, R151): rounding to a whole code,
whichever way, stays in 16 bits and within one step. -/

namespace Sys2Proof

/-! ### Rounding -/

theorem roundRaw_intCast (n : Int) : roundRaw n = n := by
  rw [roundRaw, if_pos (Rat.den_intCast n), Rat.num_intCast]

/-- `ROUND_RAW` is the floor or the nearest integer, at each exact code (R151). -/
theorem roundRaw_eq (q : Rat) : roundRaw q = q.floor ∨ roundRaw q = (q + 1 / 2).floor := by
  by_cases hq : q.den = 1
  · refine .inl ?_
    rw [← (Rat.den_eq_one_iff q).mp hq, roundRaw_intCast, Rat.floor_intCast]
  · rw [roundRaw, if_neg hq]
    split
    · exact .inr rfl
    · exact .inl rfl

/-- Rounding moves a code by less than one step. -/
theorem abs_roundRaw_sub_lt (q : Rat) : |(roundRaw q : Rat) - q| < 1 := by
  rw [abs_lt]
  rcases roundRaw_eq q with h | h <;> rw [h]
  · have hle := Rat.floor_le q
    have hlt := Rat.lt_floor_add_one q
    push_cast at hlt
    constructor <;> linarith
  · have hle := Rat.floor_le (q + 1 / 2)
    have hlt := Rat.lt_floor_add_one (q + 1 / 2)
    push_cast at hlt
    constructor <;> linarith

/-- A code between 0 and 65535 stays there when it is rounded. -/
theorem roundRaw_mem {q : Rat} (h0 : 0 ≤ q) (h1 : q ≤ 65535) : 0 ≤ roundRaw q ∧ roundRaw q < 65536 := by
  rcases roundRaw_eq q with h | h <;> rw [h, Rat.le_floor_iff, Rat.floor_lt_iff]
  all_goals
    push_cast
    constructor <;> linarith

/-- The word of such a code is the rounded code: nothing wraps. -/
theorem toNat_rawWord {q : Rat} (h0 : 0 ≤ q) (h1 : q ≤ 65535) : ((rawWord q).toNat : Int) = roundRaw q := by
  obtain ⟨hge, hlt⟩ := roundRaw_mem h0 h1
  rw [rawWord, BitVec.toNat_ofInt]
  omega

theorem rawWord_toNat (w : Word) : rawWord (w.toNat : Rat) = w := by
  rw [rawWord, ← Int.cast_natCast, roundRaw_intCast, BitVec.ofInt_natCast, BitVec.ofNat_toNat, BitVec.setWidth_eq]

theorem toNat_rawWord_eq {q : Rat} (h0 : 0 ≤ q) (h1 : q ≤ 65535) :
    ((rawWord q).toNat : Int) = q.floor ∨ ((rawWord q).toNat : Int) = (q + 1 / 2).floor := by
  rw [toNat_rawWord h0 h1]
  exact roundRaw_eq q

theorem abs_rawWord_sub_lt {q : Rat} (h0 : 0 ≤ q) (h1 : q ≤ 65535) : |((rawWord q).toNat : Rat) - q| < 1 := by
  have h : ((rawWord q).toNat : Rat) = (roundRaw q : Rat) := by exact_mod_cast toNat_rawWord h0 h1
  rw [h]
  exact abs_roundRaw_sub_lt q

/-! ### Exact operands -/

/-- The exact value of a raw code has that code (R140, R142). -/
@[simp] theorem tempToRaw_tempFromRaw (w : Word) : tempToRaw (tempFromRaw w) = w := by
  rw [tempToRaw, tempFromRaw_eq, show (-45 + 175 * (w.toNat : Rat) / 65535 + 45) * 65535 / 175 = w.toNat by ring,
    rawWord_toNat]

@[simp] theorem rhToRaw_rhFromRaw (w : Word) : rhToRaw (rhFromRaw w) = w := by
  rw [rhToRaw, rhFromRaw_eq, show (-6 + 125 * (w.toNat : Rat) / 65535 + 6) * 65535 / 125 = w.toNat by ring,
    rawWord_toNat]

@[simp] theorem pressureToRaw_pressureFromRaw (w : Word) : pressureToRaw (pressureFromRaw w) = w := by
  rw [pressureToRaw, pressureFromRaw, show (w.toNat : Rat) / 50 * 50 = w.toNat by ring, rawWord_toNat]

/-! ### The statements -/

/-- The exact code of a legal temperature fits in 16 bits (R142, R145). -/
theorem tempCode_mem {t : Rat} (h0 : 10 ≤ t) (h1 : t ≤ 40) :
    0 ≤ (t + 45) * 65535 / 175 ∧ (t + 45) * 65535 / 175 ≤ 65535 := by
  constructor <;> linarith

theorem rhCode_mem {h : Rat} (h0 : 20 ≤ h) (h1 : h ≤ 80) :
    0 ≤ (h + 6) * 65535 / 125 ∧ (h + 6) * 65535 / 125 ≤ 65535 := by
  constructor <;> linarith

/-- Settles O33: the exact code of a legal operand fits, so the word is the rounded code. -/
theorem physicalValuesToRawCodes : Obligations.PhysicalValuesToRawCodes := by
  unfold Obligations.PhysicalValuesToRawCodes
  refine ⟨fun t h0 h1 => ?_, fun h h0 h1 => ?_⟩
  · obtain ⟨hge, hle⟩ := tempCode_mem h0 h1
    exact toNat_rawWord_eq hge hle
  · obtain ⟨hge, hle⟩ := rhCode_mem h0 h1
    exact toNat_rawWord_eq hge hle

/-- Settles O34: fifty times a whole pressure is whole, and rounding leaves it; fifty times a legal pressure fits. -/
theorem pressureIsScaledByFifty : Obligations.PressureIsScaledByFifty := by
  unfold Obligations.PressureIsScaledByFifty
  refine ⟨fun p h0 h1 => ?_, fun p h0 h1 => toNat_rawWord_eq (by linarith) (by linarith)⟩
  have hcast : (p : Rat) * 50 = ((p * 50 : Nat) : Int) := by push_cast; rfl
  rw [pressureToRaw, rawWord, hcast, roundRaw_intCast, BitVec.ofInt_natCast, BitVec.toNat_ofNat, Nat.mod_eq_of_lt]
  omega

/-- Settles O35: the raw code is less than one step off, and decoding turns steps into 175/65535 and 125/65535. -/
theorem compensationRoundTripWithinOneStep : Obligations.CompensationRoundTripWithinOneStep := by
  unfold Obligations.CompensationRoundTripWithinOneStep
  refine ⟨fun t h0 h1 => ?_, fun h h0 h1 => ?_⟩
  · obtain ⟨hge, hle⟩ := tempCode_mem h0 h1
    have hoff := abs_lt.mp (abs_rawWord_sub_lt hge hle)
    rw [tempFromRaw_eq, tempToRaw, abs_lt]
    constructor <;> linarith
  · obtain ⟨hge, hle⟩ := rhCode_mem h0 h1
    have hoff := abs_lt.mp (abs_rawWord_sub_lt hge hle)
    rw [rhFromRaw_eq, rhToRaw, abs_lt]
    constructor <;> linarith

end Sys2Proof
end

section
/-! PROOFS. The wire form of the commands (30_encoding.md R50 to R60): the decoder takes the encoder's frame apart again, it reads nothing
but the codes of the command map, and a frame it takes is the encoder's but for the CRC bytes. -/

namespace Sys2Proof

open Sys2Proof.Claims

/-! ### Words of a frame -/

/-- The decoder of a payload word takes the triple and passes over its CRC byte (R53). -/
@[simp] theorem takeWord_encodeTriple (w : Word) (rest : List Byte) : takeWord (encodeTriple w ++ rest) = .ok (w, rest) := by
  show Except.ok (joinBytes (highByte w) (lowByte w), rest) = _
  rw [joinBytes_high_low]

theorem takeWord_ok {bytes rest : List Byte} {w : Word} (h : takeWord bytes = .ok (w, rest)) :
    ∃ c, bytes = highByte w :: lowByte w :: c :: rest := by
  unfold takeWord at h
  split at h
  · next hi lo c rest' =>
    cases h
    exact ⟨c, by simp⟩
  · cases h

theorem takeWord_of_length {bytes : List Byte} (h : 3 ≤ bytes.length) :
    ∃ w rest, takeWord bytes = .ok (w, rest) ∧ bytes.length = rest.length + 3 := by
  match bytes, h with
  | hi :: lo :: c :: rest, _ => exact ⟨joinBytes hi lo, rest, rfl, rfl⟩

/-- A wide frame is decoded by its code, with the triples behind it (R32, R52). -/
theorem decode_encodeFrame (cmd : Word) (ws : List Word) (rest : List Byte) :
    decode .wide (encodeFrame cmd ws ++ rest) = decodeWideCode cmd (ws.flatMap encodeTriple ++ rest) := by
  show decodeWideCode (joinBytes (highByte cmd) (lowByte cmd)) (ws.flatMap encodeTriple ++ rest) = _
  rw [joinBytes_high_low]

/-! ### Decoding what was encoded -/

/-- Settles O19: the code leads back to the command, and each triple to its word, whose exact value is the operand. -/
theorem decodeOfEncodeGivesTheCommand : Obligations.DecodeOfEncodeGivesTheCommand := by
  unfold Obligations.DecodeOfEncodeGivesTheCommand
  intro i hi hexact rest
  cases i
  case wake => exact ⟨_, _, rfl, rfl⟩
  case softReset => exact ⟨_, _, rfl, rfl⟩
  case setRhtCompensation t h =>
    obtain ⟨⟨rt, rfl⟩, rh, rfl⟩ := hexact
    refine ⟨_, _, rfl, ?_⟩
    rw [decode_encodeFrame]
    simp [decodeWideCode, Instr.payload]
  case setPressureCompensation p =>
    obtain ⟨r, rfl⟩ := hexact
    refine ⟨_, _, rfl, ?_⟩
    rw [decode_encodeFrame]
    simp [decodeWideCode, Instr.payload]
  case forcedRecalibration g =>
    refine ⟨_, _, rfl, ?_⟩
    rw [decode_encodeFrame]
    simp [decodeWideCode, Instr.payload]
  case identify | startContinuousMeasurement | stopContinuousMeasurement | readMeasurement | singleShotTrigger | sleep
      | factoryReset | enableTestMode | disableTestMode => exact ⟨_, _, rfl, decode_encodeFrame _ [] rest⟩
  all_goals cases hi

/-! ### Encoding what was decoded -/

/-- The bytes hold a triple for each of the words, with any CRC byte, and then the rest (R53). -/
def Carries : List Word → List Byte → List Byte → Prop
  | [], bytes, rest => bytes = rest
  | w :: ws, bytes, rest => ∃ c left, bytes = highByte w :: lowByte w :: c :: left ∧ Carries ws left rest

section
variable {bytes rest : List Byte}

theorem Carries.length_eq {ws : List Word} (h : Carries ws bytes rest) : bytes.length = 3 * ws.length + rest.length := by
  induction ws generalizing bytes with
  | nil =>
    obtain rfl : bytes = rest := h
    simp
  | cons w ws ih =>
    obtain ⟨c, left, rfl, hleft⟩ := h
    have := ih hleft
    simp only [List.length_cons] at *
    omega

theorem Carries.drop_eq {ws : List Word} (h : Carries ws bytes rest) : bytes.drop (3 * ws.length) = rest := by
  induction ws generalizing bytes with
  | nil => exact h
  | cons w ws ih =>
    obtain ⟨c, left, rfl, hleft⟩ := h
    exact ih hleft

/-- But for the CRC bytes they are the triples the encoder makes. -/
theorem Carries.getElem?_eq {ws : List Word} (h : Carries ws bytes rest) {k : Nat} (hk : k < 3 * ws.length)
    (hcrc : k % 3 ≠ 2) : bytes[k]? = (ws.flatMap encodeTriple)[k]? := by
  induction ws generalizing bytes k with
  | nil => simp at hk
  | cons w ws ih =>
    obtain ⟨c, left, rfl, hleft⟩ := h
    match k with
    | 0 | 1 => rfl
    | 2 => exact absurd rfl hcrc
    | k + 3 => exact ih hleft (by simp only [List.length_cons] at hk; omega) (by omega)

/-- What the wide half of the command map takes is a command with that code, and the triples of its payload (R54, R58). -/
theorem decodeWideCode_ok {code : Word} {i : Instr} (h : decodeWideCode code bytes = .ok (i, rest)) :
    i.code = some (.wide code) ∧ Carries i.payload bytes rest := by
  revert h
  fun_cases decodeWideCode code bytes
  all_goals rintro ⟨⟩
  case case7 hcode t left ht h hh =>
    obtain ⟨c, rfl⟩ := takeWord_ok ht
    obtain ⟨c', rfl⟩ := takeWord_ok hh
    rw [Instr.payload, tempToRaw_tempFromRaw, rhToRaw_rhFromRaw]
    exact ⟨by rw [hcode]; rfl, c, _, rfl, c', _, rfl, rfl⟩
  case case9 hcode p hp =>
    obtain ⟨c, rfl⟩ := takeWord_ok hp
    rw [Instr.payload, pressureToRaw_pressureFromRaw]
    exact ⟨by rw [hcode]; rfl, c, _, rfl, rfl⟩
  case case16 hcode g hg =>
    obtain ⟨c, rfl⟩ := takeWord_ok hg
    exact ⟨by rw [hcode]; rfl, c, _, rfl, rfl⟩
  all_goals
    next hcode => exact ⟨by rw [hcode]; rfl, rfl⟩

theorem decodeNarrowCode_ok {code : Byte} {i : Instr} (h : decodeNarrowCode code bytes = .ok (i, rest)) :
    encode i = some (.narrow, [code]) ∧ bytes = rest := by
  revert h
  fun_cases decodeNarrowCode code bytes
  all_goals rintro ⟨⟩
  all_goals
    next hcode => exact ⟨by rw [hcode]; rfl, rfl⟩

/-- A wide frame that is taken is the encoder's but for the CRC bytes, which stand at 4 and 7: no payload has three words. -/
theorem encode_of_decodeWideCode {hi lo : Byte} {i : Instr} (h : decodeWideCode (joinBytes hi lo) bytes = .ok (i, rest)) :
    ∃ frame, encode i = some (.wide, frame) ∧ (hi :: lo :: bytes).length = frame.length + rest.length ∧
      (hi :: lo :: bytes).drop frame.length = rest ∧
      ∀ k, k < frame.length → k ≠ 4 → k ≠ 7 → (hi :: lo :: bytes)[k]? = frame[k]? := by
  obtain ⟨c, hc⟩ := Machine.commandOf_of_isCommand (Machine.decodeWideCode_isCommand h)
  have hle : i.payload.length ≤ 2 := (Machine.payload_length hc).trans_le (Machine.payload_le hc)
  obtain ⟨hcode, hcarries⟩ := decodeWideCode_ok h
  have hframe : encodeFrame (joinBytes hi lo) i.payload = hi :: lo :: i.payload.flatMap encodeTriple := by
    simp [encodeFrame, encodeCommand]
  have hlen := Machine.encodeFrame_length (joinBytes hi lo) i.payload
  refine ⟨encodeFrame (joinBytes hi lo) i.payload, by rw [encode, hcode], ?_, ?_, fun k hk h4 h7 => ?_⟩
  · rw [hlen, List.length_cons, List.length_cons, hcarries.length_eq]
    omega
  · rw [hlen, Nat.add_comm 2]
    exact hcarries.drop_eq
  · rw [hframe]
    match k with
    | 0 | 1 => rfl
    | k + 2 => exact hcarries.getElem?_eq (by omega) (by omega)

end

/-- Settles O20: a narrow frame is its code; a wide one is its code and the triples of the payload. -/
theorem encodeOfDecodeGivesTheFrame : Obligations.EncodeOfDecodeGivesTheFrame := by
  unfold Obligations.EncodeOfDecodeGivesTheFrame
  intro tag bytes i rest h
  match tag, bytes with
  | .narrow, [] => cases h
  | .narrow, code :: bytes =>
    obtain ⟨henc, rfl⟩ := decodeNarrowCode_ok h
    refine ⟨[code], henc, Nat.add_comm _ 1, rfl, fun k hk _ _ => ?_⟩
    obtain rfl : k = 0 := Nat.lt_one_iff.mp hk
    rfl
  | .wide, [] | .wide, [_] => cases h
  | .wide, hi :: lo :: bytes => exact encode_of_decodeWideCode h

/-! ### The codes that decode -/

theorem mem_wideCodes_of_code {i : Instr} {code : Word} (h : i.code = some (.wide code)) : code ∈ wideCodes := by
  cases i <;> cases h <;> decide

/-- Each of the twelve codes is taken when two triples follow, the most a command has (R54). -/
theorem decodeWideCode_of_mem {code : Word} (h : code ∈ wideCodes) {rest : List Byte} (hl : 6 ≤ rest.length) :
    ∃ r, decodeWideCode code rest = .ok r := by
  obtain ⟨w, left, hw, hleft⟩ := takeWord_of_length (bytes := rest) (by omega)
  obtain ⟨w', left', hw', -⟩ := takeWord_of_length (bytes := left) (by omega)
  simp only [wideCodes, List.mem_cons, List.not_mem_nil, or_false] at h
  rcases h with rfl | rfl | rfl | rfl | rfl | rfl | rfl | rfl | rfl | rfl | rfl | rfl <;>
    simp [decodeWideCode, hw, hw']

/-- Settles O21: what is taken is a command with that code, and each of the fourteen codes is taken. -/
theorem onlyTheFourteenCodesDecode : Obligations.OnlyTheFourteenCodesDecode := by
  unfold Obligations.OnlyTheFourteenCodesDecode
  refine ⟨fun c rest => ?_, fun hi lo rest hl => ⟨?_, fun h => decodeWideCode_of_mem h hl⟩⟩
  · show (∃ r, decodeNarrowCode c rest = .ok r) ↔ _
    unfold decodeNarrowCode
    by_cases h0 : c = 0x00
    · rw [if_pos h0]
      exact ⟨fun _ => .inl h0, fun _ => ⟨_, rfl⟩⟩
    · by_cases h6 : c = 0x06
      · rw [if_neg h0, if_pos h6]
        exact ⟨fun _ => .inr h6, fun _ => ⟨_, rfl⟩⟩
      · rw [if_neg h0, if_neg h6]
        exact ⟨nofun, fun h => absurd h (not_or.mpr ⟨h0, h6⟩)⟩
  · rintro ⟨⟨i, left⟩, h⟩
    exact mem_wideCodes_of_code (decodeWideCode_ok h).1

/-- Settles O22: each row and each frame is run through the decoder. -/
theorem commandMapWordsDecode : Obligations.CommandMapWordsDecode := by
  unfold Obligations.CommandMapWordsDecode
  refine ⟨?_, ?_, ?_, ?_, ?_, ?_, ?_, ?_, ?_, ?_, ?_, ?_, ?_, ?_⟩
  all_goals decide +kernel

end Sys2Proof
end

section
/-! PROOFS. Single transitions (10_state.md R13, R21, 40_crc8.md R70, R71, 60_exceptions.md R168, 70_reset_and_hazards.md R190): the stops
of the CRC unit, what an error and the end of an operation write, and which operation a step runs. -/

namespace Sys2Proof.Machine

/-! ### The CRC unit outside its preconditions -/

/-- Settles O2: both operations test `bitcnt` first. -/
theorem crcStepsStopOutsideTheirPreconditions : Obligations.CrcStepsStopOutsideTheirPreconditions := by
  unfold Obligations.CrcStepsStopOutsideTheirPreconditions
  intro s b hp
  constructor
  · intro hb
    rw [exec_crcBitStep_idle hp, if_pos hb]
  · intro hb
    rw [exec_crcByteStep_idle hp, if_neg hb]

/-! ### Errors and the end of an operation -/

/-- DONE hands over the result that stands there and leads back to IDLE (R13, R168). -/
theorem phaseStep_done {s : State} {r : OpResult} (hp : s.phase = .done) (hr : s.result = some r) (c : Command) :
    phaseStep c s = .moved (finish r s) := by
  simp only [phaseStep, hp, donePhase, hr]

/-- Settles O37: `raise` writes two fields, and DONE hands over what stands in the first. -/
theorem raiseWritesResultAndPhase : Obligations.RaiseWritesResultAndPhase := by
  unfold Obligations.RaiseWritesResultAndPhase
  intro e s c
  exact ⟨rfl, _, phaseStep_done (raise_phase e s) (raise_result e s) c, rfl, rfl, rfl, rfl, rfl⟩

/-- Settles O38: each transient field gets the value it has after reset. -/
theorem operationEndLeavesNothingTransient : Obligations.OperationEndLeavesNothingTransient := by
  unfold Obligations.OperationEndLeavesNothingTransient
  exact fun _ _ => rfl

/-! ### The operation of a step -/

/-- Settles O44: a reset that is due comes first in the step. -/
theorem resetEventEndsTheOperation : Obligations.ResetEventEndsTheOperation := by
  unfold Obligations.ResetEventEndsTheOperation
  exact fun s hr => ⟨resetBlock s, step_reset hr, rfl⟩

/-- A frame that decodes names the command it decodes to. -/
theorem instr_frame_of_decode {tag : Tag} {bytes left : List Byte} {i : Instr} (h : decode tag bytes = .ok (i, left)) :
    (Request.frame tag bytes).instr = .ok i := by
  rw [Request.instr, h]

/-- A frame that does not decode names no operation, for the same reason. -/
theorem instr_frame_of_reject {tag : Tag} {bytes : List Byte} {e : DecodeReject} (h : decode tag bytes = .error e) :
    (Request.frame tag bytes).instr = .error e := by
  rw [Request.instr, h]

/-- Settles O45: the next request names the operation, and outside IDLE the running one goes on. -/
theorem stepRunsTheRequestedOperation : Obligations.StepRunsTheRequestedOperation := by
  unfold Obligations.StepRunsTheRequestedOperation
  intro s hr
  refine ⟨fun hp => ⟨fun i rest hq => ?_, fun tag bytes i left rest hq hd => ?_, fun tag bytes e rest hq hd => ?_, ?_⟩,
    step_busy hr⟩
  · exact step_idle_exec hr hp hq rfl
  · exact step_idle_exec hr hp hq (instr_frame_of_decode hd)
  · exact step_idle_refused hr hp hq (instr_frame_of_reject hd)
  · exact step_idle_quiet hr hp

/-- A row whose bits decode has a frame, and the frame decodes to the same (log entry 27). -/
theorem decodeTableWord_some {nbits w : Nat} {i : Instr} (h : decodeTableWord nbits w = some i) :
    ∃ tag bytes left, tableFrame nbits w = some (tag, bytes) ∧ decode tag bytes = .ok (i, left) := by
  unfold decodeTableWord at h
  split at h
  · cases h
  · next tag bytes hframe =>
    split at h
    · next i' left hd =>
      cases h
      exact ⟨tag, bytes, left, hframe, hd⟩
    · cases h

/-- Settles O46: the row's frame stands first in the list of requests, so the step takes it. -/
theorem placedTableWordRunsNext : Obligations.PlacedTableWordRunsNext := by
  unfold Obligations.PlacedTableWordRunsNext
  intro s nbits w i h
  obtain ⟨tag, bytes, left, hframe, hd⟩ := decodeTableWord_some h
  have hplaced : s.withFetchWord nbits w =
      { s with phase := .idle, resetRequested := false, requests := .frame tag bytes :: s.requests } := by
    rw [State.withFetchWord, hframe]
  rw [hplaced]
  exact step_idle_exec rfl rfl rfl (instr_frame_of_decode hd)

end Sys2Proof.Machine
end
